-- ==== Sys2Proof/Word.lean ====
section
/-! DEFINITION. The words of the bignum CORE: digits, digit sequences and their value (00_scope R10), bytes,
command words, register numbers. -/

namespace Sys2Proof

/-- A digit sequence, index 0 first and least significant (R10, R36). A digit is an unsigned value `d` with
`0 <= d < B` (R5); `B` is a build parameter, so a digit is a number and "every digit is below `B`" is an invariant
(log entry 6). -/
abbrev Digits := List Nat

/-- One cell of the text buffer (R28). -/
abbrev Byte := BitVec 8

/-- The 32-bit word the host writes to `CMD` (R49). -/
abbrev CommandWord := BitVec 32

/-- A register field names one of `N0` .. `N15` (R16, R50). -/
abbrev RegId := Fin 16

/-- `val(a) = a[0] + a[1]*B + ... + a[n-1]*B^(n-1)` (R10). -/
def val (B : Nat) : Digits → Nat
  | [] => 0
  | d :: ds => d + B * val B ds

end Sys2Proof
end

