-- ==== Sys2Proof/Syntax.lean ====
section
/-! DEFINITION. The 14 commands (30_encoding R54), one constructor for each row of spec/opcode_table.json, with the
register fields their format uses (R51). -/

namespace Sys2Proof

/-- The complete command set (R54). Register arguments stand in the assembler's order, destinations first (R60). -/
inductive Instr where
  /-- `FROMINT Nd` (R71). -/
  | fromint (rd : RegId)
  /-- `FROMDEC Nd` (R75). -/
  | fromdec (rd : RegId)
  /-- `TOINT Na` (R73). -/
  | toint (ra : RegId)
  /-- `TODEC Na` (R80). -/
  | todec (ra : RegId)
  /-- `MOV Nd, Na` (R70). -/
  | mov (rd ra : RegId)
  /-- `ADD Nd, Na, Nb` (R93). -/
  | add (rd ra rb : RegId)
  /-- `SUB Nd, Na, Nb` (R94). -/
  | sub (rd ra rb : RegId)
  /-- `MUL Nd, Na, Nb` (R100). -/
  | mul (rd ra rb : RegId)
  /-- `DIV Nd, Na, Nb` (R120). -/
  | div (rd ra rb : RegId)
  /-- `DIVREM Nq, Nr, Na, Nb`: `Nq` is the field `rd`, `Nr` the field `rr` (R121, R60). -/
  | divrem (rd rr ra rb : RegId)
  /-- `NOT Nd, Na` (R133). -/
  | bitNot (rd ra : RegId)
  /-- `OR Nd, Na, Nb` (R134). -/
  | bitOr (rd ra rb : RegId)
  /-- `XOR Nd, Na, Nb` (R135). -/
  | bitXor (rd ra rb : RegId)
  /-- `AND Nd, Na, Nb` (R136). -/
  | bitAnd (rd ra rb : RegId)
  deriving DecidableEq, Repr

/-- The mnemonics of the opcode map (R54). -/
inductive Opcode where
  | fromint | fromdec | toint | todec | mov
  | add | sub | mul | div | divrem
  | bitNot | bitOr | bitXor | bitAnd
  deriving DecidableEq, Repr

/-- The command's row of the opcode map. -/
def Instr.opcode : Instr → Opcode
  | .fromint _ => .fromint
  | .fromdec _ => .fromdec
  | .toint _ => .toint
  | .todec _ => .todec
  | .mov _ _ => .mov
  | .add _ _ _ => .add
  | .sub _ _ _ => .sub
  | .mul _ _ _ => .mul
  | .div _ _ _ => .div
  | .divrem _ _ _ _ => .divrem
  | .bitNot _ _ => .bitNot
  | .bitOr _ _ _ => .bitOr
  | .bitXor _ _ _ => .bitXor
  | .bitAnd _ _ _ => .bitAnd

end Sys2Proof
end

