-- ==== Sys2Proof/WellFormed.lean ====
section
/-! DEFINITION. Which terms of `Instr` are commands (30_encoding R56). -/

namespace Sys2Proof

/-- A command is well formed unless it is a DIVREM that names one register for both results (R56). The range of every
register field is in its type (R50), and a field the format does not use is no argument of the constructor (R52). -/
def Instr.wf : Instr → Bool
  | .divrem rd rr _ _ => rd != rr
  | .fromint _ => true
  | .fromdec _ => true
  | .toint _ => true
  | .todec _ => true
  | .mov _ _ => true
  | .add _ _ _ => true
  | .sub _ _ _ => true
  | .mul _ _ _ => true
  | .div _ _ _ => true
  | .bitNot _ _ => true
  | .bitOr _ _ _ => true
  | .bitXor _ _ _ => true
  | .bitAnd _ _ _ => true

end Sys2Proof
end

