-- ==== Sys2Proof/Decode.lean ====
section
/-! DEFINITION. The decoder of 30_encoding R58, total on 32-bit words, and the encoder written from the same tables
(R50, R51, R54). -/

namespace Sys2Proof

/-- The five formats (R51). -/
inductive Format where
  | d | a | da | dab | drab
  deriving DecidableEq, Repr

/-- Why a word is illegal (R55). -/
inductive IllegalCause where
  /-- (a) `op` is not one of the 14 values of R54. -/
  | unknownOpcode
  /-- (b) a field the format leaves unused, or `cmd[7:0]`, is not zero. -/
  | unusedFieldNotZero
  /-- (c) DIVREM with `rd == rr`. -/
  | sameDestinations
  deriving DecidableEq, Repr

/-- The mask of a format: 1 in every bit position that is fixed (R51). -/
def Format.mask : Format → CommandWord
  | .d => 0xFF0FFFFF#32
  | .a => 0xFFF0FFFF#32
  | .da => 0xFF00FFFF#32
  | .dab => 0xFF000FFF#32
  | .drab => 0xFF0000FF#32

/-- The format column of the opcode map (R54). -/
def Opcode.format : Opcode → Format
  | .fromint => .d
  | .fromdec => .d
  | .toint => .a
  | .todec => .a
  | .mov => .da
  | .add => .dab
  | .sub => .dab
  | .mul => .dab
  | .div => .dab
  | .divrem => .drab
  | .bitNot => .da
  | .bitOr => .dab
  | .bitXor => .dab
  | .bitAnd => .dab

/-- The `op` column of the opcode map (R54). -/
def Opcode.code : Opcode → BitVec 8
  | .fromint => 0x01#8
  | .fromdec => 0x02#8
  | .toint => 0x03#8
  | .todec => 0x04#8
  | .mov => 0x05#8
  | .add => 0x10#8
  | .sub => 0x11#8
  | .mul => 0x12#8
  | .div => 0x13#8
  | .divrem => 0x14#8
  | .bitNot => 0x20#8
  | .bitOr => 0x21#8
  | .bitXor => 0x22#8
  | .bitAnd => 0x23#8

/-- The opcode map read the other way. "No other opcode value is a command" (R54). -/
def opcodeOf (b : BitVec 8) : Option Opcode :=
  match b.toNat with
  | 0x01 => some .fromint
  | 0x02 => some .fromdec
  | 0x03 => some .toint
  | 0x04 => some .todec
  | 0x05 => some .mov
  | 0x10 => some .add
  | 0x11 => some .sub
  | 0x12 => some .mul
  | 0x13 => some .div
  | 0x14 => some .divrem
  | 0x20 => some .bitNot
  | 0x21 => some .bitOr
  | 0x22 => some .bitXor
  | 0x23 => some .bitAnd
  | _ => none

/-- The word with every register field zero (R54, the match column). -/
def Opcode.matchWord (o : Opcode) : CommandWord := o.code ++ 0#24

/-- `cmd[31:24] = op` (R50). -/
def opField (w : CommandWord) : BitVec 8 := w.extractLsb' 24 8
/-- `cmd[23:20] = rd` (R50). -/
def rdField (w : CommandWord) : RegId := (w.extractLsb' 20 4).toFin
/-- `cmd[19:16] = ra` (R50). -/
def raField (w : CommandWord) : RegId := (w.extractLsb' 16 4).toFin
/-- `cmd[15:12] = rb` (R50). -/
def rbField (w : CommandWord) : RegId := (w.extractLsb' 12 4).toFin
/-- `cmd[11:8] = rr` (R50). -/
def rrField (w : CommandWord) : RegId := (w.extractLsb' 8 4).toFin

/-- The mnemonic with its register fields, of which only those its format uses have meaning (R58 (4)). -/
def Opcode.withFields (o : Opcode) (w : CommandWord) : Instr :=
  match o with
  | .fromint => .fromint (rdField w)
  | .fromdec => .fromdec (rdField w)
  | .toint => .toint (raField w)
  | .todec => .todec (raField w)
  | .mov => .mov (rdField w) (raField w)
  | .add => .add (rdField w) (raField w) (rbField w)
  | .sub => .sub (rdField w) (raField w) (rbField w)
  | .mul => .mul (rdField w) (raField w) (rbField w)
  | .div => .div (rdField w) (raField w) (rbField w)
  | .divrem => .divrem (rdField w) (rrField w) (raField w) (rbField w)
  | .bitNot => .bitNot (rdField w) (raField w)
  | .bitOr => .bitOr (rdField w) (raField w) (rbField w)
  | .bitXor => .bitXor (rdField w) (raField w) (rbField w)
  | .bitAnd => .bitAnd (rdField w) (raField w) (rbField w)

/-- The decoding procedure (R58): look up `op`, test `(w & mask) == match`, test DIVREM's destinations. It reads no
state; every word is one of the 14 commands or illegal (R57). -/
def decode (w : CommandWord) : Except IllegalCause Instr :=
  match opcodeOf (opField w) with
  | none => .error .unknownOpcode
  | some o =>
    if w &&& o.format.mask ≠ o.matchWord then .error .unusedFieldNotZero
    else if (o.withFields w).wf then .ok (o.withFields w)
    else .error .sameDestinations

/-- A register number as the 4 bits of its field (R50). -/
def regBits (r : RegId) : BitVec 4 := BitVec.ofFin r

/-- The word with the given fields, `cmd[7:0]` zero (R50). -/
def fieldsWord (op : BitVec 8) (rd ra rb rr : RegId) : CommandWord :=
  op ++ regBits rd ++ regBits ra ++ regBits rb ++ regBits rr ++ 0#8

/-- The word of a command: its match value with the fields its format uses, the others zero (R52, R54). -/
def encode : Instr → CommandWord
  | .fromint rd => fieldsWord 0x01#8 rd 0 0 0
  | .fromdec rd => fieldsWord 0x02#8 rd 0 0 0
  | .toint ra => fieldsWord 0x03#8 0 ra 0 0
  | .todec ra => fieldsWord 0x04#8 0 ra 0 0
  | .mov rd ra => fieldsWord 0x05#8 rd ra 0 0
  | .add rd ra rb => fieldsWord 0x10#8 rd ra rb 0
  | .sub rd ra rb => fieldsWord 0x11#8 rd ra rb 0
  | .mul rd ra rb => fieldsWord 0x12#8 rd ra rb 0
  | .div rd ra rb => fieldsWord 0x13#8 rd ra rb 0
  | .divrem rd rr ra rb => fieldsWord 0x14#8 rd ra rb rr
  | .bitNot rd ra => fieldsWord 0x20#8 rd ra 0 0
  | .bitOr rd ra rb => fieldsWord 0x21#8 rd ra rb 0
  | .bitXor rd ra rb => fieldsWord 0x22#8 rd ra rb 0
  | .bitAnd rd ra rb => fieldsWord 0x23#8 rd ra rb 0

/-- The word whose low `nbits` bits are those of `w` and whose other bits are 0. A command is one 32-bit word (R49), so
there is nothing above bit 31, and `CMD` takes the word whole, so no byte order applies (R42). -/
def tableWord (nbits w : Nat) : CommandWord := BitVec.ofNat 32 (w % 2 ^ nbits)

/-- What the decoder reads from the word with the bits `w`, as spec/opcode_table.json numbers them. -/
def decodeTableWord (nbits w : Nat) : Option Instr :=
  match decode (tableWord nbits w) with
  | .ok i => some i
  | .error _ => none

end Sys2Proof
end

