-- ==== Sys2Proof/Config.lean ====
section
/-! DEFINITION. The build parameters of the block (00_scope R5-R9) and the one free value of the model, the contents of
the text buffer after reset (93_implementation_defined U1). -/

namespace Sys2Proof

/-- Parameter `W`: "`W = 16` or `W = 32`", no other value (R5). -/
inductive DigitWidth where
  | w16
  | w32
  deriving DecidableEq, Repr

/-- Parameter `IW` by way of `ND = IW / W`, the digit count of a machine integer: `IW` is `W` or `2W` (R7). -/
inductive MachineWidth where
  | oneDigit
  | twoDigits
  deriving DecidableEq, Repr

/-- One admissible build of the block. `NREG` is 16 in every build (R8) and is no field. No command changes a
parameter (R5, R34); the record stands in `State` only so that one model covers every build (log entry 1). -/
structure Config where
  /-- `W` (R5). -/
  digit : DigitWidth
  /-- `ND`, and with it `IW` (R7). -/
  machine : MachineWidth
  /-- `NMAX`, the largest digit count of a Number register (R8). -/
  nmax : Nat
  /-- `TMAX`, the byte capacity of the text buffer (R8). -/
  tmax : Nat
  /-- What `TB` holds after reset: byte `k` of this list, `0` past its end. The spec leaves these bytes open, "an
  arbitrary byte array that is a parameter of the reset state" (R33, U1): a FREE VALUE, every list is admissible
  (log entry 3). -/
  tbReset : List Byte
  deriving DecidableEq, Repr

/-- `W` in bits (R5). -/
def Config.W (c : Config) : Nat :=
  match c.digit with
  | .w16 => 16
  | .w32 => 32

/-- The base `B = 2^W` (R5). -/
def Config.B (c : Config) : Nat := 2 ^ c.W

/-- The decimal chunk length: "D = 9 for W=32, D = 4 for W=16" (R6). -/
def Config.D (c : Config) : Nat :=
  match c.digit with
  | .w16 => 4
  | .w32 => 9

/-- `ND`, the digit count of a machine integer (R7). -/
def Config.ND (c : Config) : Nat :=
  match c.machine with
  | .oneDigit => 1
  | .twoDigits => 2

/-- `IW = ND * W`, the width of `DIN` and `DOUT` (R7). -/
def Config.IW (c : Config) : Nat := c.ND * c.W

/-- What the rules ask of the capacities: `NMAX >= 2`, `TMAX >= 2` (R8; `NMAX >= ND` follows), and that the 32 bits of
`TLEN` can hold every text length up to `TMAX` (DEDUCED from R27, log entry 9). -/
abbrev Config.Wf (c : Config) : Prop := 2 ≤ c.nmax ∧ 2 ≤ c.tmax ∧ c.tmax < 2 ^ 32

/-- The reference configuration CFG16 (R9). -/
def Config.cfg16 : Config :=
  { digit := .w16, machine := .twoDigits, nmax := 64, tmax := 1024, tbReset := [] }

/-- The reference configuration CFG32 (R9). -/
def Config.cfg32 : Config :=
  { digit := .w32, machine := .oneDigit, nmax := 64, tmax := 1024, tbReset := [] }

end Sys2Proof
end

