-- ==== Sys2Proof/Machine/State.lean ====
section
/-! DEFINITION. The complete architectural state of one bignum CORE (10_state R15), the host's moves (70 R172), the error
codes (60 R140), the model's own stops, and the state after reset (10 R33). -/

namespace Sys2Proof.Machine

/-- The four values of the 2-bit sign tag (R17). -/
inductive SignTag where
  | positive
  | negative
  | positiveComplement
  | negativeComplement
  deriving DecidableEq, Repr

/-- A Signed Number: sign, digits least significant first, and `size`, "equal to `digits.length`" (R16). -/
structure Number where
  sign : SignTag
  digits : Digits
  deriving DecidableEq, Repr

/-- `size`: the count of digits in use (R16; log entry 5). -/
def Number.size (n : Number) : Nat := n.digits.length

/-- One Number register: the valid bit (R19) and the Number. With `valid` false the Number is never read. -/
structure NumReg where
  valid : Bool
  num : Number
  deriving DecidableEq, Repr

/-- The errors a command can raise (R140); OK is no error. -/
inductive ErrCode where
  | illegal
  | alloc
  | parse
  | divzero
  | invariant
  | uninit
  deriving DecidableEq, Repr

/-- The ports the host can read (R172), and `CMD`, which reads as zero (R29). -/
inductive Port where
  | status
  | din
  | dout
  | tlen
  | cmd
  | tb (k : Nat)
  deriving DecidableEq, Repr

/-- Everything the host can do, one constructor for each move of the host table (R172). -/
inductive HostAction where
  /-- The reset event (R159). -/
  | reset
  /-- `CMD <- w` issues one command (R29). -/
  | writeCmd (w : CommandWord)
  /-- `DIN <- v`; the port has `IW` bits (R25). -/
  | writeDin (v : Nat)
  /-- `TLEN <- v`, any 32-bit value (R27). -/
  | writeTlen (v : BitVec 32)
  /-- `TB[k] <- b` (R28). -/
  | writeTb (k : Nat) (b : Byte)
  /-- A write to `STATUS`, ignored (R24). -/
  | writeStatus (v : BitVec 32)
  /-- A write to `DOUT`, ignored (R26). -/
  | writeDout (v : Nat)
  /-- A read of a port; "no read has a side effect" (R43). -/
  | read (p : Port)
  deriving DecidableEq, Repr

/-- Where a run of the model stops. Every error of the hardware is a next state, not one of these. -/
inductive Fault where
  /-- Raised by a host read or write of `TB[k]` with `k >= TMAX`: "no such location exists in the model" (U13, R172).
  SAFE: the model stops where the spec gives no behaviour (log entry 8). No command raises it. -/
  | textIndexOutOfRange (k : Nat)
  deriving DecidableEq, Repr

/-- Why the model gives an instruction no meaning. -/
inductive Refusal where
  /-- Raised by `exec`'s own arm for an instruction with no meaning yet, and by nothing else; no arm does. SAFE. -/
  | notModelled (mnemonic : String)
  deriving DecidableEq, Repr

/-- The state of the block (R15), its parameters (R34), and the host's side of a run (R171, R172). -/
structure State where
  /-- The build parameters, never changed by a step (R5, R34; log entry 1). The model's own field. -/
  cfg : Config
  /-- The Number registers `N[0]` .. `N[15]` (R16). -/
  regs : Vector NumReg 16
  /-- `STATUS` (R24); its fields are read and written through Machine/Flags.lean. -/
  status : BitVec 32
  /-- `DIN`, an `IW`-bit pattern (R25). -/
  din : Nat
  /-- `DOUT`, an `IW`-bit pattern (R26). -/
  dout : Nat
  /-- `TLEN` (R27). -/
  tlen : BitVec 32
  /-- `TB[0 .. TMAX-1]` (R28): the cells that differ from the reset contents, indices rising; read and written through
  Machine/Ops.lean. -/
  tb : List Host.Cell
  /-- The host's actions still to come, in order (R171; log entry 2). The model's own field. -/
  pending : List HostAction
  /-- What the host got from its last action, the last column of R172 (log entry 11). The model's own field. -/
  hostGot : Option Nat
  deriving DecidableEq, Repr

/-- A Number register after reset: `V = 0`; the other fields are "unspecified and unreadable" (R33), and the model
holds Positive zero there (DESIGN CHOICE, log entry 4). -/
def NumReg.reset : NumReg := { valid := false, num := { sign := .positive, digits := [0] } }

/-- The reset state of a block with the parameters `c` (R33, R160): `STATUS = DIN = DOUT = TLEN = 0`, every `V` 0, every
byte of `TB` what `c.tbReset` says. -/
def State.resetOf (c : Config) : State :=
  { cfg := c
    regs := Vector.replicate 16 NumReg.reset
    status := 0#32
    din := 0
    dout := 0
    tlen := 0#32
    tb := []
    pending := []
    hostGot := none }

/-- The machine right after reset, in the reference configuration CFG32 (DESIGN CHOICE, log entries 1 and 3). -/
def State.reset : State := State.resetOf Config.cfg32

end Sys2Proof.Machine
end

