-- ==== Sys2Proof/Machine/DigitStore.lean ====
section
/-! DEFINITION. The Digit Store and the Normalizer (40_digit_store_normalizer R63-R65), the sign tag's bits (10_state R17),
and reading two sequences aligned to the longer one (42_add_sub R85). -/

namespace Sys2Proof.Machine

/-- Bit 0 of the tag: 1 is negative (R17). -/
def SignTag.neg : SignTag → Bool
  | .positive => false
  | .negative => true
  | .positiveComplement => false
  | .negativeComplement => true

/-- Bit 1 of the tag: 1 when the digits are a two's-complement view (R17). -/
def SignTag.cpl : SignTag → Bool
  | .positive => false
  | .negative => false
  | .positiveComplement => true
  | .negativeComplement => true

/-- The tag with the given bits (R17). -/
def SignTag.ofBits (neg cpl : Bool) : SignTag :=
  match neg, cpl with
  | false, false => .positive
  | true, false => .negative
  | false, true => .positiveComplement
  | true, true => .negativeComplement

/-- `resize(a, n, fill)` (R63): the digits of `a` below `n`, then `fill` up to the length `n`. -/
def resize (fill : Nat) : Digits → Nat → Digits
  | _, 0 => []
  | [], n + 1 => fill :: resize fill [] n
  | d :: ds, n + 1 => d :: resize fill ds n

/-- The sequence without its zero digits on top, empty when every digit is zero. -/
def trimTop : Digits → Digits
  | [] => []
  | d :: ds =>
    match trimTop ds with
    | [] => if d = 0 then [] else [d]
    | e :: es => d :: e :: es

/-- `normalize(a)` (R64): strip the zero digits on top, "leaving exactly one digit `0` for the value zero". -/
def normalize (a : Digits) : Digits :=
  match trimTop a with
  | [] => [0]
  | d :: ds => d :: ds

/-- `canon(s, a)` (R65): normalize, and tag zero Positive. -/
def canon (n : Number) : Number :=
  if normalize n.digits = [0] then { sign := .positive, digits := [0] }
  else { sign := n.sign, digits := normalize n.digits }

/-- Both sequences extended to the length of the longer, each with its own fill, digit beside digit (R85, R125). -/
def aligned (fillA fillB : Nat) (a b : Digits) : List (Nat × Nat) :=
  let n := max a.length b.length
  (resize fillA a n).zip (resize fillB b n)

end Sys2Proof.Machine
end

