-- ==== Sys2Proof/Machine/Flags.lean ====
section
/-! DEFINITION. The fields of `STATUS` (10_state R24) and the error codes (60_exceptions R140). There are no other flags
and no condition codes (R31). -/

namespace Sys2Proof.Machine

/-- The code column of the error table (R140). -/
def ErrCode.code : ErrCode → BitVec 4
  | .illegal => 1#4
  | .alloc => 2#4
  | .parse => 3#4
  | .divzero => 8#4
  | .invariant => 9#4
  | .uninit => 10#4

/-- The class column of the error table: DIVZERO, INVARIANT and UNINIT are fatal (R139, R140). -/
def ErrCode.fatal : ErrCode → Bool
  | .illegal => false
  | .alloc => false
  | .parse => false
  | .divzero => true
  | .invariant => true
  | .uninit => true

/-- `STATUS[3:0] = ERR` (R24). -/
def errField (status : BitVec 32) : BitVec 4 := status.extractLsb' 0 4

/-- `STATUS[4] = FATAL` (R24). -/
def fatalField (status : BitVec 32) : Bool := status.getLsbD 4

/-- `STATUS.ERR <- code`, every other bit as it was. -/
def withErr (status : BitVec 32) (code : BitVec 4) : BitVec 32 :=
  (status &&& 0xFFFFFFF0#32) ||| code.setWidth 32

/-- `STATUS.FATAL <- 1`, every other bit as it was. -/
def withFatal (status : BitVec 32) : BitVec 32 := status ||| 0x10#32

/-- The STATUS a command that raises `e` leaves: a recoverable error writes `ERR` alone (R148), a fatal one `ERR` and
`FATAL` (R149). -/
def statusAfterError (status : BitVec 32) (e : ErrCode) : BitVec 32 :=
  if e.fatal then withFatal (withErr status e.code) else withErr status e.code

/-- The STATUS a command that raises nothing leaves: `ERR <- 0` (R152). -/
def statusAfterSuccess (status : BitVec 32) : BitVec 32 := withErr status 0#4

end Sys2Proof.Machine
end

