-- ==== Sys2Proof/Machine/Ops.lean ====
section
/-! DEFINITION. The named operations over the state: Number registers, the text buffer, raising an error and completing a
command (60_exceptions R147-R152), the reset event (70_reset_and_hazards R159). -/

namespace Sys2Proof.Machine

/-- `N[i]`. -/
def State.reg (s : State) (i : RegId) : NumReg := s.regs[i]

/-- `N[d] <- (s, a)`: sign, size and digits are written and `V` is set, "all at once" (R11, R68). -/
def State.setNum (s : State) (d : RegId) (n : Number) : State :=
  { s with regs := s.regs.set d { valid := true, num := n } }

/-- What byte `k` of `TB` holds after reset (R33, U1): the one definition of what an unlisted index reads as. -/
def textAtReset (c : Config) (k : Nat) : Byte := c.tbReset.getD k 0#8

/-- Byte `k` of a text buffer held as its cells. -/
def textRead (c : Config) (k : Nat) : List Host.Cell → Byte
  | [] => textAtReset c k
  | (j, b) :: rest => if j = k then b else textRead c k rest

/-- Whether the cell must be listed: it differs from the reset contents. -/
def textCell (c : Config) (k : Nat) (b : Byte) (rest : List Host.Cell) : List Host.Cell :=
  if b = textAtReset c k then rest else (k, b) :: rest

/-- The cells after `TB[k] <- b`, in the canonical form. -/
def textWrite (c : Config) (k : Nat) (b : Byte) : List Host.Cell → List Host.Cell
  | [] => textCell c k b []
  | (j, x) :: rest =>
    if j < k then (j, x) :: textWrite c k b rest
    else if j = k then textCell c k b rest
    else textCell c k b ((j, x) :: rest)

/-- The cells after `TB[k] <- text[0]`, `TB[k+1] <- text[1]`, and so on (R80). -/
def textWriteAll (c : Config) : Nat → List Byte → List Host.Cell → List Host.Cell
  | _, [], cells => cells
  | k, b :: bs, cells => textWriteAll c (k + 1) bs (textWrite c k b cells)

/-- `TB[k]` (R28). -/
def State.text (s : State) (k : Nat) : Byte := textRead s.cfg k s.tb

/-- `TB[k] <- b` (R28). -/
def State.setText (s : State) (k : Nat) (b : Byte) : State := { s with tb := textWrite s.cfg k b s.tb }

/-- The bytes `TB[k .. k+n-1]` in reading order (R38). -/
def State.textFrom (s : State) (k : Nat) : Nat → List Byte
  | 0 => []
  | n + 1 => s.text k :: s.textFrom (k + 1) n

/-- The canonical form of the text buffer's cells: indices from `lo` on, strictly rising and below `TMAX`, no cell equal
to the reset contents at its index. -/
def textWf (c : Config) (lo : Nat) : List Host.Cell → Bool
  | [] => true
  | (k, b) :: rest => decide (lo ≤ k) && decide (k < c.tmax) && decide (b ≠ textAtReset c k) && textWf c (k + 1) rest

/-- The text buffer is in its canonical form. -/
def Memory.wf (s : State) : Bool := textWf s.cfg 0 s.tb

/-- The block is halted: `STATUS.FATAL = 1` (R150). -/
def State.halted (s : State) : Bool := fatalField s.status

/-- `raise E` (R147): the command ends here and nothing but STATUS changes, `ERR` for a recoverable error (R148), `ERR`
and `FATAL` for a fatal one, after which the block is halted (R149). There is no handler, no saved address and no return
(R147, R153); only `State.afterReset` leaves the halted state. -/
def State.raise (s : State) (e : ErrCode) : State := { s with status := statusAfterError s.status e }

/-- A command that raises nothing sets `STATUS.ERR <- 0` as part of the same step (R152). -/
def State.succeed (s : State) : State := { s with status := statusAfterSuccess s.status }

/-- A command is one atomic step (R42): `body` is the state with the command's writes, or the error it raises. -/
def runCommand (s : State) (body : Except ErrCode State) : Host.Outcome State Fault Refusal :=
  match body with
  | .ok t => .next t.succeed
  | .error e => .next (s.raise e)

/-- The reset event (R159): the whole state of R15 becomes the reset state "whatever the state was before, the halted
state included". The parameters are not state (R34), and the host's remaining actions are the host's. -/
def State.afterReset (s : State) : State := { State.resetOf s.cfg with pending := s.pending }

end Sys2Proof.Machine
end

