-- ==== Sys2Proof/Machine/Operands.lean ====
section
/-! DEFINITION. Every operand form of 30_encoding R53: a source register (40 R69), a destination register with its
capacity check (40 R67, R68), `DIN`, `DOUT` (20 R40) and the text of `TB` with `TLEN` (20 R38). -/

namespace Sys2Proof.Machine

/-- `readOperand(i)` (R69): UNINIT if `V = 0`, else sign and digits. -/
def readOperand (s : State) (i : RegId) : Except ErrCode Number :=
  if (s.reg i).valid then .ok (s.reg i).num else .error .uninit

/-- The capacity check (R67): on the canonical result, not on a transient. -/
def fits (c : Config) (n : Number) : Bool := decide ((canon n).size ≤ c.nmax)

/-- `writeResult(d, s, a)` behind its capacity check (R67, R68): the canonical Number, or ALLOC and no write. -/
def writeResult (s : State) (d : RegId) (n : Number) : Except ErrCode State :=
  if fits s.cfg n then .ok (s.setNum d (canon n)) else .error .alloc

/-- Two results "as one indivisible update" (R121, R163): both are checked before either is written (R67). -/
def writeResults (s : State) (d₁ : RegId) (n₁ : Number) (d₂ : RegId) (n₂ : Number) : Except ErrCode State :=
  if fits s.cfg n₁ && fits s.cfg n₂ then .ok ((s.setNum d₁ (canon n₁)).setNum d₂ (canon n₂)) else .error .alloc

/-- A command of format DA: read `ra`, compute on the copy, write `rd` (R68, R69, R162). -/
def unaryCommand (f : Number → Number) (rd ra : RegId) (s : State) : Host.Outcome State Fault Refusal :=
  runCommand s (do
    let x ← readOperand s ra
    writeResult s rd (f x))

/-- A command of format DAB: read `ra`, then `rb`, compute on the copies, write `rd` (R68, R69, R151, R162). -/
def binaryCommand (f : Number → Number → Number) (rd ra rb : RegId) (s : State) :
    Host.Outcome State Fault Refusal :=
  runCommand s (do
    let x ← readOperand s ra
    let y ← readOperand s rb
    writeResult s rd (f x y))

/-- `DOUT <- p`. -/
def State.setDout (s : State) (p : Nat) : State := { s with dout := p }

/-- The text a FROMDEC reads: `TB[0 .. TLEN-1]` (R27, R38). -/
def State.textOperand (s : State) : List Byte := s.textFrom 0 s.tlen.toNat

/-- `TB[0 .. n-1] <- text`, then `TLEN <- n`; the bytes from `n` on keep their values (R80, R165). -/
def State.setTextResult (s : State) (text : List Byte) : State :=
  { s with tb := textWriteAll s.cfg 0 text s.tb, tlen := BitVec.ofNat 32 text.length }

end Sys2Proof.Machine
end

