-- ==== Sys2Proof/Machine/Bitwise.lean ====
section
/-! DEFINITION. The two's-complement adapter and the commands NOT, OR, XOR and AND (45_bitwise R123-R136). -/

namespace Sys2Proof.Machine

/-- A complement view (R123): the tag's `neg` bit (its `cpl` bit is 1 in every view, R17) and the digits. It exists inside
one command only (R20). -/
structure View where
  neg : Bool
  digits : Digits
  deriving DecidableEq, Repr

/-- The tag of a view: PositiveComplement or NegativeComplement (R123). -/
def View.tag (v : View) : SignTag := SignTag.ofBits v.neg true

/-- The digit a view is extended with: 0 for PositiveComplement, all ones for NegativeComplement (R63, R125). -/
def View.fill (B : Nat) (v : View) : Nat := if v.neg then B - 1 else 0

/-- The inversion of all `W` bits of every digit (R124, R126). -/
def invert (B : Nat) : Digits → Digits
  | [] => []
  | d :: ds => (B - 1 - d) :: invert B ds

/-- "Add 1 across the whole array" (R124): the carry chain `acc = t[i] + carry`. -/
def addOneCarry (B : Nat) : Digits → Nat → Digits
  | [], _ => []
  | d :: ds, carry => (d + carry) % B :: addOneCarry B ds ((d + carry) / B)

/-- `toComplement((s, m))` (R124): a Positive magnitude as it is; a Negative one with a reserved zero digit, inverted,
plus 1. -/
def toComplement (B : Nat) (n : Number) : View :=
  if n.sign.neg then
    { neg := true, digits := addOneCarry B (invert B (resize 0 n.digits (n.digits.length + 1))) 1 }
  else { neg := false, digits := n.digits }

/-- `fromComplement((tag, c))` (R128): a PositiveComplement view is the magnitude; a NegativeComplement one is extended by
one all-ones digit (R129), inverted, plus 1. The caller applies `canon`. -/
def fromComplement (B : Nat) (v : View) : Number :=
  if v.neg then
    { sign := .negative, digits := addOneCarry B (invert B (resize (B - 1) v.digits (v.digits.length + 1))) 1 }
  else { sign := .positive, digits := v.digits }

/-- The three binary operators (R126). -/
inductive BitOp where
  | or
  | xor
  | and
  deriving DecidableEq, Repr

/-- The operator on two digits, each bit independently (R126). -/
def BitOp.digit (o : BitOp) (x y : Nat) : Nat :=
  match o with
  | .or => x ||| y
  | .xor => x ^^^ y
  | .and => x &&& y

/-- The operator on two tag bits (R127). -/
def BitOp.bit (o : BitOp) (p q : Bool) : Bool :=
  match o with
  | .or => p || q
  | .xor => p ^^ q
  | .and => p && q

/-- The operator on two views: extend the shorter by its own fill (R125), operate digit by digit (R126) and on the tags
(R127). -/
def View.op (B : Nat) (o : BitOp) (a b : View) : View :=
  { neg := o.bit a.neg b.neg
    digits := (aligned (a.fill B) (b.fill B) a.digits b.digits).map (fun p => o.digit p.1 p.2) }

/-- `bitwise2(op, X, Y)` before `canon` (R130). -/
def bitwise2 (B : Nat) (o : BitOp) (x y : Number) : Number :=
  fromComplement B ((toComplement B x).op B o (toComplement B y))

/-- The one-argument operator on a view: every bit of the digits and the tag inverted (R126, R127). -/
def View.not (B : Nat) (v : View) : View := { neg := !v.neg, digits := invert B v.digits }

/-- `bitwiseNot(X)` before `canon` (R132). "It is **not** arithmetic negation." -/
def bitwiseNot (B : Nat) (x : Number) : Number := fromComplement B ((toComplement B x).not B)

/-- NOT (R133). -/
def execBitNot (rd ra : RegId) (s : State) : Host.Outcome State Fault Refusal :=
  unaryCommand (bitwiseNot s.cfg.B) rd ra s

/-- OR (R134). -/
def execBitOr (rd ra rb : RegId) (s : State) : Host.Outcome State Fault Refusal :=
  binaryCommand (bitwise2 s.cfg.B .or) rd ra rb s

/-- XOR (R135). -/
def execBitXor (rd ra rb : RegId) (s : State) : Host.Outcome State Fault Refusal :=
  binaryCommand (bitwise2 s.cfg.B .xor) rd ra rb s

/-- AND (R136). -/
def execBitAnd (rd ra rb : RegId) (s : State) : Host.Outcome State Fault Refusal :=
  binaryCommand (bitwise2 s.cfg.B .and) rd ra rb s

end Sys2Proof.Machine
end

