-- ==== Sys2Proof/Machine/AddSub.lean ====
section
/-! DEFINITION. The multi-word adder, the comparator, the multi-word subtractor, the sign combination, and the commands
ADD and SUB (42_add_sub R85-R94). -/

namespace Sys2Proof.Machine

/-- The adder's loop over aligned digits (R85): `acc = x + y + carry`; the low digit is stored, the high one carried;
the last carry is the extra top digit. -/
def addCarry (B : Nat) : List (Nat × Nat) → Nat → Digits
  | [], carry => [carry]
  | (x, y) :: ps, carry => (x + y + carry) % B :: addCarry B ps ((x + y + carry) / B)

/-- `addMagnitude(a, b)` (R85): `max(len)+1` digits, not yet normalized. -/
def addMagnitude (B : Nat) (a b : Digits) : Digits := addCarry B (aligned 0 0 a b) 0

/-- The comparator's loop, from the most significant aligned digit down; the first difference decides (R87). -/
def compareDigits : List (Nat × Nat) → Ordering
  | [] => .eq
  | (x, y) :: ps =>
    match compareDigits ps with
    | .eq => if y < x then .gt else if x < y then .lt else .eq
    | .lt => .lt
    | .gt => .gt

/-- `cmpMagnitude(a, b)` (R87), both sequences read as zero above their length. -/
def cmpMagnitude (a b : Digits) : Ordering := compareDigits (aligned 0 0 a b)

/-- The borrow chain (R88): `acc = B + x - y - borrow`, a digit and a borrow out of each; answers the digits and the last
borrow. -/
def subBorrow (B : Nat) : List (Nat × Nat) → Nat → Digits × Nat
  | [], borrow => ([], borrow)
  | (x, y) :: ps, borrow =>
    let acc := B + x - y - borrow
    let rest := subBorrow B ps (1 - acc / B)
    (acc % B :: rest.1, rest.2)

/-- The digits and the last borrow of `a - b` over `len(a)` digits, `b` read as zero above its length (R88). -/
def subChain (B : Nat) (a b : Digits) : Digits × Nat :=
  subBorrow B (a.zip (resize 0 b a.length)) 0

/-- `subMagnitude(a, b)` (R88), for `val(a) >= val(b)`: `len(a)` digits, not yet normalized. -/
def subMagnitude (B : Nat) (a b : Digits) : Digits := (subChain B a b).1

/-- `subOrdered(a, b)` (R90): whether the operands were swapped, and the difference of the larger and the smaller. -/
def subOrdered (B : Nat) (a b : Digits) : Bool × Digits :=
  match cmpMagnitude a b with
  | .lt => (true, subMagnitude B b a)
  | .eq => (false, subMagnitude B a b)
  | .gt => (false, subMagnitude B a b)

/-- `flip` (R92). -/
def SignTag.flip (t : SignTag) : SignTag := SignTag.ofBits (!t.neg) t.cpl

/-- `addSigned` (R91): like signs add and keep the sign; unlike signs subtract, "with sign of the larger-magnitude
operand". The magnitude is not yet normalized. -/
def addSigned (B : Nat) (x y : Number) : Number :=
  if x.sign.neg = y.sign.neg then { sign := x.sign, digits := addMagnitude B x.digits y.digits }
  else
    { sign := if (subOrdered B x.digits y.digits).1 then y.sign else x.sign
      digits := (subOrdered B x.digits y.digits).2 }

/-- `subSigned` (R92): addition of the second operand with its sign flipped. -/
def subSigned (B : Nat) (x y : Number) : Number := addSigned B x { sign := y.sign.flip, digits := y.digits }

/-- ADD (R93). -/
def execAdd (rd ra rb : RegId) (s : State) : Host.Outcome State Fault Refusal :=
  binaryCommand (addSigned s.cfg.B) rd ra rb s

/-- SUB (R94). -/
def execSub (rd ra rb : RegId) (s : State) : Host.Outcome State Fault Refusal :=
  binaryCommand (subSigned s.cfg.B) rd ra rb s

end Sys2Proof.Machine
end

