-- ==== Sys2Proof/Machine/Multiply.lean ====
section
/-! DEFINITION. The schoolbook multiplier, multiplication by one digit, and the command MUL (43_multiply R97-R100,
41_construction_conversion R74). -/

namespace Sys2Proof.Machine

/-- `mulSmall`'s loop (R74): `acc = a[i] * c + carry`. -/
def mulCarry (B c : Nat) : Digits → Nat → Digits
  | [], carry => [carry]
  | x :: xs, carry => (x * c + carry) % B :: mulCarry B c xs ((x * c + carry) / B)

/-- `mulSmall(a, c)` (R74): `len(a)+1` digits, not normalized. -/
def mulSmall (B : Nat) (a : Digits) (c : Nat) : Digits := mulCarry B c a 0

/-- One row of the multiplier (R97) for the digit `x` of `a`, over the digits of `b` beside the product digits already
there: `acc = x * b[j] + p[i+j] + carry`; the row's last carry is the digit `p[i+len(b)]`. -/
def mulRow (B x : Nat) : List (Nat × Nat) → Nat → Digits
  | [], carry => [carry]
  | (y, p) :: ps, carry => (x * y + p + carry) % B :: mulRow B x ps ((x * y + p + carry) / B)

/-- The rows of the multiplier, one for each digit of `a` (R97). `p` is the part `p[i .. i+len(b)-1]` of the product
array that row `i` reads; the row's lowest digit is final, the others are what row `i+1` reads. -/
def mulRows (B : Nat) (b : Digits) : Digits → Digits → Digits
  | [], p => p
  | x :: xs, p =>
    match mulRow B x (b.zip p) 0 with
    | [] => []
    | d :: ds => d :: mulRows B b xs ds

/-- `mulMagnitude(a, b)` (R97): the product array starts as zeros; `len(a)+len(b)` digits, not yet normalized. -/
def mulMagnitude (B : Nat) (a b : Digits) : Digits := mulRows B b a (List.replicate b.length 0)

/-- The signed product before `canon`: the sign is the XOR of the operand signs (R99). -/
def mulSigned (B : Nat) (x y : Number) : Number :=
  { sign := SignTag.ofBits (x.sign.neg ^^ y.sign.neg) false, digits := mulMagnitude B x.digits y.digits }

/-- MUL (R100). -/
def execMul (rd ra rb : RegId) (s : State) : Host.Outcome State Fault Refusal :=
  binaryCommand (mulSigned s.cfg.B) rd ra rb s

end Sys2Proof.Machine
end

