-- ==== Sys2Proof/Machine/Divide.lean ====
section
/-! DEFINITION. The divider: the single-digit path, Knuth's Algorithm D with its seven steps, and the commands DIV and
DIVREM (44_divide R103-R121). -/

namespace Sys2Proof.Machine

/-- `divSmall(a, d)` (R104), from the most significant digit down: `cur = rem * B + a[i]`. Answers the quotient digits
and the remainder. -/
def divSmall (B : Nat) (d : Nat) : Digits → Digits × Nat
  | [] => ([], 0)
  | x :: xs =>
    let hi := divSmall B d xs
    let cur := hi.2 * B + x
    (cur / d :: hi.1, cur % d)

/-- Step 1's shift (R108): the least `d` with `top * 2^d >= half`, looked for among `0 .. W-1`. -/
def normShift (half : Nat) : Nat → Nat → Nat
  | 0, _ => 0
  | n + 1, top => if half ≤ top then 0 else normShift half n (2 * top) + 1

/-- `shiftLeft`'s loop (R108): `t = x[i] * 2^d + carry`. -/
def shiftLeftCarry (B d : Nat) : Digits → Nat → Digits
  | [], _ => []
  | x :: xs, carry => (x * 2 ^ d + carry) % B :: shiftLeftCarry B d xs ((x * 2 ^ d + carry) / B)

/-- `shiftLeft(x, d, m)` (R108): `m` digits. -/
def shiftLeft (B : Nat) (x : Digits) (d m : Nat) : Digits := shiftLeftCarry B d (resize 0 x m) 0

/-- `shiftRight(x, d)` (R108): each digit is bits `d .. d+W-1` of it and the next higher digit. -/
def shiftRight (B d : Nat) : Digits → Digits
  | [] => []
  | x :: xs => (xs.headD 0 * B + x) / 2 ^ d % B :: shiftRight B d xs

/-- Step 3, correct the estimate (R110, D32): while `rhat < B` and the estimate is too large, `qhat` goes down and
`vn[n-1]` is added to `rhat`. "The loop runs at most 2 times per quotient digit", which is the bound given here
(log entry 13). -/
def correct (B v1 v2 u0 : Nat) : Nat → Nat → Nat → Nat
  | 0, qhat, _ => qhat
  | n + 1, qhat, rhat =>
    if rhat < B ∧ (qhat = B ∨ rhat * B + u0 < qhat * v2) then correct B v1 v2 u0 n (qhat - 1) (rhat + v1)
    else qhat

/-- Steps 2 and 3 (R109, R110): the corrected estimate of the quotient digit of the `n+1`-digit window `w`. -/
def estimate (B : Nat) (vn w : Digits) : Nat :=
  let n := vn.length
  let v1 := vn.getD (n - 1) 0
  let value := w.getD n 0 * B + w.getD (n - 1) 0
  correct B v1 (vn.getD (n - 2) 0) (w.getD (n - 2) 0) 2 (value / v1) (value % v1)

/-- Steps 2 to 5 at one quotient position (R109-R112): the quotient digit and the window's low `n` digits after the
subtraction, or nothing when the borrow chain ends with a borrow, the algorithm-invariant violation. -/
def divStep (B : Nat) (vn w : Digits) : Option (Nat × Digits) :=
  let qhat := estimate B vn w
  let qv := mulSmall B vn qhat
  let tooLarge := cmpMagnitude qv w = .gt
  let q := if tooLarge then qhat - 1 else qhat
  let qv' := if tooLarge then subMagnitude B qv vn else qv
  let r := subChain B w qv'
  if r.2 = 0 then some (q, r.1.take vn.length) else none

/-- The loop over the quotient positions `j`, from the top down (R109, R113). The first list is `un[0 .. j]`, the second
the `n` digits above it, so that the window `un[j .. j+n]` is `u :: r`. The window's top digit is zero after step 5 and no
later position reads it (R112). -/
def divLoop (B : Nat) (vn : Digits) : Digits → Digits → Except ErrCode (Digits × Digits)
  | [], r => .ok ([], r)
  | u :: us, r =>
    match divLoop B vn us r with
    | .error e => .error e
    | .ok (q, r') =>
      match divStep B vn (u :: r') with
      | none => .error .invariant
      | some (d, r'') => .ok (d :: q, r'')

/-- Knuth's Algorithm D (R115), for `n >= 2` and `len(a) >= n`: `len(a) - n + 1` quotient digits and `n` remainder
digits, neither normalized. -/
def algorithmD (W : Nat) (a v : Digits) : Except ErrCode (Digits × Digits) :=
  let B := 2 ^ W
  let n := v.length
  let d := normShift (B / 2) W (v.getD (n - 1) 0)
  let vn := shiftLeft B v d n
  let un := shiftLeft B a d (a.length + 1)
  match divLoop B vn (un.take (a.length + 1 - n)) (un.drop (a.length + 1 - n)) with
  | .error e => .error e
  | .ok (q, r) => .ok (q, shiftRight B d r)

/-- `divMagnitude(a, v)` (R103): the dispatch on the digit counts. -/
def divMagnitude (W : Nat) (a v : Digits) : Except ErrCode (Digits × Digits) :=
  if v.length = 1 then .ok ((divSmall (2 ^ W) (v.getD 0 0) a).1, [(divSmall (2 ^ W) (v.getD 0 0) a).2])
  else if a.length < v.length then .ok ([0], a)
  else algorithmD W a v

/-- The quotient and the remainder of two Numbers before `canon` (R118-R120): DIVZERO for the divisor `[0]`; the
quotient's sign is the XOR of the operand signs, the remainder's is the dividend's. -/
def divSigned (W : Nat) (x y : Number) : Except ErrCode (Number × Number) :=
  if y.digits = [0] then .error .divzero
  else
    match divMagnitude W x.digits y.digits with
    | .error e => .error e
    | .ok (q, r) =>
      .ok ({ sign := SignTag.ofBits (x.sign.neg ^^ y.sign.neg) false, digits := q }, { sign := x.sign, digits := r })

/-- DIV (R120): the quotient; the remainder "is computed and discarded". -/
def execDiv (rd ra rb : RegId) (s : State) : Host.Outcome State Fault Refusal :=
  runCommand s (do
    let x ← readOperand s ra
    let y ← readOperand s rb
    let qr ← divSigned s.cfg.W x y
    writeResult s rd qr.1)

/-- DIVREM (R121): quotient to `rd`, remainder to `rr`, both or neither; one register for both is ILLEGAL (R56), before
any operand is read (R151). -/
def execDivrem (rd rr ra rb : RegId) (s : State) : Host.Outcome State Fault Refusal :=
  runCommand s (do
    if rd = rr then throw .illegal
    let x ← readOperand s ra
    let y ← readOperand s rb
    let qr ← divSigned s.cfg.W x y
    writeResults s rd qr.1 rr qr.2)

end Sys2Proof.Machine
end

