-- ==== Sys2Proof/Machine/Convert.lean ====
section
/-! DEFINITION. Construction and conversion: FROMINT, TOINT, FROMDEC, TODEC (41_construction_conversion R71-R83) and the
copy MOV (40_digit_store_normalizer R70). -/

namespace Sys2Proof.Machine

/-- MOV (R70). -/
def execMov (rd ra : RegId) (s : State) : Host.Outcome State Fault Refusal := unaryCommand (fun x => x) rd ra s

/-- The `n` base-`B` digits of `m`, least significant first (R71). -/
def digitsOf (B : Nat) : Nat → Nat → Digits
  | 0, _ => []
  | n + 1, m => m % B :: digitsOf B n (m / B)

/-- The Number of the machine integer with the `IW`-bit pattern `p` before `canon` (R71): a negative pattern's magnitude
by unsigned negation, `2^IW - p` (R72); always `ND` digits (D33). -/
def fromPattern (c : Config) (p : Nat) : Number :=
  if 2 ^ (c.IW - 1) ≤ p then { sign := .negative, digits := digitsOf c.B c.ND (2 ^ c.IW - p) }
  else { sign := .positive, digits := digitsOf c.B c.ND p }

/-- FROMINT (R71). -/
def execFromint (rd : RegId) (s : State) : Host.Outcome State Fault Refusal :=
  runCommand s (writeResult s rd (fromPattern s.cfg s.din))

/-- The pattern TOINT writes (R73): the low 1 or 2 digits, negated modulo `2^IW` for a Negative Number. -/
def toPattern (c : Config) (n : Number) : Nat :=
  let m := val c.B (n.digits.take c.ND)
  if n.sign.neg then (2 ^ c.IW - m) % 2 ^ c.IW else m

/-- TOINT (R73). A value that does not fit is truncated silently (R158). -/
def execToint (ra : RegId) (s : State) : Host.Outcome State Fault Refusal :=
  runCommand s (do
    let x ← readOperand s ra
    pure (s.setDout (toPattern s.cfg x)))

/-- `'+'` (R39). -/
def charPlus : Byte := 0x2B#8
/-- `'-'` (R39). -/
def charMinus : Byte := 0x2D#8

/-- The character is one of `'0' .. '9'` (R39). -/
def isDigitChar (c : Byte) : Bool := decide (0x30 ≤ c.toNat) && decide (c.toNat ≤ 0x39)

/-- `c - 0x30` (R39). -/
def digitOfChar (c : Byte) : Nat := c.toNat - 0x30

/-- `chunkValue` (R79): the integer the characters denote, most significant first. -/
def chunkValue (cs : List Byte) : Nat := cs.foldl (fun v c => v * 10 + digitOfChar c) 0

/-- `step(v, chunk)`: `value = value * 10^D + chunk` (R78). -/
def accumulateStep (B D : Nat) (v : Digits) (chunk : List Byte) : Digits :=
  normalize (addMagnitude B (mulSmall B v (10 ^ D)) [chunkValue chunk])

/-- The chunks of exactly `D` characters, the given number of them, most significant first (R78). -/
def accumulateChunks (B D : Nat) : Nat → List Byte → Digits → Digits
  | 0, _, v => v
  | n + 1, cs, v => accumulateChunks B D n (cs.drop D) (accumulateStep B D v (cs.take D))

/-- `accumulate` (R78): the first chunk has `k mod D` characters when that is not zero (D17), all others `D`. -/
def accumulate (B D : Nat) (cs : List Byte) : Digits :=
  let f := cs.length % D
  let v := if f = 0 then [0] else accumulateStep B D [0] (cs.take f)
  accumulateChunks B D (cs.length / D) (cs.drop f) v

/-- The optional sign character and the characters after it (R75, R76). -/
def splitSign (text : List Byte) : SignTag × List Byte :=
  match text with
  | [] => (.positive, [])
  | c :: cs =>
    if c = charPlus then (.positive, cs)
    else if c = charMinus then (.negative, cs)
    else (.positive, c :: cs)

/-- The Number a decimal text denotes, before `canon`, or PARSE for a text that is not accepted (R75, R76). -/
def parseText (c : Config) (text : List Byte) : Except ErrCode Number :=
  if (splitSign text).2 ≠ [] ∧ (splitSign text).2.all isDigitChar then
    .ok { sign := (splitSign text).1, digits := accumulate c.B c.D (splitSign text).2 }
  else .error .parse

/-- FROMDEC (R75): the length is checked before any byte is read. -/
def execFromdec (rd : RegId) (s : State) : Host.Outcome State Fault Refusal :=
  runCommand s (do
    if s.tlen.toNat < 1 ∨ s.cfg.tmax < s.tlen.toNat then throw .parse
    let x ← parseText s.cfg s.textOperand
    writeResult s rd x)

/-- The digit character of `d` (R39, R83). -/
def charOfDigit (d : Nat) : Byte := BitVec.ofNat 8 (0x30 + d)

/-- `decPadded(r)` (R83): exactly `n` characters, most significant first. -/
def decPadded : Nat → Nat → List Byte
  | 0, _ => []
  | n + 1, r => decPadded n (r / 10) ++ [charOfDigit (r % 10)]

/-- `decShort(r)` (R83): `decPadded(r)` without its leading `'0'` characters. -/
def decShort (D r : Nat) : List Byte := (decPadded D r).dropWhile (fun c => c == charOfDigit 0)

/-- The base-`10^D` chunks of a magnitude, least significant first (R82): divide by `10^D` until the quotient is `[0]`.
The first argument bounds the number of divisions (R169, log entry 13). -/
def decChunks (B D : Nat) : Nat → Digits → List Nat
  | 0, _ => []
  | n + 1, t =>
    if t = [0] then []
    else (divSmall B (10 ^ D) t).2 :: decChunks B D n (normalize (divSmall B (10 ^ D) t).1)

/-- The most significant chunk without leading zeros, the others as `D` characters each (R82). -/
def chunksText (D : Nat) : List Nat → List Byte
  | [] => []
  | [r] => decShort D r
  | r :: r' :: rs => chunksText D (r' :: rs) ++ decPadded D r

/-- `decimalText` (R81, R82). -/
def decimalText (c : Config) (n : Number) : List Byte :=
  if n.digits = [0] then [charOfDigit 0]
  else
    (if n.sign.neg then [charMinus] else []) ++
      chunksText c.D (decChunks c.B c.D (2 * n.digits.length) n.digits)

/-- TODEC (R80): ALLOC for a text longer than `TMAX`. -/
def execTodec (ra : RegId) (s : State) : Host.Outcome State Fault Refusal :=
  runCommand s (do
    let x ← readOperand s ra
    if s.cfg.tmax < (decimalText s.cfg x).length then throw .alloc
    pure (s.setTextResult (decimalText s.cfg x)))

end Sys2Proof.Machine
end

