-- ==== Sys2Proof/Machine/Dispatch.lean ====
section
/-! DEFINITION. One arm for each command: the meaning of 30_encoding R54's semantics column. -/

namespace Sys2Proof.Machine

def exec (i : Instr) (s : State) : Host.Outcome State Fault Refusal :=
  match i with
  | .fromint rd => Sys2Proof.Machine.execFromint rd s
  | .fromdec rd => Sys2Proof.Machine.execFromdec rd s
  | .toint ra => Sys2Proof.Machine.execToint ra s
  | .todec ra => Sys2Proof.Machine.execTodec ra s
  | .mov rd ra => Sys2Proof.Machine.execMov rd ra s
  | .add rd ra rb => Sys2Proof.Machine.execAdd rd ra rb s
  | .sub rd ra rb => Sys2Proof.Machine.execSub rd ra rb s
  | .mul rd ra rb => Sys2Proof.Machine.execMul rd ra rb s
  | .div rd ra rb => Sys2Proof.Machine.execDiv rd ra rb s
  | .divrem rd rr ra rb => Sys2Proof.Machine.execDivrem rd rr ra rb s
  | .bitNot rd ra => Sys2Proof.Machine.execBitNot rd ra s
  | .bitOr rd ra rb => Sys2Proof.Machine.execBitOr rd ra rb s
  | .bitXor rd ra rb => Sys2Proof.Machine.execBitXor rd ra rb s
  | .bitAnd rd ra rb => Sys2Proof.Machine.execBitAnd rd ra rb s

end Sys2Proof.Machine
end

