-- ==== Sys2Proof/Machine/Ports.lean ====
section
/-! DEFINITION. The command port (10_state R29, 30_encoding R58, 60_exceptions R150) and the effect of each host move of
70_reset_and_hazards R172. -/

namespace Sys2Proof.Machine

/-- A host write of `w` to `CMD` (R29): ignored, not even decoded, while the block is halted (R150); an illegal word
raises ILLEGAL (R55, R141); otherwise the command is performed. -/
def issueCommand (w : CommandWord) (s : State) : Host.Outcome State Fault Refusal :=
  if s.halted then .next s
  else
    match decode w with
    | .error _ => .next (s.raise .illegal)
    | .ok i => exec i s

/-- The host gets `v` from a read; nothing of the block changes (R43). -/
def hostGets (v : Nat) (s : State) : Host.Outcome State Fault Refusal := .next { s with hostGot := some v }

/-- The value a host read of a port gets (R172; `CMD` reads as zero, R29); a read of `TB[k]` with `k >= TMAX` has no
location to read (U13). -/
def readPort (p : Port) (s : State) : Host.Outcome State Fault Refusal :=
  match p with
  | .status => hostGets s.status.toNat s
  | .din => hostGets s.din s
  | .dout => hostGets s.dout s
  | .tlen => hostGets s.tlen.toNat s
  | .cmd => hostGets 0 s
  | .tb k => if k < s.cfg.tmax then hostGets (s.text k).toNat s else .fault (.textIndexOutOfRange k)

/-- One host move (R172). `DIN` has `IW` bits, so it stores the low `IW` bits of the value (log entry 7). -/
def perform (a : HostAction) (s : State) : Host.Outcome State Fault Refusal :=
  match a with
  | .reset => .next s.afterReset
  | .writeCmd w => issueCommand w s
  | .writeDin v => .next { s with din := v % 2 ^ s.cfg.IW }
  | .writeTlen v => .next { s with tlen := v }
  | .writeTb k b => if k < s.cfg.tmax then .next (s.setText k b) else .fault (.textIndexOutOfRange k)
  | .writeStatus _ => .next s
  | .writeDout _ => .next s
  | .read p => readPort p s

/-- The state in which the host's next action runs: `rest` is still to come, and the host has not yet got anything from
the action. -/
def State.taking (s : State) (rest : List HostAction) : State := { s with pending := rest, hostGot := none }

/-- The next host action is a write of `w` to `CMD`. -/
def State.withCommand (s : State) (w : CommandWord) : State := { s with pending := .writeCmd w :: s.pending }

/-- The host actions of `HOST TEXT "s"` (30_encoding R60): the bytes to `TB[k ..]`, then the length to `TLEN`. -/
def hostTextFrom (len : Nat) : Nat → List Byte → List HostAction
  | _, [] => [.writeTlen (BitVec.ofNat 32 len)]
  | k, b :: bs => .writeTb k b :: hostTextFrom len (k + 1) bs

/-- `HOST TEXT "s"` (R60). -/
def hostText (text : List Byte) : List HostAction := hostTextFrom text.length 0 text

end Sys2Proof.Machine
end

