-- ==== Sys2Proof/Machine/Step.lean ====
section
/-! DEFINITION. One step: the next host action (70_reset_and_hazards R171, R172). -/

namespace Sys2Proof.Machine

/-- The host's next action is performed, as one atomic step (R42, R171). With no action left nothing happens: the block
does nothing by itself (R4; log entry 2). -/
def step (s : State) : Host.Outcome State Fault Refusal :=
  match s.pending with
  | [] => .next s
  | a :: rest => perform a (s.taking rest)

/-- `s` with the host's write of the word to `CMD` as its next action, so that the very next `step` performs that
command (log entry 2). A halted block ignores it, as R150 says. -/
def State.withFetchWord (s : State) (nbits w : Nat) : State := s.withCommand (tableWord nbits w)

end Sys2Proof.Machine
end

