-- ==== Sys2Proof/Safety.lean ====
section
/-! DEFINITION. The terms claims are stated in: the integer a Number stands for and the one canonical Number of an integer
(40_digit_store_normalizer R66), the bits of an integer (45_bitwise R131), decimal texts (41_construction_conversion R76,
R77, R81), which command reads and writes which register (10_state R22) and raises which error (60_exceptions R140), the
illegal words (30_encoding R55), and the invariant of the reachable states (10_state R18, R20, R24-R28). -/

namespace Sys2Proof

/-- The Number registers a command reads (R22). -/
def Instr.sources : Instr → List RegId
  | .fromint _ => []
  | .fromdec _ => []
  | .toint ra => [ra]
  | .todec ra => [ra]
  | .mov _ ra => [ra]
  | .add _ ra rb => [ra, rb]
  | .sub _ ra rb => [ra, rb]
  | .mul _ ra rb => [ra, rb]
  | .div _ ra rb => [ra, rb]
  | .divrem _ _ ra rb => [ra, rb]
  | .bitNot _ ra => [ra]
  | .bitOr _ ra rb => [ra, rb]
  | .bitXor _ ra rb => [ra, rb]
  | .bitAnd _ ra rb => [ra, rb]

/-- The Number registers a command writes (R22). -/
def Instr.dests : Instr → List RegId
  | .fromint rd => [rd]
  | .fromdec rd => [rd]
  | .toint _ => []
  | .todec _ => []
  | .mov rd _ => [rd]
  | .add rd _ _ => [rd]
  | .sub rd _ _ => [rd]
  | .mul rd _ _ => [rd]
  | .div rd _ _ => [rd]
  | .divrem rd rr _ _ => [rd, rr]
  | .bitNot rd _ => [rd]
  | .bitOr rd _ _ => [rd]
  | .bitXor rd _ _ => [rd]
  | .bitAnd rd _ _ => [rd]

/-- The word is illegal (R55): it is in no row of R54 with the must-be-zero bits of that row's format zero (R51), or it is
a DIVREM with `rd = rr`. The numbers are those of the two tables, written out. -/
abbrev IllegalWord (w : CommandWord) : Prop :=
  ¬ ((w.extractLsb' 24 8 ∈ [0x01#8, 0x02#8] ∧ w &&& 0x000FFFFF#32 = 0#32) ∨
    (w.extractLsb' 24 8 ∈ [0x03#8, 0x04#8] ∧ w &&& 0x00F0FFFF#32 = 0#32) ∨
    (w.extractLsb' 24 8 ∈ [0x05#8, 0x20#8] ∧ w &&& 0x0000FFFF#32 = 0#32) ∨
    (w.extractLsb' 24 8 ∈ [0x10#8, 0x11#8, 0x12#8, 0x13#8, 0x21#8, 0x22#8, 0x23#8] ∧ w &&& 0x00000FFF#32 = 0#32) ∨
    (w.extractLsb' 24 8 = 0x14#8 ∧ w &&& 0x000000FF#32 = 0#32 ∧ w.extractLsb' 20 4 ≠ w.extractLsb' 8 4))

end Sys2Proof

namespace Sys2Proof.Machine

/-- The errors a decoded command can raise: the "raised by" column of R140, without INVARIANT, which is unreachable
(R145), and without ILLEGAL, which belongs to the word (R141). -/
def raisable : Instr → List ErrCode
  | .fromint _ => []
  | .fromdec _ => [.alloc, .parse]
  | .toint _ => [.uninit]
  | .todec _ => [.alloc, .uninit]
  | .mov _ _ => [.uninit]
  | .add _ _ _ => [.alloc, .uninit]
  | .sub _ _ _ => [.alloc, .uninit]
  | .mul _ _ _ => [.alloc, .uninit]
  | .div _ _ _ => [.divzero, .uninit]
  | .divrem _ _ _ _ => [.divzero, .uninit]
  | .bitNot _ _ => [.alloc, .uninit]
  | .bitOr _ _ _ => [.uninit]
  | .bitXor _ _ _ => [.alloc, .uninit]
  | .bitAnd _ _ _ => [.alloc, .uninit]

/-- `value`: `+mag` for a Positive Number, `-mag` for a Negative one (R11). -/
def Number.value (B : Nat) (n : Number) : Int :=
  if n.sign.neg then -(val B n.digits : Int) else (val B n.digits : Int)

/-- The canonical form (R18 (i) to (v)): at least one digit; no zero digit on top unless the sequence is `[0]`; zero is
Positive; digits below `B`; no complement tag. -/
abbrev Number.Canonical (B : Nat) (n : Number) : Prop :=
  1 ≤ n.size ∧ (n.digits.getLastD 0 ≠ 0 ∨ n.digits = [0]) ∧ (n.digits = [0] → n.sign = .positive) ∧
    (∀ d ∈ n.digits, d < B) ∧ n.sign.cpl = false

/-- `num(x)` (R66): Negative exactly for `x < 0`, and the base-`B` digits of `|x|` with no zero digit on top, or `[0]`. -/
def num (B : Nat) (x : Int) : Number :=
  canon { sign := if x < 0 then .negative else .positive, digits := digitsOf B (x.natAbs.log2 + 1) x.natAbs }

/-- The integer a Number register holds. -/
def State.value (s : State) (i : RegId) : Int := (s.reg i).num.value s.cfg.B

/-- The register holds a Number (R19). -/
abbrev State.Valid (s : State) (i : RegId) : Prop := (s.reg i).valid = true

/-- The block is running, not halted (R150, R156). -/
abbrev State.Running (s : State) : Prop := s.halted = false

/-- The integer fits a Number register: its canonical form has at most `NMAX` digits (R18, R67). -/
abbrev State.Fits (s : State) (x : Int) : Prop := x.natAbs < s.cfg.B ^ s.cfg.nmax

/-- `TB[0 .. TLEN-1]` is this text, in reading order (R38). -/
def State.HoldsText (s : State) (text : List Byte) : Prop :=
  s.tlen.toNat = text.length ∧ ∀ (k : Nat) (h : k < text.length), s.text k = text[k]

/-- In the running state every word with the opcode `op` is the command `i` reads from its fields, or ILLEGAL where one
of its must-be-zero bits is set (R52, R54, R141). -/
def IssuesAs (op : BitVec 8) (mustBeZero : CommandWord) (i : CommandWord → Instr) : Prop :=
  ∀ (s : State) (w : CommandWord), s.Running → w.extractLsb' 24 8 = op →
    issueCommand w s = if w &&& mustBeZero = 0#32 then exec (i w) s else .next (s.raise .illegal)

/-- The signed value of an `n`-bit two's-complement pattern (20_memory R40): `p` below `2^(n-1)`, `p - 2^n` from there
on. -/
def signedPattern (n p : Nat) : Int := if 2 ^ (n - 1) ≤ p then (p : Int) - 2 ^ n else p

/-- Bit `k` of `x`, "`floor(x / 2^k) mod 2`" (R131). -/
def intBit (x : Int) (k : Nat) : Bool := decide (x / 2 ^ k % 2 = 1)

/-- The magnitude digit characters denote, "`sum over i in 0 .. k-1 of e[i] * 10^(k-1-i)`" (R77). -/
def textMagnitude : List Byte → Nat
  | [] => 0
  | c :: cs => digitOfChar c * 10 ^ cs.length + textMagnitude cs

/-- `text` is accepted and denotes `x` (R76, R77): an optional single sign character, then one or more digit characters,
and nothing else. -/
def Denotes (text : List Byte) (x : Int) : Prop :=
  ∃ cs, cs ≠ [] ∧ cs.all isDigitChar = true ∧
    ((text = cs ∧ x = textMagnitude cs) ∨ (text = charPlus :: cs ∧ x = textMagnitude cs) ∨
      (text = charMinus :: cs ∧ x = -(textMagnitude cs : Int)))

/-- `text` is the canonical text of `x` (R81): "optional `-`, then digits with no leading zero (except the single digit
`0`)". -/
def CanonicalText (text : List Byte) (x : Int) : Prop :=
  ∃ cs, cs ≠ [] ∧ cs.all isDigitChar = true ∧ (cs.head? = some (charOfDigit 0) → cs = [charOfDigit 0]) ∧
    x.natAbs = textMagnitude cs ∧ text = (if x < 0 then [charMinus] else []) ++ cs

/-- The legal values of STATUS (R24): `FATAL = 0` with `ERR` in 0 .. 3, `FATAL = 1` with `ERR` in 8 .. 10, the reserved
bits zero. -/
abbrev StatusLegal (w : BitVec 32) : Prop :=
  w = 0x00#32 ∨ w = 0x01#32 ∨ w = 0x02#32 ∨ w = 0x03#32 ∨ w = 0x18#32 ∨ w = 0x19#32 ∨ w = 0x1A#32

/-- What holds of the state before and after every host action: admissible parameters; every valid register canonical
and within `NMAX` (R18, R20); a legal STATUS (R24); `DIN` and `DOUT` within `IW` bits (R25, R26); the text buffer's cells
in canonical form, none at `TMAX` or above (R28). -/
structure State.Inv (s : State) : Prop where
  cfg : s.cfg.Wf
  regs : ∀ i : RegId, s.Valid i → (s.reg i).num.Canonical s.cfg.B ∧ (s.reg i).num.size ≤ s.cfg.nmax
  status : StatusLegal s.status
  din : s.din < 2 ^ s.cfg.IW
  dout : s.dout < 2 ^ s.cfg.IW
  tb : Memory.wf s = true

end Sys2Proof.Machine
end

