-- ==== Sys2Proof/Certificates/Slice0/Obligations.lean ====
section
/-! DEFINITION. The statements about the block, for the provers. Each docstring names the rule it formalises. Where a
statement rests on a convention of the model's own, it says so. -/

open Sys2Proof Sys2Proof.Machine

/-! ## Reset, the host, and the command port -/

/-- R33: every `V` bit 0 and every register unreadable (a command that names one as a source raises UNINIT), `STATUS`,
`DIN`, `DOUT`, `TLEN` zero, and the bytes of `TB` whatever byte array the parameter of the reset state says, for every
build. -/
def Obligations.ResetState : Prop :=
  ∀ c : Config, (∀ i : RegId, ¬ (State.resetOf c).Valid i) ∧
    (∀ i : Instr, i.wf = true → i.sources ≠ [] →
      exec i (State.resetOf c) = .next ((State.resetOf c).raise .uninit)) ∧
    (State.resetOf c).status = 0#32 ∧
    (State.resetOf c).din = 0 ∧ (State.resetOf c).dout = 0 ∧ (State.resetOf c).tlen = 0#32 ∧
    (State.resetOf c).Running ∧
    ∀ (bytes : List Byte) (k : Nat) (h : k < bytes.length),
      (State.resetOf { c with tbReset := bytes }).text k = bytes[k]

/-- The invariant of the reachable states holds after reset (10_state R18, R24-R28): in every admissible build, and at
`State.reset`, which is the build CFG32 (the model's choice, log entry 1). -/
def Obligations.ResetInvariant : Prop := (∀ c : Config, c.Wf → (State.resetOf c).Inv) ∧ State.reset.Inv

/-- Command words written out in 30_encoding R60 and R54, and the all-zero word of R55. -/
def Obligations.DecodeWords : Prop :=
  decode 0x10201000#32 = .ok (.add 2 0 1) ∧ decode 0x01100000#32 = .ok (.fromint 1) ∧
    decode 0x04020000#32 = .ok (.todec 2) ∧ decode 0x14201300#32 = .ok (.divrem 2 3 0 1) ∧
    decode 0x20550000#32 = .ok (.bitNot 5 5) ∧ decode 0x05730000#32 = .ok (.mov 7 3) ∧
    decode 0x00000000#32 = .error .unknownOpcode

/-- R55: which words the decoder refuses, and that such a word raises ILLEGAL, changes nothing but `STATUS` and leaves
the block ready for the next command. -/
def Obligations.IllegalWords : Prop :=
  ∀ w : CommandWord, ((∃ c, decode w = .error c) ↔ IllegalWord w) ∧
    ∀ s : State, s.Running → IllegalWord w →
      issueCommand w s = .next (s.raise .illegal) ∧ (s.raise .illegal).Running ∧
        s.raise .illegal = { s with status := (s.raise .illegal).status }

/-- A step runs the decoded command (10_state R29, 30_encoding R58): the host's next action is taken off the list, and
`exec` runs the command; so too for a word placed by `withFetchWord`. -/
def Obligations.StepRunsCommand : Prop :=
  (∀ (s : State) (w : CommandWord) (rest : List HostAction) (i : Instr),
    s.pending = .writeCmd w :: rest → s.Running → decode w = .ok i → step s = exec i (s.taking rest)) ∧
  ∀ (s : State) (nbits w : Nat) (i : Instr), decodeTableWord nbits w = some i → s.Running →
    step (s.withFetchWord nbits w) = exec i (s.taking s.pending)

/-- R150: a halted block ignores every command word, keeps everything under every host action but reset save what the
host writes, still stores and still reads, and leaves the halted state by reset alone. -/
def Obligations.HaltedState : Prop :=
  ∀ s : State, s.halted = true →
    (∀ w : CommandWord, perform (.writeCmd w) s = .next s) ∧
    (∀ (a : HostAction) (t : State), a ≠ .reset → perform a s = .next t →
      t.halted = true ∧ t.status = s.status ∧ t.regs = s.regs ∧ t.dout = s.dout) ∧
    (∀ v, v < 2 ^ s.cfg.IW → perform (.writeDin v) s = .next { s with din := v }) ∧
    (∀ v, perform (.writeTlen v) s = .next { s with tlen := v }) ∧
    (∀ k b, k < s.cfg.tmax → perform (.writeTb k b) s = .next (s.setText k b)) ∧
    perform (.read .status) s = .next { s with hostGot := some s.status.toNat } ∧
    perform (.read .din) s = .next { s with hostGot := some s.din } ∧
    perform (.read .dout) s = .next { s with hostGot := some s.dout } ∧
    perform (.read .tlen) s = .next { s with hostGot := some s.tlen.toNat } ∧
    (∀ k, k < s.cfg.tmax → perform (.read (.tb k)) s = .next { s with hostGot := some (s.text k).toNat }) ∧
    ∃ t, perform .reset s = .next t ∧ t.Running

/-- R159: the reset action replaces the whole state of the block by the reset state, whatever the state was, and no other
host action leaves the halted state. -/
def Obligations.ResetAction : Prop :=
  (∀ (s : State) (rest : List HostAction), s.pending = .reset :: rest →
    step s = .next { State.resetOf s.cfg with pending := rest }) ∧
  ∀ (s t : State) (a : HostAction), s.halted = true → perform a s = .next t → t.Running → a = .reset

/-- R172: every move of the host table, its effect on the block and what the host gets. -/
def Obligations.HostTable : Prop :=
  ∀ s : State,
    perform .reset s = .next { State.resetOf s.cfg with pending := s.pending } ∧
    (∀ w, s.halted = true → perform (.writeCmd w) s = .next s) ∧
    (∀ w i, s.Running → decode w = .ok i → perform (.writeCmd w) s = exec i s) ∧
    (∀ w c, s.Running → decode w = .error c → perform (.writeCmd w) s = .next (s.raise .illegal)) ∧
    (∀ v, v < 2 ^ s.cfg.IW → perform (.writeDin v) s = .next { s with din := v }) ∧
    (∀ v, perform (.writeTlen v) s = .next { s with tlen := v }) ∧
    (∀ k b, k < s.cfg.tmax → Memory.wf s = true →
      ∃ t, perform (.writeTb k b) s = .next t ∧ t = { s with tb := t.tb } ∧ t.text k = b ∧
        ∀ j, j ≠ k → t.text j = s.text j) ∧
    (∀ v, perform (.writeStatus v) s = .next s) ∧ (∀ v, perform (.writeDout v) s = .next s) ∧
    perform (.read .status) s = .next { s with hostGot := some s.status.toNat } ∧
    perform (.read .din) s = .next { s with hostGot := some s.din } ∧
    perform (.read .dout) s = .next { s with hostGot := some s.dout } ∧
    perform (.read .tlen) s = .next { s with hostGot := some s.tlen.toNat } ∧
    perform (.read .cmd) s = .next { s with hostGot := some 0 } ∧
    ∀ k, k < s.cfg.tmax → perform (.read (.tb k)) s = .next { s with hostGot := some (s.text k).toNat }

/-- The model's own conventions: a host access to `TB[k]` with `k >= TMAX` stops the run (93 U13, log entry 8), and with
no host action left a step changes nothing (log entry 2). -/
def Obligations.ModelStops : Prop :=
  ∀ s : State,
    (∀ k b, s.cfg.tmax ≤ k → perform (.writeTb k b) s = .fault (.textIndexOutOfRange k)) ∧
    (∀ k, s.cfg.tmax ≤ k → perform (.read (.tb k)) s = .fault (.textIndexOutOfRange k)) ∧
    (s.pending = [] → step s = .next s)

/-! ## Errors and STATUS -/

/-- R148: a recoverable error changes `STATUS.ERR` and nothing else; the block keeps running. -/
def Obligations.RecoverableEffect : Prop :=
  ∀ s : State, s.Running →
    (errField (s.raise .illegal).status = 1#4 ∧ errField (s.raise .alloc).status = 2#4 ∧
      errField (s.raise .parse).status = 3#4) ∧
    ∀ e : ErrCode, e = .illegal ∨ e = .alloc ∨ e = .parse →
      s.raise e = { s with status := (s.raise e).status } ∧ (s.raise e).Running ∧
        ∀ b, 4 ≤ b → b < 32 → (s.raise e).status.getLsbD b = s.status.getLsbD b

/-- R149: a fatal error changes `STATUS.ERR` and `STATUS.FATAL` and nothing else; the block is halted. -/
def Obligations.FatalEffect : Prop :=
  ∀ s : State,
    (errField (s.raise .divzero).status = 8#4 ∧ errField (s.raise .invariant).status = 9#4 ∧
      errField (s.raise .uninit).status = 10#4) ∧
    ∀ e : ErrCode, e = .divzero ∨ e = .invariant ∨ e = .uninit →
      s.raise e = { s with status := (s.raise e).status } ∧ (s.raise e).halted = true ∧
        fatalField (s.raise e).status = true ∧
        ∀ b, 5 ≤ b → b < 32 → (s.raise e).status.getLsbD b = s.status.getLsbD b

/-- R152: a command either raises an error or sets `STATUS.ERR` to 0 and leaves every other bit of STATUS, so that STATUS
describes the last command alone. -/
def Obligations.SuccessStatus : Prop :=
  ∀ (i : Instr) (s t : State), exec i s = .next t →
    (∃ e, t = s.raise e) ∨
      (errField t.status = 0#4 ∧ ∀ b, 4 ≤ b → b < 32 → t.status.getLsbD b = s.status.getLsbD b)

/-- 60_exceptions R140, R142, R145: the errors a command can raise are those the table gives it, and otherwise STATUS is
0 after it. -/
def Obligations.RaisedErrors : Prop :=
  ∀ (i : Instr) (s t : State), i.wf = true → s.Inv → s.Running → exec i s = .next t →
    t.status = 0#32 ∨ ∃ e ∈ raisable i, t = s.raise e

/-- R146: a source register that holds no Number raises UNINIT, and nothing else does: a destination register is never
checked. -/
def Obligations.UninitSource : Prop :=
  ∀ (i : Instr) (s : State), i.wf = true →
    (∀ r ∈ i.sources, ¬ s.Valid r → exec i s = .next (s.raise .uninit)) ∧
    ((∀ r ∈ i.sources, s.Valid r) → exec i s ≠ .next (s.raise .uninit))

/-- 60_exceptions R151 (0) to (3): halted before ILLEGAL, which the word alone decides, before UNINIT, before DIVZERO and
PARSE. INVARIANT and ALLOC, the last two, are in the statements of each command. -/
def Obligations.ErrorOrder : Prop :=
  ∀ (w : CommandWord) (s : State), s.Inv →
    (s.halted = true → issueCommand w s = .next s) ∧
    (s.Running → IllegalWord w → issueCommand w s = .next (s.raise .illegal)) ∧
    (s.Running → ∀ i : Instr, decode w = .ok i →
      ((∃ r ∈ i.sources, ¬ s.Valid r) → issueCommand w s = .next (s.raise .uninit)) ∧
      ((∀ r ∈ i.sources, s.Valid r) →
        (∀ rd ra rb, i = .div rd ra rb → s.value rb = 0 → issueCommand w s = .next (s.raise .divzero)) ∧
        (∀ rd rr ra rb, i = .divrem rd rr ra rb → s.value rb = 0 → issueCommand w s = .next (s.raise .divzero)) ∧
        (∀ rd, i = .fromdec rd → (∀ text x, s.HoldsText text → text.length ≤ s.cfg.tmax → ¬ Denotes text x) →
          issueCommand w s = .next (s.raise .parse))))

/-- 60_exceptions R147, R155: where a command leaves an error code, it has changed nothing but STATUS. -/
def Obligations.ErrorsArePrecise : Prop :=
  ∀ (i : Instr) (s t : State), exec i s = .next t → errField t.status ≠ 0#4 →
    t = { s with status := t.status }

/-- 70_reset_and_hazards R169, 20_memory R42: every command completes, in one step, in every state. -/
def Obligations.EveryCommandCompletes : Prop := ∀ (i : Instr) (s : State), ∃ t, exec i s = .next t

/-! ## Numbers and parameters -/

/-- R6: the chunk length for each digit width, and that `10^D` fits in one digit and `10^(D+1)` does not. -/
def Obligations.ChunkLength : Prop :=
  ∀ c : Config, ((c.W = 32 ∧ c.D = 9) ∨ (c.W = 16 ∧ c.D = 4)) ∧ 10 ^ c.D < c.B ∧ c.B ≤ 10 ^ (c.D + 1)

/-- R66: the canonical Number of an integer exists, is unique, is what `canon` yields, and has `ndig` digits. -/
def Obligations.CanonicalNumber : Prop :=
  ∀ (c : Config) (x : Int),
    (num c.B x).Canonical c.B ∧ (num c.B x).value c.B = x ∧
    (∀ n : Number, n.Canonical c.B → n.value c.B = x → n = num c.B x) ∧
    (∀ n : Number, (∀ d ∈ n.digits, d < c.B) → n.sign.cpl = false → n.value c.B = x → canon n = num c.B x) ∧
    ((num c.B x).sign = .negative ↔ x < 0) ∧
    (num c.B x).size = (if x = 0 then 1 else Nat.log c.B x.natAbs + 1)

/-! ## What each command does -/

/-- R71. -/
def Obligations.FromintCommand : Prop :=
  IssuesAs 0x01#8 0x000FFFFF#32 (fun w => .fromint (rdField w)) ∧
  ∀ (rd : RegId) (s : State), s.Inv → s.Running →
    exec (.fromint rd) s = .next (s.setNum rd (num s.cfg.B (signedPattern s.cfg.IW s.din))).succeed

/-- R73. -/
def Obligations.TointCommand : Prop :=
  IssuesAs 0x03#8 0x00F0FFFF#32 (fun w => .toint (raField w)) ∧
  ∀ (ra : RegId) (s : State), s.Inv → s.Running →
    (s.Valid ra → exec (.toint ra) s = .next (s.setDout (s.value ra % 2 ^ s.cfg.IW).toNat).succeed ∧
      (signedPattern s.cfg.IW (s.value ra % 2 ^ s.cfg.IW).toNat = s.value ra ↔
        -(2 ^ (s.cfg.IW - 1)) ≤ s.value ra ∧ s.value ra < 2 ^ (s.cfg.IW - 1))) ∧
    (¬ s.Valid ra → exec (.toint ra) s = .next (s.raise .uninit))

/-- R75, with the accepted texts and their values of R76 and R77. -/
def Obligations.FromdecCommand : Prop :=
  IssuesAs 0x02#8 0x000FFFFF#32 (fun w => .fromdec (rdField w)) ∧
  ∀ (rd : RegId) (s : State), s.Inv → s.Running →
    (∀ (text : List Byte) (x : Int), s.HoldsText text → text.length ≤ s.cfg.tmax → Denotes text x →
      (s.Fits x → exec (.fromdec rd) s = .next (s.setNum rd (num s.cfg.B x)).succeed) ∧
      (¬ s.Fits x → exec (.fromdec rd) s = .next (s.raise .alloc))) ∧
    ((∀ (text : List Byte) (x : Int), s.HoldsText text → text.length ≤ s.cfg.tmax → ¬ Denotes text x) →
      exec (.fromdec rd) s = .next (s.raise .parse))

/-- R80, with the text of R81. -/
def Obligations.TodecCommand : Prop :=
  IssuesAs 0x04#8 0x00F0FFFF#32 (fun w => .todec (raField w)) ∧
  ∀ (ra : RegId) (s : State), s.Inv → s.Running →
    (s.Valid ra → ∀ text : List Byte, CanonicalText text (s.value ra) →
      (text.length ≤ s.cfg.tmax → ∃ t, exec (.todec ra) s = .next t ∧ t.HoldsText text ∧ t.status = 0#32 ∧
        t = { s with tb := t.tb, tlen := t.tlen, status := t.status } ∧
        ∀ k, text.length ≤ k → t.text k = s.text k) ∧
      (s.cfg.tmax < text.length → exec (.todec ra) s = .next (s.raise .alloc))) ∧
    (¬ s.Valid ra → exec (.todec ra) s = .next (s.raise .uninit))

/-- R70. -/
def Obligations.MovCommand : Prop :=
  IssuesAs 0x05#8 0x0000FFFF#32 (fun w => .mov (rdField w) (raField w)) ∧
  ∀ (rd ra : RegId) (s : State), s.Inv → s.Running →
    (s.Valid ra → exec (.mov rd ra) s = .next (s.setNum rd (s.reg ra).num).succeed) ∧
    (¬ s.Valid ra → exec (.mov rd ra) s = .next (s.raise .uninit))

/-- R93. -/
def Obligations.AddCommand : Prop :=
  IssuesAs 0x10#8 0x00000FFF#32 (fun w => .add (rdField w) (raField w) (rbField w)) ∧
  ∀ (rd ra rb : RegId) (s : State), s.Inv → s.Running →
    (s.Valid ra → s.Valid rb → s.Fits (s.value ra + s.value rb) →
      exec (.add rd ra rb) s = .next (s.setNum rd (num s.cfg.B (s.value ra + s.value rb))).succeed) ∧
    (s.Valid ra → s.Valid rb → ¬ s.Fits (s.value ra + s.value rb) →
      exec (.add rd ra rb) s = .next (s.raise .alloc)) ∧
    (¬ s.Valid ra ∨ ¬ s.Valid rb → exec (.add rd ra rb) s = .next (s.raise .uninit))

/-- R94. -/
def Obligations.SubCommand : Prop :=
  IssuesAs 0x11#8 0x00000FFF#32 (fun w => .sub (rdField w) (raField w) (rbField w)) ∧
  ∀ (rd ra rb : RegId) (s : State), s.Inv → s.Running →
    (s.Valid ra → s.Valid rb → s.Fits (s.value ra - s.value rb) →
      exec (.sub rd ra rb) s = .next (s.setNum rd (num s.cfg.B (s.value ra - s.value rb))).succeed) ∧
    (s.Valid ra → s.Valid rb → ¬ s.Fits (s.value ra - s.value rb) →
      exec (.sub rd ra rb) s = .next (s.raise .alloc)) ∧
    (¬ s.Valid ra ∨ ¬ s.Valid rb → exec (.sub rd ra rb) s = .next (s.raise .uninit))

/-- R100. -/
def Obligations.MulCommand : Prop :=
  IssuesAs 0x12#8 0x00000FFF#32 (fun w => .mul (rdField w) (raField w) (rbField w)) ∧
  ∀ (rd ra rb : RegId) (s : State), s.Inv → s.Running →
    (s.Valid ra → s.Valid rb → s.Fits (s.value ra * s.value rb) →
      exec (.mul rd ra rb) s = .next (s.setNum rd (num s.cfg.B (s.value ra * s.value rb))).succeed) ∧
    (s.Valid ra → s.Valid rb → ¬ s.Fits (s.value ra * s.value rb) →
      exec (.mul rd ra rb) s = .next (s.raise .alloc)) ∧
    (¬ s.Valid ra ∨ ¬ s.Valid rb → exec (.mul rd ra rb) s = .next (s.raise .uninit))

/-- R120, with the quotient of R117 (truncated toward zero). -/
def Obligations.DivCommand : Prop :=
  IssuesAs 0x13#8 0x00000FFF#32 (fun w => .div (rdField w) (raField w) (rbField w)) ∧
  ∀ (rd ra rb : RegId) (s : State), s.Inv → s.Running →
    (s.Valid ra → s.Valid rb → s.value rb ≠ 0 →
      exec (.div rd ra rb) s = .next (s.setNum rd (num s.cfg.B (Int.tdiv (s.value ra) (s.value rb)))).succeed) ∧
    (s.Valid ra → s.Valid rb → s.value rb = 0 → exec (.div rd ra rb) s = .next (s.raise .divzero)) ∧
    (¬ s.Valid ra ∨ ¬ s.Valid rb → exec (.div rd ra rb) s = .next (s.raise .uninit))

/-- R121, with the quotient and the remainder of R117. -/
def Obligations.DivremCommand : Prop :=
  IssuesAs 0x14#8 0x000000FF#32 (fun w => .divrem (rdField w) (rrField w) (raField w) (rbField w)) ∧
  ∀ (rd rr ra rb : RegId) (s : State), s.Inv → s.Running →
    (rd ≠ rr → s.Valid ra → s.Valid rb → s.value rb ≠ 0 →
      exec (.divrem rd rr ra rb) s =
        .next ((s.setNum rd (num s.cfg.B (Int.tdiv (s.value ra) (s.value rb)))).setNum rr
          (num s.cfg.B (Int.tmod (s.value ra) (s.value rb)))).succeed) ∧
    (rd ≠ rr → s.Valid ra → s.Valid rb → s.value rb = 0 →
      exec (.divrem rd rr ra rb) s = .next (s.raise .divzero)) ∧
    (rd ≠ rr → ¬ s.Valid ra ∨ ¬ s.Valid rb → exec (.divrem rd rr ra rb) s = .next (s.raise .uninit)) ∧
    (rd = rr → exec (.divrem rd rr ra rb) s = .next (s.raise .illegal))

/-- R133. -/
def Obligations.NotCommand : Prop :=
  IssuesAs 0x20#8 0x0000FFFF#32 (fun w => .bitNot (rdField w) (raField w)) ∧
  ∀ (rd ra : RegId) (s : State), s.Inv → s.Running →
    (s.Valid ra → s.Fits (-(s.value ra + 1)) →
      exec (.bitNot rd ra) s = .next (s.setNum rd (num s.cfg.B (-(s.value ra + 1)))).succeed) ∧
    (s.Valid ra → ¬ s.Fits (-(s.value ra + 1)) → exec (.bitNot rd ra) s = .next (s.raise .alloc)) ∧
    (¬ s.Valid ra → exec (.bitNot rd ra) s = .next (s.raise .uninit))

/-- R134, with the bits of R131; OR never raises ALLOC. -/
def Obligations.OrCommand : Prop :=
  IssuesAs 0x21#8 0x00000FFF#32 (fun w => .bitOr (rdField w) (raField w) (rbField w)) ∧
  ∀ (rd ra rb : RegId) (s : State), s.Inv → s.Running →
    (s.Valid ra → s.Valid rb → ∃ z : Int,
      (∀ k, intBit z k = (intBit (s.value ra) k || intBit (s.value rb) k)) ∧
      (z < 0 ↔ s.value ra < 0 ∨ s.value rb < 0) ∧
      exec (.bitOr rd ra rb) s = .next (s.setNum rd (num s.cfg.B z)).succeed) ∧
    (¬ s.Valid ra ∨ ¬ s.Valid rb → exec (.bitOr rd ra rb) s = .next (s.raise .uninit))

/-- R135, with the bits of R131. -/
def Obligations.XorCommand : Prop :=
  IssuesAs 0x22#8 0x00000FFF#32 (fun w => .bitXor (rdField w) (raField w) (rbField w)) ∧
  ∀ (rd ra rb : RegId) (s : State), s.Inv → s.Running →
    (s.Valid ra → s.Valid rb → ∃ z : Int,
      (∀ k, intBit z k = (intBit (s.value ra) k ^^ intBit (s.value rb) k)) ∧
      (z < 0 ↔ ¬ (s.value ra < 0 ↔ s.value rb < 0)) ∧
      (s.Fits z → exec (.bitXor rd ra rb) s = .next (s.setNum rd (num s.cfg.B z)).succeed) ∧
      (¬ s.Fits z → exec (.bitXor rd ra rb) s = .next (s.raise .alloc))) ∧
    (¬ s.Valid ra ∨ ¬ s.Valid rb → exec (.bitXor rd ra rb) s = .next (s.raise .uninit))

/-- R136, with the bits of R131. -/
def Obligations.AndCommand : Prop :=
  IssuesAs 0x23#8 0x00000FFF#32 (fun w => .bitAnd (rdField w) (raField w) (rbField w)) ∧
  ∀ (rd ra rb : RegId) (s : State), s.Inv → s.Running →
    (s.Valid ra → s.Valid rb → ∃ z : Int,
      (∀ k, intBit z k = (intBit (s.value ra) k && intBit (s.value rb) k)) ∧
      (z < 0 ↔ s.value ra < 0 ∧ s.value rb < 0) ∧
      (s.Fits z → exec (.bitAnd rd ra rb) s = .next (s.setNum rd (num s.cfg.B z)).succeed) ∧
      (¬ s.Fits z → exec (.bitAnd rd ra rb) s = .next (s.raise .alloc))) ∧
    (¬ s.Valid ra ∨ ¬ s.Valid rb → exec (.bitAnd rd ra rb) s = .next (s.raise .uninit))

/-! ## What each command leaves unchanged -/

/-- The frame of the twelve commands that write Number registers (10_state R22): FROMINT, FROMDEC, MOV, ADD, SUB, MUL, DIV,
DIVREM, NOT, OR, XOR, AND. Every register but the destinations, every port, every byte of `TB` and the reserved bits of
STATUS keep their values, and `FATAL` is set only together with a fatal code. -/
def Obligations.FrameRegisterCommands : Prop :=
  ∀ (i : Instr) (s t : State), i.dests ≠ [] → exec i s = .next t →
    (∀ r, r ∉ i.dests → t.reg r = s.reg r) ∧
    t.cfg = s.cfg ∧ t.din = s.din ∧ t.dout = s.dout ∧ t.tlen = s.tlen ∧ t.pending = s.pending ∧
    t.hostGot = s.hostGot ∧ (∀ k, t.text k = s.text k) ∧
    (∀ b, 5 ≤ b → b < 32 → t.status.getLsbD b = s.status.getLsbD b) ∧
    (fatalField t.status ≠ fatalField s.status →
      fatalField t.status = true ∧ errField t.status ∈ [8#4, 9#4, 10#4])

/-- The frame of TOINT (41_construction_conversion R73, 10_state R22): it writes `DOUT` and STATUS alone. -/
def Obligations.FrameToint : Prop :=
  ∀ (ra : RegId) (s t : State), exec (.toint ra) s = .next t →
    (∀ r, t.reg r = s.reg r) ∧ t.cfg = s.cfg ∧ t.din = s.din ∧ t.tlen = s.tlen ∧ t.pending = s.pending ∧
    t.hostGot = s.hostGot ∧ (∀ k, t.text k = s.text k) ∧
    (∀ b, 5 ≤ b → b < 32 → t.status.getLsbD b = s.status.getLsbD b) ∧
    (fatalField t.status ≠ fatalField s.status → fatalField t.status = true ∧ errField t.status = 10#4)

/-- The frame of TODEC (41_construction_conversion R80, 10_state R22, R28): it writes `TB[0 .. n-1]` for the `n` bytes of
its text, `TLEN` and STATUS alone, so every byte at `n` or above reads as before. -/
def Obligations.FrameTodec : Prop :=
  ∀ (ra : RegId) (s t : State), exec (.todec ra) s = .next t →
    (∀ k, (decimalText s.cfg (s.reg ra).num).length ≤ k → t.text k = s.text k) ∧
    (∀ r, t.reg r = s.reg r) ∧ t.cfg = s.cfg ∧ t.din = s.din ∧ t.dout = s.dout ∧ t.pending = s.pending ∧
    t.hostGot = s.hostGot ∧
    (∀ b, 5 ≤ b → b < 32 → t.status.getLsbD b = s.status.getLsbD b) ∧
    (fatalField t.status ≠ fatalField s.status → fatalField t.status = true ∧ errField t.status = 10#4)

/-! ## Laws and capacity -/

/-- R95: additive identity, inverse, commutativity, and that every sum and difference written is canonical. -/
def Obligations.AddLaws : Prop :=
  ∀ (rd ra rb : RegId) (s : State), s.Inv → s.Running →
    (s.Valid ra → s.Valid rb → s.value rb = 0 →
      exec (.add rd ra rb) s = .next (s.setNum rd (s.reg ra).num).succeed) ∧
    (s.Valid ra → exec (.sub rd ra ra) s = .next (s.setNum rd { sign := .positive, digits := [0] }).succeed) ∧
    exec (.add rd ra rb) s = exec (.add rd rb ra) s ∧
    ∀ t : State, exec (.add rd ra rb) s = .next t ∨ exec (.sub rd ra rb) s = .next t → t.status = 0#32 →
      t.Valid rd ∧ (t.reg rd).num.Canonical s.cfg.B

/-- R96: where ADD and SUB raise ALLOC, and the digit counts of their results, by the signs of the operands. The last
clause is the carry out of digit `NMAX - 1`: the magnitudes of two operands of which one is full sum to `B^NMAX` or more. -/
def Obligations.AddSubCapacity : Prop :=
  ∀ (rd ra rb : RegId) (s : State), s.Inv → s.Running → s.Valid ra → s.Valid rb →
    let m := max (s.reg ra).num.size (s.reg rb).num.size
    let sum := (num s.cfg.B (s.value ra + s.value rb)).size
    let difference := (num s.cfg.B (s.value ra - s.value rb)).size
    ((s.reg ra).num.sign = (s.reg rb).num.sign →
      (sum = m ∨ sum = m + 1) ∧ difference ≤ m ∧ exec (.sub rd ra rb) s ≠ .next (s.raise .alloc)) ∧
    ((s.reg ra).num.sign ≠ (s.reg rb).num.sign →
      (difference = m ∨ difference = m + 1) ∧ sum ≤ m ∧ exec (.add rd ra rb) s ≠ .next (s.raise .alloc)) ∧
    (exec (.add rd ra rb) s = .next (s.raise .alloc) ↔ sum = s.cfg.nmax + 1) ∧
    (exec (.sub rd ra rb) s = .next (s.raise .alloc) ↔ difference = s.cfg.nmax + 1) ∧
    (sum = s.cfg.nmax + 1 ∨ difference = s.cfg.nmax + 1 →
      m = s.cfg.nmax ∧ s.cfg.B ^ s.cfg.nmax ≤ (s.value ra).natAbs + (s.value rb).natAbs)

/-- 43_multiply R101 (i): multiplication commutes, in every state that meets the invariant. -/
def Obligations.MulCommutes : Prop :=
  ∀ (rd ra rb : RegId) (s : State), s.Inv → s.Running → exec (.mul rd ra rb) s = exec (.mul rd rb ra) s

/-- R102: when MUL raises ALLOC, by the digit counts of the operands. -/
def Obligations.MulCapacity : Prop :=
  ∀ (rd ra rb : RegId) (s : State), s.Inv → s.Running → s.Valid ra → s.Valid rb →
    let la := (s.reg ra).num.size
    let lb := (s.reg rb).num.size
    let product := (num s.cfg.B (s.value ra * s.value rb)).size
    let p := mulMagnitude s.cfg.B (s.reg ra).num.digits (s.reg rb).num.digits
    (exec (.mul rd ra rb) s = .next (s.raise .alloc) ↔ s.cfg.nmax < product) ∧
    (exec (.mul rd ra rb) s = .next (s.raise .alloc) ↔ exec (.mul rd rb ra) s = .next (s.raise .alloc)) ∧
    (la + lb ≤ s.cfg.nmax → exec (.mul rd ra rb) s ≠ .next (s.raise .alloc)) ∧
    (s.value ra ≠ 0 → s.value rb ≠ 0 →
      (product = la + lb - 1 ∨ product = la + lb) ∧
      (s.cfg.nmax < la + lb - 1 → exec (.mul rd ra rb) s = .next (s.raise .alloc)) ∧
      (la + lb = s.cfg.nmax + 1 →
        (exec (.mul rd ra rb) s = .next (s.raise .alloc) ↔ p.getD (la + lb - 1) 0 ≠ 0))) ∧
    (s.value ra = 0 ∨ s.value rb = 0 → product = 1 ∧ exec (.mul rd ra rb) s ≠ .next (s.raise .alloc))

/-- R122: the division contract, with DIVREM, MUL and ADD run one after the other, and the quotient of DIV. -/
def Obligations.DivisionContract : Prop :=
  ∀ (q r a b x : RegId) (s : State), s.Inv → s.Running → s.Valid a → s.Valid b → s.value b ≠ 0 →
    q ≠ r → b ≠ q → b ≠ r → x ≠ r →
    ∃ s₁ s₂ s₃ u : State, exec (.divrem q r a b) s = .next s₁ ∧ exec (.mul x q b) s₁ = .next s₂ ∧
      exec (.add x x r) s₂ = .next s₃ ∧ s₃.status = 0#32 ∧ s₃.reg x = s.reg a ∧
      (s₁.value r).natAbs < (s.value b).natAbs ∧ (s₁.value r = 0 ∨ (s₁.value r < 0 ↔ s.value a < 0)) ∧
      exec (.div q a b) s = .next u ∧ u.reg q = s₁.reg q ∧
      (s₁.reg q).num.Canonical s.cfg.B ∧ (s₁.reg r).num.Canonical s.cfg.B

/-- R137: complement involution, the five vectors, canonical results, and commutativity of OR, XOR and AND. -/
def Obligations.BitwiseLaws : Prop :=
  ∀ (rd ra rb : RegId) (s : State), s.Inv → s.Running →
    (s.Valid ra → ∀ t u : State, exec (.bitNot rd ra) s = .next t → t.status = 0#32 →
      exec (.bitNot rd rd) t = .next u → u.status = 0#32 → u.reg rd = s.reg ra) ∧
    (∀ p ∈ [((0 : Int), (-1 : Int)), (-1, 0), (2 ^ (s.cfg.IW - 1) - 1, -(2 ^ (s.cfg.IW - 1))), (65535, -65536),
        (-65535, 65534)], s.Valid ra → s.value ra = p.1 →
      exec (.bitNot rd ra) s = .next (s.setNum rd (num s.cfg.B p.2)).succeed) ∧
    (∀ t : State, exec (.bitNot rd ra) s = .next t ∨ exec (.bitOr rd ra rb) s = .next t ∨
        exec (.bitXor rd ra rb) s = .next t ∨ exec (.bitAnd rd ra rb) s = .next t → t.status = 0#32 →
      t.Valid rd ∧ (t.reg rd).num.Canonical s.cfg.B) ∧
    exec (.bitOr rd ra rb) s = exec (.bitOr rd rb ra) s ∧ exec (.bitXor rd ra rb) s = exec (.bitXor rd rb ra) s ∧
    exec (.bitAnd rd ra rb) s = exec (.bitAnd rd rb ra) s

/-- R138. With `n` the size of `ra` (NOT's `m`) and `m` the larger size: the range of operands and results, the one result
that needs a digit more, which commands can give it and from which operands, and so when each raises ALLOC. -/
def Obligations.BitwiseCapacity : Prop :=
  ∀ (rd ra rb : RegId) (s : State), s.Inv → s.Running → s.Valid ra → s.Valid rb →
    let x := s.value ra
    let y := s.value rb
    let B : Int := s.cfg.B
    let n := (s.reg ra).num.size
    let m := max n (s.reg rb).num.size
    (-(B ^ n) < x ∧ x < B ^ n ∧ -(B ^ m) < x ∧ x < B ^ m ∧ -(B ^ m) < y ∧ y < B ^ m) ∧
    (-(B ^ n) ≤ -(x + 1) ∧ -(x + 1) < B ^ n ∧ (-(x + 1) = -(B ^ n) ↔ x = B ^ n - 1)) ∧
    (∀ k z, 1 ≤ k → -(B ^ k) ≤ z → z < B ^ k →
      if z = -(B ^ k) then (num s.cfg.B z).size = k + 1 else (num s.cfg.B z).size ≤ k) ∧
    (∀ z, (∀ k, intBit z k = (intBit x k && intBit y k)) →
      -(B ^ m) ≤ z ∧ z < B ^ m ∧ (z = -(B ^ m) → x < 0 ∧ y < 0) ∧
      (exec (.bitAnd rd ra rb) s = .next (s.raise .alloc) ↔ z = -(B ^ s.cfg.nmax))) ∧
    (∀ z, (∀ k, intBit z k = (intBit x k ^^ intBit y k)) →
      -(B ^ m) ≤ z ∧ z < B ^ m ∧ (z = -(B ^ m) → ¬ (x < 0 ↔ y < 0)) ∧
      (exec (.bitXor rd ra rb) s = .next (s.raise .alloc) ↔ z = -(B ^ s.cfg.nmax))) ∧
    (∀ z, (∀ k, intBit z k = (intBit x k || intBit y k)) → -(B ^ m) < z ∧ z < B ^ m) ∧
    (exec (.bitNot rd ra) s = .next (s.raise .alloc) ↔ -(x + 1) = -(B ^ s.cfg.nmax)) ∧
    exec (.bitOr rd ra rb) s ≠ .next (s.raise .alloc) ∧
    (n < s.cfg.nmax → exec (.bitNot rd ra) s ≠ .next (s.raise .alloc)) ∧
    (m < s.cfg.nmax →
      exec (.bitAnd rd ra rb) s ≠ .next (s.raise .alloc) ∧ exec (.bitXor rd ra rb) s ≠ .next (s.raise .alloc))

/-- 45_bitwise R131, R134-R136: OR, XOR and AND with 0 and with -1. -/
def Obligations.BitwiseIdentities : Prop :=
  ∀ (rd ra rb : RegId) (s : State), s.Inv → s.Running → s.Valid ra → s.Valid rb →
    (s.value rb = 0 →
      exec (.bitOr rd ra rb) s = .next (s.setNum rd (s.reg ra).num).succeed ∧
      exec (.bitXor rd ra rb) s = .next (s.setNum rd (s.reg ra).num).succeed ∧
      exec (.bitAnd rd ra rb) s = .next (s.setNum rd { sign := .positive, digits := [0] }).succeed) ∧
    (s.value rb = -1 →
      exec (.bitOr rd ra rb) s = .next (s.setNum rd { sign := .negative, digits := [1] }).succeed ∧
      exec (.bitXor rd ra rb) s = exec (.bitNot rd ra) s ∧
      exec (.bitAnd rd ra rb) s = .next (s.setNum rd (s.reg ra).num).succeed)

/-- R84: FROMDEC then TODEC leaves the canonical text, and TODEC then FROMDEC restores the Number. -/
def Obligations.TextRoundTrip : Prop :=
  (∀ (d : RegId) (s : State) (text canonical : List Byte) (x : Int), s.Inv → s.Running → s.HoldsText text →
    text.length ≤ s.cfg.tmax → Denotes text x → s.Fits x → CanonicalText canonical x →
    canonical.length ≤ s.cfg.tmax →
    ∃ t u : State, exec (.fromdec d) s = .next t ∧ exec (.todec d) t = .next u ∧ u.status = 0#32 ∧
      u.HoldsText canonical) ∧
  ∀ (a d : RegId) (s : State) (canonical : List Byte), s.Inv → s.Running → s.Valid a →
    CanonicalText canonical (s.value a) → canonical.length ≤ s.cfg.tmax →
    ∃ t u : State, exec (.todec a) s = .next t ∧ exec (.fromdec d) t = .next u ∧ u.status = 0#32 ∧
      u.reg d = s.reg a

/-- 41_construction_conversion R71, R73, 20_memory R40: FROMINT then TOINT gives back the pattern of `DIN`. -/
def Obligations.IntegerRoundTrip : Prop :=
  ∀ (d : RegId) (s : State), s.Inv → s.Running →
    ∃ t u : State, exec (.fromint d) s = .next t ∧ exec (.toint d) t = .next u ∧ u.status = 0#32 ∧ u.dout = s.din

/-- R81: every integer has exactly one canonical text, of the stated length. -/
def Obligations.CanonicalTextOfInteger : Prop :=
  ∀ x : Int, ∃ text : List Byte, CanonicalText text x ∧ (∀ text', CanonicalText text' x → text' = text) ∧
    (x = 0 → text = [0x30#8]) ∧
    (x ≠ 0 → text.length = (if x < 0 then 1 else 0) + (Nat.log 10 x.natAbs + 1))

/-! ## The whole machine -/

/-- 10_state R19: no host action but reset clears a valid bit. -/
def Obligations.ValidIsSticky : Prop :=
  ∀ (s t : State) (r : RegId), step s = .next t → s.Valid r → s.pending.head? ≠ some .reset → t.Valid r

/-- 10_state R31, R34: what a command does depends on the Number registers, `TB`, `TLEN` and `DIN` alone: not on the
earlier error code, not on `DOUT`. -/
def Obligations.NoHiddenInput : Prop :=
  ∀ (i : Instr) (s s' t t' : State), s.cfg = s'.cfg → s.regs = s'.regs → s.din = s'.din → s.tlen = s'.tlen →
    s.tb = s'.tb → exec i s = .next t → exec i s' = .next t' →
    t.regs = t'.regs ∧ t.tb = t'.tb ∧ t.tlen = t'.tlen ∧ errField t.status = errField t'.status ∧
      (t.dout = t'.dout ∨ (t.dout = s.dout ∧ t'.dout = s'.dout))

/-- 30_encoding R50-R54, R58: decoding an encoded command gives the command, for all 14 commands and every value of every
register field. -/
def Obligations.DecodeEncode : Prop := ∀ i : Instr, i.wf = true → decode (encode i) = .ok i

/-- 30_encoding R52, R57, R58: a word that decodes is the one word of its command, and the command is well formed. -/
def Obligations.EncodeDecode : Prop :=
  ∀ (w : CommandWord) (i : Instr), decode w = .ok i → i.wf = true ∧ encode i = w

/-- 10_state R18, R20, R24-R28: every step keeps the invariant, and the build parameters (R5). -/
def Obligations.StepKeepsInvariant : Prop :=
  ∀ s t : State, s.Inv → step s = .next t → t.Inv ∧ t.cfg = s.cfg
end

