-- ==== Sys2Proof/Laws/Digits.lean ====
section
/-! SUPPORT. What the digit store's functions do to the value of a sequence (R63-R66): resize, normalize, canon, num. -/

namespace Sys2Proof

theorem Config.two_le_B (c : Config) : 2 ≤ c.B := by
  unfold Config.B Config.W; cases c.digit <;> decide

namespace Machine

@[simp] theorem val_nil (B : Nat) : val B [] = 0 := rfl

@[simp] theorem val_cons (B d : Nat) (ds : Digits) : val B (d :: ds) = d + B * val B ds := rfl

theorem val_append (B : Nat) (a b : Digits) : val B (a ++ b) = val B a + B ^ a.length * val B b := by
  induction a with
  | nil => simp
  | cons d ds ih => simp only [List.cons_append, val_cons, ih, List.length_cons, pow_succ]; ring

theorem val_lt {B : Nat} {a : Digits} (h : ∀ d ∈ a, d < B) : val B a < B ^ a.length := by
  induction a with
  | nil => simp
  | cons d ds ih =>
    have hd : d < B := h d (by simp)
    have hds := ih (fun e he => h e (by simp [he]))
    calc val B (d :: ds) < B + B * val B ds := by simp [hd]
      _ = B * (val B ds + 1) := by ring
      _ ≤ B * B ^ ds.length := Nat.mul_le_mul_left _ hds
      _ = B ^ (d :: ds).length := by simp [pow_succ, mul_comm]

theorem val_inj {B : Nat} {a b : Digits} (ha : ∀ d ∈ a, d < B) (hb : ∀ d ∈ b, d < B)
    (hl : a.length = b.length) (hv : val B a = val B b) : a = b := by
  induction a generalizing b with
  | nil => simpa using hl.symm
  | cons d ds ih =>
    cases b with
    | nil => simp at hl
    | cons e es =>
      have hd : d < B := ha d (by simp)
      have he : e < B := hb e (by simp)
      have h1 : (d + B * val B ds) % B = (e + B * val B es) % B := congrArg (· % B) hv
      simp only [Nat.add_mul_mod_self_left, Nat.mod_eq_of_lt hd, Nat.mod_eq_of_lt he] at h1
      subst h1
      have h2 : val B ds = val B es := by
        have : B * val B ds = B * val B es := Nat.add_left_cancel (n := d) hv
        exact Nat.eq_of_mul_eq_mul_left (by omega) this
      rw [ih (fun x hx => ha x (by simp [hx])) (fun x hx => hb x (by simp [hx])) (by simpa using hl) h2]

@[simp] theorem length_resize (fill : Nat) (a : Digits) (n : Nat) : (resize fill a n).length = n := by
  induction n generalizing a with
  | zero => cases a <;> rfl
  | succ n ih => cases a <;> simp [resize, ih]

theorem resize_nil (fill : Nat) (n : Nat) : resize fill [] n = List.replicate n fill := by
  induction n with
  | zero => rfl
  | succ n ih => simp [resize, ih, List.replicate_succ]

theorem resize_eq_append (fill : Nat) (a : Digits) (n : Nat) (h : a.length ≤ n) :
    resize fill a n = a ++ List.replicate (n - a.length) fill := by
  induction a generalizing n with
  | nil => simp [resize_nil]
  | cons d ds ih =>
    cases n with
    | zero => simp at h
    | succ n => simp [resize, ih n (by simpa using h)]

theorem val_replicate_zero (B n : Nat) : val B (List.replicate n 0) = 0 := by
  induction n with
  | zero => rfl
  | succ n ih => simp [List.replicate_succ, ih]

theorem val_resize_zero (B : Nat) (a : Digits) (n : Nat) (h : a.length ≤ n) :
    val B (resize 0 a n) = val B a := by
  rw [resize_eq_append 0 a n h, val_append, val_replicate_zero]; simp

theorem val_replicate_top (B n : Nat) (hB : 0 < B) : val B (List.replicate n (B - 1)) = B ^ n - 1 := by
  induction n with
  | zero => simp
  | succ n ih =>
    have h1 : 1 ≤ B ^ n := Nat.one_le_pow _ _ hB
    have h2 : B ≤ B * B ^ n := Nat.le_mul_of_pos_right _ h1
    rw [List.replicate_succ, val_cons, ih, pow_succ, Nat.mul_sub, mul_comm (B ^ n) B]
    omega

theorem mem_resize {fill d : Nat} {a : Digits} {n : Nat} (h : d ∈ resize fill a n) : d ∈ a ∨ d = fill := by
  induction n generalizing a with
  | zero => cases a <;> simp [resize] at h
  | succ n ih =>
    cases a with
    | nil =>
      rcases List.mem_cons.1 h with h | h
      · exact .inr h
      · exact (ih h).imp (by simp) id
    | cons e es =>
      rcases List.mem_cons.1 h with h | h
      · exact .inl (by simp [h])
      · exact (ih h).imp (by simp +contextual) id

theorem resize_lt {B fill : Nat} {a : Digits} {n : Nat} (ha : ∀ d ∈ a, d < B) (hf : fill < B) :
    ∀ d ∈ resize fill a n, d < B := fun d hd => (mem_resize hd).elim (ha d) (fun h => h ▸ hf)

/-! The Normalizer (R64). -/

theorem val_trimTop (B : Nat) (a : Digits) : val B (trimTop a) = val B a := by
  induction a with
  | nil => rfl
  | cons d ds ih =>
    cases h : trimTop ds with
    | nil =>
      rw [h, val_nil] at ih
      by_cases h0 : d = 0 <;> simp [trimTop, h, h0, ← ih]
    | cons e es => rw [h] at ih; simp [trimTop, h, ← ih]

theorem mem_trimTop {d : Nat} {a : Digits} (h : d ∈ trimTop a) : d ∈ a := by
  induction a with
  | nil => exact h
  | cons x xs ih =>
    cases ht : trimTop xs with
    | nil =>
      by_cases h0 : x = 0
      · simp [trimTop, ht, h0] at h
      · have : d = x := by simpa [trimTop, ht, h0] using h
        simp [this]
    | cons e es =>
      have : d = x ∨ d ∈ e :: es := by simpa [trimTop, ht] using h
      rcases this with h | h
      · simp [h]
      · exact List.mem_cons_of_mem _ (ih (ht ▸ h))

theorem length_trimTop_le (a : Digits) : (trimTop a).length ≤ a.length := by
  induction a with
  | nil => simp [trimTop]
  | cons d ds ih =>
    cases h : trimTop ds with
    | nil => by_cases h0 : d = 0 <;> simp [trimTop, h, h0]
    | cons e es => rw [h] at ih; simpa [trimTop, h] using ih

theorem getLastD_trimTop (a : Digits) (h : trimTop a ≠ []) : (trimTop a).getLastD 0 ≠ 0 := by
  induction a with
  | nil => simp [trimTop] at h
  | cons d ds ih =>
    cases ht : trimTop ds with
    | nil =>
      by_cases h0 : d = 0
      · simp [trimTop, ht, h0] at h
      · simp [trimTop, ht, h0]
    | cons e es =>
      have := ih (by simp [ht])
      rw [ht] at this
      simpa [trimTop, ht] using this

theorem trimTop_eq_self {a : Digits} (h : a.getLastD 0 ≠ 0) : trimTop a = a := by
  induction a with
  | nil => rfl
  | cons d ds ih =>
    cases ds with
    | nil => simp [trimTop] at h ⊢; exact h
    | cons e es => rw [trimTop, ih (by simpa using h)]

theorem val_normalize (B : Nat) (a : Digits) : val B (normalize a) = val B a := by
  rw [← val_trimTop B a]
  unfold normalize
  split <;> rename_i h <;> simp [h]

theorem normalize_lt {B : Nat} {a : Digits} (hB : 0 < B) (h : ∀ d ∈ a, d < B) : ∀ d ∈ normalize a, d < B := by
  intro d hd
  unfold normalize at hd
  split at hd
  · simp_all
  · rename_i h2; exact h d (mem_trimTop (h2 ▸ hd))

theorem length_normalize_pos (a : Digits) : 1 ≤ (normalize a).length := by
  unfold normalize; split <;> simp

theorem length_normalize_le {a : Digits} (h : 1 ≤ a.length) : (normalize a).length ≤ a.length := by
  have := length_trimTop_le a
  unfold normalize
  split
  · exact h
  · rename_i h2; rwa [h2] at this

theorem normalize_top (a : Digits) : (normalize a).getLastD 0 ≠ 0 ∨ normalize a = [0] := by
  unfold normalize
  split
  · exact .inr rfl
  · rename_i d ds h
    exact .inl (h ▸ getLastD_trimTop a (by simp [h]))

theorem normalize_eq_self {a : Digits} (h : a.getLastD 0 ≠ 0 ∨ a = [0]) : normalize a = a := by
  rcases h with h | rfl
  · cases a with
    | nil => simp at h
    | cons d ds => simp [normalize, trimTop_eq_self h]
  · rfl

theorem normalize_normalize (a : Digits) : normalize (normalize a) = normalize a :=
  normalize_eq_self (normalize_top a)

/-! The value of a sequence with a nonzero top digit fixes its length, and with it every digit (R18, R66). -/

theorem pow_le_val {B : Nat} {a : Digits} (h : a.getLastD 0 ≠ 0) : B ^ (a.length - 1) ≤ val B a := by
  induction a with
  | nil => simp at h
  | cons d ds ih =>
    cases ds with
    | nil => have h' : d ≠ 0 := by simpa using h
             simpa using Nat.one_le_iff_ne_zero.2 h'
    | cons e es =>
      have := ih (by simpa using h)
      simp only [List.length_cons, Nat.add_sub_cancel] at this ⊢
      rw [val_cons, pow_succ, mul_comm]
      exact (Nat.mul_le_mul_left B this).trans (Nat.le_add_left _ _)

theorem val_eq_zero_iff {B : Nat} (hB : 0 < B) {a : Digits} (h : a.getLastD 0 ≠ 0 ∨ a = [0]) :
    val B a = 0 ↔ a = [0] := by
  constructor
  · intro hv
    rcases h with h | h
    · have := pow_le_val (B := B) h
      have : 0 < B ^ (a.length - 1) := Nat.pow_pos hB
      omega
    · exact h
  · rintro rfl; rfl

theorem normalized_unique {B : Nat} (hB : 2 ≤ B) {a b : Digits} (ha : ∀ d ∈ a, d < B) (hb : ∀ d ∈ b, d < B)
    (ta : a.getLastD 0 ≠ 0 ∨ a = [0]) (tb : b.getLastD 0 ≠ 0 ∨ b = [0]) (hv : val B a = val B b) : a = b := by
  have hB0 : 0 < B := by omega
  by_cases h0 : val B a = 0
  · rw [(val_eq_zero_iff hB0 ta).1 h0, (val_eq_zero_iff hB0 tb).1 (hv ▸ h0)]
  · have ta' : a.getLastD 0 ≠ 0 := ta.resolve_right (fun h => h0 ((val_eq_zero_iff hB0 ta).2 h))
    have tb' : b.getLastD 0 ≠ 0 :=
      tb.resolve_right (fun h => h0 (hv ▸ (val_eq_zero_iff hB0 tb).2 h))
    have key : ∀ {x y : Digits}, (∀ d ∈ y, d < B) → x.getLastD 0 ≠ 0 → y.getLastD 0 ≠ 0 →
        val B x = val B y → x.length ≤ y.length := by
      intro x y hy tx ty hxy
      have h1 := pow_le_val (B := B) tx
      have h2 := val_lt hy
      have h3 : B ^ (x.length - 1) < B ^ y.length := by omega
      have := (Nat.pow_lt_pow_iff_right (by omega : 1 < B)).1 h3
      omega
    exact val_inj ha hb (le_antisymm (key hb ta' tb' hv) (key ha tb' ta' hv.symm)) hv

end Machine

end Sys2Proof
end

