-- ==== Sys2Proof/Laws/Numbers.lean ====
section
/-! SUPPORT. The canonical Number of an integer (10_state R18, 40_digit_store_normalizer R65, R66): `canon` keeps the value,
its result is canonical, and one integer has one canonical Number. -/

namespace Sys2Proof.Machine

theorem digitsOf_lt {B : Nat} (hB : 0 < B) (n m : Nat) : ∀ d ∈ digitsOf B n m, d < B := by
  induction n generalizing m with
  | zero => simp [digitsOf]
  | succ n ih => simpa [digitsOf] using ⟨Nat.mod_lt _ hB, ih (m / B)⟩

theorem val_digitsOf (B n m : Nat) : val B (digitsOf B n m) = m % B ^ n := by
  induction n generalizing m with
  | zero => simp [digitsOf, Nat.mod_one]
  | succ n ih => rw [digitsOf, val_cons, ih, pow_succ, mul_comm (B ^ n), Nat.mod_mul]

@[simp] theorem length_digitsOf (B n m : Nat) : (digitsOf B n m).length = n := by
  induction n generalizing m with
  | zero => rfl
  | succ n ih => simp [digitsOf, ih]

theorem lt_pow_log2 {B : Nat} (hB : 2 ≤ B) (m : Nat) : m < B ^ (m.log2 + 1) :=
  lt_of_lt_of_le Nat.lt_log2_self (Nat.pow_le_pow_left hB _)

theorem canon_value (B : Nat) (n : Number) : (canon n).value B = n.value B := by
  unfold canon Number.value
  split
  · rename_i h
    have hv : val B n.digits = 0 := by rw [← val_normalize, h]; rfl
    rw [hv]; simp [SignTag.neg]
  · simp [val_normalize]

/-- `canon` yields the canonical form (R65). -/
theorem canon_canonical {B : Nat} (hB : 0 < B) {n : Number} (hd : ∀ d ∈ n.digits, d < B)
    (hs : n.sign.cpl = false) : (canon n).Canonical B := by
  unfold canon
  split
  · exact ⟨le_refl 1, .inr rfl, fun _ => rfl, by simpa using hB, rfl⟩
  · rename_i h
    exact ⟨length_normalize_pos _, normalize_top _, fun h' => absurd h' h, normalize_lt hB hd, hs⟩

theorem canon_eq_self {B : Nat} {n : Number} (h : n.Canonical B) : canon n = n := by
  obtain ⟨_, ht, hz, _, _⟩ := h
  unfold canon
  rw [normalize_eq_self ht]
  split
  · rename_i h0
    have hs := hz h0
    cases n; subst h0 hs; rfl
  · rfl

/-- One integer has one canonical Number (R18, R66). -/
theorem canonical_unique {B : Nat} (hB : 2 ≤ B) {x y : Number} (hx : x.Canonical B) (hy : y.Canonical B)
    (h : x.value B = y.value B) : x = y := by
  obtain ⟨_, tx, zx, lx, cx⟩ := hx
  obtain ⟨_, ty, zy, ly, cy⟩ := hy
  have hv : val B x.digits = val B y.digits := by
    unfold Number.value at h; split at h <;> split at h <;> omega
  have hd := normalized_unique hB lx ly tx ty hv
  have hs : x.sign = y.sign := by
    by_cases h0 : x.digits = [0]
    · rw [zx h0, zy (hd ▸ h0)]
    · have hpos : val B x.digits ≠ 0 := fun hz => h0 ((val_eq_zero_iff (by omega) tx).1 hz)
      unfold Number.value at h
      cases hsx : x.sign <;> cases hsy : y.sign <;>
        simp_all [SignTag.neg, SignTag.cpl]
  cases x; cases y; simp_all

theorem num_canonical {B : Nat} (hB : 0 < B) (x : Int) : (num B x).Canonical B :=
  canon_canonical hB (digitsOf_lt hB _ _) (by dsimp only; split <;> rfl)

theorem num_value {B : Nat} (hB : 2 ≤ B) (x : Int) : (num B x).value B = x := by
  unfold num
  rw [canon_value]
  unfold Number.value
  rw [val_digitsOf, Nat.mod_eq_of_lt (lt_pow_log2 hB _)]
  by_cases hx : x < 0
  · simp only [hx, if_true, SignTag.neg]; omega
  · simp only [hx, if_false, SignTag.neg, Bool.false_eq_true]; omega

theorem eq_num {B : Nat} (hB : 2 ≤ B) {n : Number} (h : n.Canonical B) : n = num B (n.value B) :=
  canonical_unique hB h (num_canonical (by omega) _) (num_value hB _).symm

/-- "`canon(s, a) = num(±val(a))` with the sign taken from `s`" (R66). -/
theorem canon_eq_num {B : Nat} (hB : 2 ≤ B) {n : Number} (hd : ∀ d ∈ n.digits, d < B)
    (hs : n.sign.cpl = false) : canon n = num B (n.value B) := by
  rw [eq_num hB (canon_canonical (by omega) hd hs), canon_value]

theorem num_inj {B : Nat} (hB : 2 ≤ B) {x y : Int} (h : num B x = num B y) : x = y := by
  rw [← num_value hB x, h, num_value hB]

theorem natAbs_value (B : Nat) (n : Number) : (n.value B).natAbs = val B n.digits := by
  unfold Number.value; split <;> simp

/-- The number of digits of a canonical Number: at most `k` exactly when `|x| < B^k`. -/
theorem size_le_iff {B : Nat} (hB : 2 ≤ B) {n : Number} (h : n.Canonical B) {k : Nat} (hk : 1 ≤ k) :
    n.size ≤ k ↔ (n.value B).natAbs < B ^ k := by
  rw [natAbs_value]
  constructor
  · intro hs
    exact lt_of_lt_of_le (val_lt h.2.2.2.1) (Nat.pow_le_pow_right (by omega) hs)
  · intro hv
    rcases h.2.1 with ht | ht
    · have h1 := pow_le_val (B := B) ht
      have := (Nat.pow_lt_pow_iff_right (by omega : 1 < B)).1 (lt_of_le_of_lt h1 hv)
      unfold Number.size; omega
    · simpa [Number.size, ht] using hk

theorem num_size_le_iff {B : Nat} (hB : 2 ≤ B) (x : Int) {k : Nat} (hk : 1 ≤ k) :
    (num B x).size ≤ k ↔ x.natAbs < B ^ k := by
  rw [size_le_iff hB (num_canonical (by omega) x) hk, num_value hB]

theorem canonical_digits_lt {B : Nat} {n : Number} (h : n.Canonical B) : ∀ d ∈ n.digits, d < B := h.2.2.2.1

theorem canonical_ne_nil {B : Nat} {n : Number} (h : n.Canonical B) : n.digits ≠ [] := by
  intro h0; have := h.1; simp [Number.size, h0] at this

/-- A canonical Number is zero exactly when its digits are `[0]` (R119). -/
theorem value_eq_zero_iff {B : Nat} (hB : 0 < B) {n : Number} (h : n.Canonical B) :
    n.value B = 0 ↔ n.digits = [0] := by
  rw [← val_eq_zero_iff hB h.2.1, ← natAbs_value]; omega

theorem num_zero {B : Nat} (hB : 2 ≤ B) : num B 0 = { sign := .positive, digits := [0] } :=
  canonical_unique hB (num_canonical (by omega) 0)
    ⟨le_refl 1, .inr rfl, fun _ => rfl, by simpa using (by omega : 0 < B), rfl⟩
    (by rw [num_value hB]; simp [Number.value, SignTag.neg])

/-- The sign tag of a canonical Number says whether it is negative (R17, R18). -/
theorem canonical_neg_iff {B : Nat} (hB : 0 < B) {n : Number} (h : n.Canonical B) :
    n.sign.neg = true ↔ n.value B < 0 := by
  have hz : n.digits = [0] → n.sign.neg = false := fun h0 => by rw [h.2.2.1 h0]; rfl
  have h0 := val_eq_zero_iff hB h.2.1
  unfold Number.value
  cases hn : n.sign.neg
  · simp
  · have : val B n.digits ≠ 0 := fun hv => by rw [hz (h0.1 hv)] at hn; cases hn
    simp; omega

/-- Two canonical Numbers have one sign exactly when both or neither of their integers are negative. -/
theorem canonical_sign_eq_iff {B : Nat} (hB : 0 < B) {n m : Number} (hn : n.Canonical B) (hm : m.Canonical B) :
    n.sign = m.sign ↔ (n.value B < 0 ↔ m.value B < 0) := by
  rw [← canonical_neg_iff hB hn, ← canonical_neg_iff hB hm]
  have h1 := hn.2.2.2.2
  have h2 := hm.2.2.2.2
  cases hs : n.sign <;> cases ht : m.sign <;> simp_all [SignTag.neg, SignTag.cpl]

end Sys2Proof.Machine
end

