-- ==== Sys2Proof/Laws/AddSub.lean ====
section
/-! SUPPORT. What the adder, the comparator, the subtractor and the sign combination compute (42_add_sub R86, R87, R89,
R90, R91, R92). -/

namespace Sys2Proof.Machine

theorem aligned_fst (fa fb : Nat) (a b : Digits) :
    (aligned fa fb a b).map Prod.fst = resize fa a (max a.length b.length) := by
  simp only [aligned]; exact List.map_fst_zip (by simp)

theorem aligned_snd (fa fb : Nat) (a b : Digits) :
    (aligned fa fb a b).map Prod.snd = resize fb b (max a.length b.length) := by
  simp only [aligned]; exact List.map_snd_zip (by simp)

@[simp] theorem length_aligned (fa fb : Nat) (a b : Digits) :
    (aligned fa fb a b).length = max a.length b.length := by simp [aligned]

theorem mem_zip_lt {B : Nat} {a b : Digits} (ha : ∀ d ∈ a, d < B) (hb : ∀ d ∈ b, d < B) :
    ∀ p ∈ a.zip b, p.1 < B ∧ p.2 < B := fun p hp =>
  ⟨ha _ (List.of_mem_zip (by simpa using hp : (p.1, p.2) ∈ _)).1,
   hb _ (List.of_mem_zip (by simpa using hp : (p.1, p.2) ∈ _)).2⟩

theorem aligned_lt {B : Nat} {a b : Digits} {fa fb : Nat} (ha : ∀ d ∈ a, d < B) (hb : ∀ d ∈ b, d < B)
    (hfa : fa < B) (hfb : fb < B) : ∀ p ∈ aligned fa fb a b, p.1 < B ∧ p.2 < B :=
  mem_zip_lt (resize_lt ha hfa) (resize_lt hb hfb)

theorem val_addCarry (B : Nat) (ps : List (Nat × Nat)) (c : Nat) :
    val B (addCarry B ps c) = val B (ps.map Prod.fst) + val B (ps.map Prod.snd) + c := by
  induction ps generalizing c with
  | nil => simp [addCarry]
  | cons p ps ih =>
    obtain ⟨x, y⟩ := p
    simp only [addCarry, val_cons, ih, List.map_cons]
    have := Nat.mod_add_div (x + y + c) B
    rw [Nat.mul_add, Nat.mul_add]; omega

@[simp] theorem length_addCarry (B : Nat) (ps : List (Nat × Nat)) (c : Nat) :
    (addCarry B ps c).length = ps.length + 1 := by
  induction ps generalizing c with
  | nil => rfl
  | cons p ps ih => simp [addCarry, ih]

theorem addCarry_lt {B : Nat} (hB : 2 ≤ B) {ps : List (Nat × Nat)} (h : ∀ p ∈ ps, p.1 < B ∧ p.2 < B) {c : Nat}
    (hc : c ≤ 1) : ∀ d ∈ addCarry B ps c, d < B := by
  induction ps generalizing c with
  | nil => simp [addCarry]; omega
  | cons p ps ih =>
    obtain ⟨x, y⟩ := p
    have hxy := h (x, y) (by simp)
    have hlt : (x + y + c) / B ≤ 1 := by
      have : (x + y + c) / B < 2 := (Nat.div_lt_iff_lt_mul (by omega)).2 (by simp at hxy; omega)
      omega
    intro d hd
    rcases List.mem_cons.1 hd with rfl | hd
    · exact Nat.mod_lt _ (by omega)
    · exact ih (fun p hp => h p (by simp [hp])) hlt d hd

/-- `val(r) = val(a) + val(b)` (R86 (i)). -/
theorem val_addMagnitude (B : Nat) (a b : Digits) : val B (addMagnitude B a b) = val B a + val B b := by
  rw [addMagnitude, val_addCarry, aligned_fst, aligned_snd, val_resize_zero _ _ _ (le_max_left _ _),
    val_resize_zero _ _ _ (le_max_right _ _), add_zero]

theorem length_addMagnitude (B : Nat) (a b : Digits) :
    (addMagnitude B a b).length = max a.length b.length + 1 := by simp [addMagnitude]

theorem addMagnitude_lt {B : Nat} (hB : 2 ≤ B) {a b : Digits} (ha : ∀ d ∈ a, d < B) (hb : ∀ d ∈ b, d < B) :
    ∀ d ∈ addMagnitude B a b, d < B :=
  addCarry_lt hB (aligned_lt ha hb (by omega) (by omega)) (by omega)

theorem compareDigits_eq {B : Nat} {ps : List (Nat × Nat)} (h : ∀ p ∈ ps, p.1 < B ∧ p.2 < B) :
    compareDigits ps = compare (val B (ps.map Prod.fst)) (val B (ps.map Prod.snd)) := by
  induction ps with
  | nil => rfl
  | cons p ps ih =>
    obtain ⟨x, y⟩ := p
    have hxy := h (x, y) (by simp)
    simp only at hxy
    have ih' := ih (fun p hp => h p (by simp [hp]))
    rw [compareDigits, ih']
    simp only [List.map_cons, val_cons]
    generalize val B (ps.map Prod.fst) = u
    generalize val B (ps.map Prod.snd) = v
    rcases Nat.lt_trichotomy u v with huv | rfl | huv
    · have h1 : B * (u + 1) ≤ B * v := Nat.mul_le_mul_left B huv
      rw [Nat.compare_eq_lt.2 huv, Nat.compare_eq_lt.2 (by rw [Nat.mul_add] at h1; omega)]
    · rw [Nat.compare_eq_eq.2 rfl]
      rcases Nat.lt_trichotomy x y with hl | rfl | hl
      · rw [Nat.compare_eq_lt.2 (by omega)]; simp [hl, Nat.lt_asymm hl]
      · simp
      · rw [Nat.compare_eq_gt.2 (by omega)]; simp [hl]
    · have h1 : B * (v + 1) ≤ B * u := Nat.mul_le_mul_left B huv
      rw [Nat.compare_eq_gt.2 huv, Nat.compare_eq_gt.2 (by rw [Nat.mul_add] at h1; omega)]

/-- `LT`, `EQ` or `GT` as `val(a) <`, `=`, `> val(b)` (R87). -/
theorem cmpMagnitude_eq {B : Nat} (hB : 0 < B) {a b : Digits} (ha : ∀ d ∈ a, d < B) (hb : ∀ d ∈ b, d < B) :
    cmpMagnitude a b = compare (val B a) (val B b) := by
  rw [cmpMagnitude, compareDigits_eq (aligned_lt ha hb hB hB), aligned_fst, aligned_snd,
    val_resize_zero _ _ _ (le_max_left _ _), val_resize_zero _ _ _ (le_max_right _ _)]

/-- The borrow chain: digits below `B`, a last borrow of 0 or 1, and
`val(r) = val(a) - val(b) - borrow_in + borrow_out * B^len` (R88, R89 (i)). -/
theorem subBorrow_spec {B : Nat} {ps : List (Nat × Nat)} (h : ∀ p ∈ ps, p.1 < B ∧ p.2 < B) {c : Nat}
    (hc : c ≤ 1) :
    val B (subBorrow B ps c).1 + val B (ps.map Prod.snd) + c =
        val B (ps.map Prod.fst) + B ^ ps.length * (subBorrow B ps c).2 ∧
      (subBorrow B ps c).2 ≤ 1 ∧ (∀ d ∈ (subBorrow B ps c).1, d < B) ∧ (subBorrow B ps c).1.length = ps.length := by
  induction ps generalizing c with
  | nil => simpa [subBorrow] using hc
  | cons p ps ih =>
    obtain ⟨x, y⟩ := p
    have hxy := h (x, y) (by simp)
    simp only at hxy
    have hB : 0 < B := by omega
    set acc := B + x - y - c with hacc
    have hlt : acc < 2 * B := by omega
    have hq : acc / B ≤ 1 := by
      have : acc / B < 2 := (Nat.div_lt_iff_lt_mul hB).2 hlt
      omega
    obtain ⟨h1, h2, h3, h4⟩ := ih (fun p hp => h p (by simp [hp])) (c := 1 - acc / B) (Nat.sub_le _ _)
    refine ⟨?_, h2, ?_, by simp [subBorrow, ← hacc, h4]⟩
    · simp only [subBorrow, ← hacc, List.map_cons, val_cons, List.length_cons, pow_succ]
      have hm := Nat.mod_add_div acc B
      have hkey : acc % B + B * (acc / B) + y + c = B + x := by omega
      have e1 : B * (val B (subBorrow B ps (1 - acc / B)).1 + val B (ps.map Prod.snd) + (1 - acc / B)) =
          B * (val B (ps.map Prod.fst) + B ^ ps.length * (subBorrow B ps (1 - acc / B)).2) := by rw [h1]
      have e2 : B * (1 - acc / B) + B * (acc / B) = B := by
        rw [← Nat.mul_add]; simp [Nat.sub_add_cancel hq]
      rw [Nat.mul_add, Nat.mul_add, Nat.mul_add] at e1
      have e3 : B ^ ps.length * B * (subBorrow B ps (1 - acc / B)).2 =
          B * (B ^ ps.length * (subBorrow B ps (1 - acc / B)).2) := by ring
      rw [e3]; omega
    · intro d hd
      simp only [subBorrow, ← hacc] at hd
      rcases List.mem_cons.1 hd with rfl | hd
      · exact Nat.mod_lt _ hB
      · exact h3 d hd

theorem subChain_spec {B : Nat} (hB : 0 < B) {a b : Digits} (ha : ∀ d ∈ a, d < B) (hb : ∀ d ∈ b, d < B)
    (hl : b.length ≤ a.length) :
    val B (subChain B a b).1 + val B b = val B a + B ^ a.length * (subChain B a b).2 ∧
      (subChain B a b).2 ≤ 1 ∧ (∀ d ∈ (subChain B a b).1, d < B) ∧ (subChain B a b).1.length = a.length := by
  have hz : ∀ p ∈ a.zip (resize 0 b a.length), p.1 < B ∧ p.2 < B := mem_zip_lt ha (resize_lt hb hB)
  obtain ⟨h1, h2, h3, h4⟩ := subBorrow_spec hz (c := 0) (by omega)
  rw [List.map_fst_zip (by simp), List.map_snd_zip (by simp), val_resize_zero _ _ _ hl] at h1
  simp only [List.length_zip, length_resize, min_self] at h1 h4
  exact ⟨h1, h2, h3, h4⟩

/-- With the precondition the last borrow is 0 and nothing is lost (R89 (i)). -/
theorem subChain_of_le {B : Nat} (hB : 0 < B) {a b : Digits} (ha : ∀ d ∈ a, d < B) (hb : ∀ d ∈ b, d < B)
    (hl : b.length ≤ a.length) (hle : val B b ≤ val B a) :
    (subChain B a b).2 = 0 ∧ val B (subChain B a b).1 = val B a - val B b := by
  obtain ⟨h1, h2, h3, h4⟩ := subChain_spec hB ha hb hl
  have hlt := val_lt h3
  rw [h4] at hlt
  have h0 : (subChain B a b).2 = 0 := by
    by_contra hne
    have : (subChain B a b).2 = 1 := by omega
    rw [this] at h1; omega
  refine ⟨h0, ?_⟩
  rw [h0] at h1; omega

/-- `subMagnitude` where the subtrahend may be the longer sequence, its digits above being zero in value. -/
theorem val_subMagnitude {B : Nat} (hB : 0 < B) {a b : Digits} (ha : ∀ d ∈ a, d < B) (hb : ∀ d ∈ b, d < B)
    (hl : b.length ≤ a.length) (hle : val B b ≤ val B a) :
    val B (subMagnitude B a b) = val B a - val B b := (subChain_of_le hB ha hb hl hle).2

theorem subMagnitude_lt {B : Nat} (hB : 0 < B) {a b : Digits} (ha : ∀ d ∈ a, d < B) (hb : ∀ d ∈ b, d < B) :
    ∀ d ∈ subMagnitude B a b, d < B :=
  (subBorrow_spec (mem_zip_lt ha (resize_lt hb hB)) (c := 0) (by omega)).2.2.1

theorem length_le_of_val_le {B : Nat} (hB : 2 ≤ B) {a b : Digits} (ha : ∀ d ∈ a, d < B)
    (tb : b.getLastD 0 ≠ 0 ∨ b = [0]) (hne : a ≠ []) (hle : val B b ≤ val B a) : b.length ≤ a.length := by
  rcases tb with tb | rfl
  · have h1 := pow_le_val (B := B) tb
    have h2 := val_lt ha
    have := (Nat.pow_lt_pow_iff_right (by omega : 1 < B)).1 (show B ^ (b.length - 1) < B ^ a.length by omega)
    omega
  · have := List.length_pos_of_ne_nil hne
    exact this

/-- `swapped` is true exactly when `val(a) < val(b)`, and `val(r) = |val(a) - val(b)|` (R90). -/
theorem subOrdered_spec {B : Nat} (hB : 2 ≤ B) {a b : Digits} (ha : ∀ d ∈ a, d < B) (hb : ∀ d ∈ b, d < B)
    (ta : a.getLastD 0 ≠ 0 ∨ a = [0]) (tb : b.getLastD 0 ≠ 0 ∨ b = [0]) :
    (subOrdered B a b).1 = decide (val B a < val B b) ∧
      (val B (subOrdered B a b).2 : Int) = |(val B a : Int) - val B b| ∧ (∀ d ∈ (subOrdered B a b).2, d < B) := by
  have hB0 : 0 < B := by omega
  have hna : a ≠ [] := by rintro rfl; simp at ta
  have hnb : b ≠ [] := by rintro rfl; simp at tb
  unfold subOrdered
  rw [cmpMagnitude_eq hB0 ha hb]
  rcases Nat.lt_trichotomy (val B a) (val B b) with h | h | h
  · rw [Nat.compare_eq_lt.2 h]
    refine ⟨by simp [h], ?_, subMagnitude_lt hB0 hb ha⟩
    rw [val_subMagnitude hB0 hb ha (length_le_of_val_le hB hb ta hnb h.le) h.le, abs_of_neg (by omega)]; omega
  · rw [Nat.compare_eq_eq.2 h]
    refine ⟨by simp [h], ?_, subMagnitude_lt hB0 ha hb⟩
    rw [val_subMagnitude hB0 ha hb (length_le_of_val_le hB ha tb hna h.ge) h.ge, abs_of_nonneg (by omega)]; omega
  · rw [Nat.compare_eq_gt.2 h]
    refine ⟨by simp [Nat.lt_asymm h], ?_, subMagnitude_lt hB0 ha hb⟩
    rw [val_subMagnitude hB0 ha hb (length_le_of_val_le hB ha tb hna h.le) h.le, abs_of_pos (by omega)]; omega

/-! The sign combination (R91, R92). -/

/-- Signed addition of normalized magnitudes; a zero may carry either sign (R91, R92). -/
theorem addSigned_spec {B : Nat} (hB : 2 ≤ B) {x y : Number} (lx : ∀ d ∈ x.digits, d < B)
    (ly : ∀ d ∈ y.digits, d < B) (tx : x.digits.getLastD 0 ≠ 0 ∨ x.digits = [0])
    (ty : y.digits.getLastD 0 ≠ 0 ∨ y.digits = [0]) (cx : x.sign.cpl = false) (cy : y.sign.cpl = false) :
    (addSigned B x y).value B = x.value B + y.value B ∧ (∀ d ∈ (addSigned B x y).digits, d < B) ∧
      (addSigned B x y).sign.cpl = false := by
  unfold addSigned
  split
  · rename_i hs
    refine ⟨?_, addMagnitude_lt hB lx ly, cx⟩
    simp only [Number.value, val_addMagnitude, ← hs]
    split <;> push_cast <;> ring
  · rename_i hs
    obtain ⟨h1, h2, h3⟩ := subOrdered_spec hB lx ly tx ty
    refine ⟨?_, h3, by dsimp only; split <;> assumption⟩
    simp only [Number.value, h1, h2]
    by_cases hlt : val B x.digits < val B y.digits
    · simp only [hlt, decide_true, if_true]
      rw [abs_of_neg (by omega)]
      cases hsx : x.sign.neg <;> cases hsy : y.sign.neg <;> simp_all <;> ring
    · simp only [hlt, decide_false, Bool.false_eq_true, if_false]
      rw [abs_of_nonneg (by omega)]
      cases hsx : x.sign.neg <;> cases hsy : y.sign.neg <;> simp_all <;> ring

/-- ADD's datapath computes the sum (R91, R93). -/
theorem canon_addSigned {B : Nat} (hB : 2 ≤ B) {x y : Number} (hx : x.Canonical B) (hy : y.Canonical B) :
    canon (addSigned B x y) = num B (x.value B + y.value B) := by
  obtain ⟨_, tx, _, lx, cx⟩ := hx
  obtain ⟨_, ty, _, ly, cy⟩ := hy
  obtain ⟨h1, h2, h3⟩ := addSigned_spec hB lx ly tx ty cx cy
  rw [canon_eq_num hB h2 h3, h1]

/-- SUB's datapath computes the difference (R92, R94). -/
theorem canon_subSigned {B : Nat} (hB : 2 ≤ B) {x y : Number} (hx : x.Canonical B) (hy : y.Canonical B) :
    canon (subSigned B x y) = num B (x.value B - y.value B) := by
  obtain ⟨_, tx, _, lx, cx⟩ := hx
  obtain ⟨_, ty, _, ly, cy⟩ := hy
  obtain ⟨h1, h2, h3⟩ := addSigned_spec hB (y := { sign := y.sign.flip, digits := y.digits }) lx ly tx ty cx
    (by cases hs : y.sign <;> simp_all [SignTag.flip, SignTag.ofBits, SignTag.neg, SignTag.cpl])
  have hv : Number.value B { sign := y.sign.flip, digits := y.digits } = -y.value B := by
    cases hs : y.sign <;> simp_all [SignTag.flip, SignTag.ofBits, SignTag.neg, SignTag.cpl, Number.value]
  rw [subSigned, canon_eq_num hB h2 h3, h1, hv, sub_eq_add_neg]

end Sys2Proof.Machine
end

