-- ==== Sys2Proof/Laws/Bitwise.lean ====
section
/-! SUPPORT. What the two's-complement adapter and the digit-wise operators compute (45_bitwise R123-R132). -/

namespace Sys2Proof.Machine

/-- The value of a complement view, digit by digit (R123): the digits above are all 0 or all ones. -/
def cval (B : Nat) (neg : Bool) : Digits → Int
  | [] => if neg then -1 else 0
  | d :: ds => d + B * cval B neg ds

/-- `cval(tag, c)` is `val(c)`, less `B^L` for NegativeComplement (R123). -/
theorem cval_eq (B : Nat) (neg : Bool) (ds : Digits) :
    cval B neg ds = (val B ds : Int) - (if neg then (B : Int) ^ ds.length else 0) := by
  induction ds with
  | nil => cases neg <;> simp [cval]
  | cons d ds ih => cases neg <;> simp [cval, ih, pow_succ]; ring

/-- "Appending the matching extension digit does not change the value" (R123). -/
theorem cval_resize (B : Nat) (hB : 0 < B) (neg : Bool) (ds : Digits) (n : Nat) (h : ds.length ≤ n) :
    cval B neg (resize (if neg then B - 1 else 0) ds n) = cval B neg ds := by
  rw [cval_eq, cval_eq, length_resize, resize_eq_append _ _ _ h, val_append]
  cases neg
  · simp [val_replicate_zero]
  · have h1 : 1 ≤ B ^ (n - ds.length) := Nat.one_le_pow _ _ hB
    have h2 : (B : Int) ^ n = (B : Int) ^ ds.length * (B : Int) ^ (n - ds.length) := by
      rw [← pow_add]; congr 1; omega
    simp only [if_true, val_replicate_top B _ hB, h2]
    push_cast [h1]; ring

theorem cval_neg_iff {B : Nat} {neg : Bool} {ds : Digits} (h : ∀ d ∈ ds, d < B) : cval B neg ds < 0 ↔ neg = true := by
  have := val_lt h
  have h' : (val B ds : Int) < (B : Int) ^ ds.length := by exact_mod_cast this
  rw [cval_eq]
  cases neg <;> simp; omega

@[simp] theorem length_invert (B : Nat) (ds : Digits) : (invert B ds).length = ds.length := by
  induction ds with
  | nil => rfl
  | cons d ds ih => simp [invert, ih]

theorem invert_lt {B : Nat} (hB : 0 < B) (ds : Digits) : ∀ d ∈ invert B ds, d < B := by
  induction ds with
  | nil => simp [invert]
  | cons d ds ih => simp only [invert, List.mem_cons, forall_eq_or_imp]; exact ⟨by omega, ih⟩

theorem cval_invert {B : Nat} (neg : Bool) {ds : Digits} (h : ∀ d ∈ ds, d < B) :
    cval B (!neg) (invert B ds) = -cval B neg ds - 1 := by
  induction ds with
  | nil => cases neg <;> rfl
  | cons d ds ih =>
    have hd : d < B := h d (by simp)
    simp only [invert, cval, ih (fun e he => h e (by simp [he]))]
    push_cast [show d ≤ B - 1 by omega, show 1 ≤ B by omega]; ring

@[simp] theorem length_addOneCarry (B : Nat) (ds : Digits) (c : Nat) : (addOneCarry B ds c).length = ds.length := by
  induction ds generalizing c with
  | nil => rfl
  | cons d ds ih => simp [addOneCarry, ih]

theorem addOneCarry_lt {B : Nat} (hB : 0 < B) (ds : Digits) (c : Nat) : ∀ d ∈ addOneCarry B ds c, d < B := by
  induction ds generalizing c with
  | nil => simp [addOneCarry]
  | cons d ds ih =>
    simp only [addOneCarry, List.mem_cons, forall_eq_or_imp]; exact ⟨Nat.mod_lt _ hB, ih _⟩

theorem val_addOneCarry (B : Nat) (ds : Digits) (c : Nat) :
    val B (addOneCarry B ds c) = (val B ds + c) % B ^ ds.length := by
  induction ds generalizing c with
  | nil => simp [addOneCarry, Nat.mod_one]
  | cons d ds ih =>
    simp only [addOneCarry, val_cons, ih, List.length_cons]
    rw [pow_succ, mul_comm (B ^ ds.length), Nat.mod_mul]
    have h1 : (d + B * val B ds + c) % B = (d + c) % B := by
      rw [show d + B * val B ds + c = d + c + B * val B ds by ring, Nat.add_mul_mod_self_left]
    rcases Nat.eq_zero_or_pos B with rfl | hB
    · simp
    · have h2 : (d + B * val B ds + c) / B = val B ds + (d + c) / B := by
        rw [show d + B * val B ds + c = d + c + B * val B ds by ring, Nat.add_mul_div_left _ _ hB]; ring
      rw [h1, h2]

/-- "Invert all bits then add 1", read as a magnitude, is the view's value negated when that is at most `B^L` (R124,
R128). -/
theorem val_invert_addOne {B : Nat} {ds : Digits} (h : ∀ d ∈ ds, d < B) (hpos : 1 ≤ val B ds) :
    val B (addOneCarry B (invert B ds) 1) = B ^ ds.length - val B ds := by
  have h1 := cval_invert (B := B) false h
  have h2 := val_lt h
  rw [Bool.not_false, cval_eq, cval_eq, length_invert] at h1
  simp only [if_true, Bool.false_eq_true, if_false] at h1
  have h3 : (val B (invert B ds) : Int) + 1 = ((B ^ ds.length - val B ds : Nat) : Int) := by
    push_cast [h2.le]; linarith
  have h4 : val B (invert B ds) + 1 = B ^ ds.length - val B ds := by exact_mod_cast h3
  rw [val_addOneCarry, length_invert, h4, Nat.mod_eq_of_lt (by omega)]

/-- The view has the value of the Number (R124). -/
theorem toComplement_spec {B : Nat} (hB : 2 ≤ B) {x : Number} (hx : x.Canonical B) :
    cval B (toComplement B x).neg (toComplement B x).digits = x.value B ∧
      (∀ d ∈ (toComplement B x).digits, d < B) ∧ (toComplement B x).neg = x.sign.neg := by
  obtain ⟨_, tx, zx, lx, _⟩ := hx
  have hB0 : 0 < B := by omega
  unfold toComplement Number.value
  split
  · rename_i hs
    have hpos : 1 ≤ val B x.digits := by
      by_contra h0
      have := zx ((val_eq_zero_iff hB0 tx).1 (by omega))
      rw [this] at hs; simp [SignTag.neg] at hs
    have hr := resize_lt (n := x.digits.length + 1) lx hB0
    have hv : val B (resize 0 x.digits (x.digits.length + 1)) = val B x.digits := val_resize_zero _ _ _ (by omega)
    refine ⟨?_, addOneCarry_lt hB0 _ _, hs.symm⟩
    have hlt := val_lt hr
    rw [hv, length_resize] at hlt
    rw [cval_eq, val_invert_addOne hr (by rw [hv]; exact hpos), hv]
    simp only [length_addOneCarry, length_invert, length_resize, if_true]
    push_cast [hlt.le]; ring
  · rename_i hs
    exact ⟨by rw [cval_eq]; simp, lx, by simpa using hs⟩

/-- The back-conversion keeps the value (R128), with the headroom digit of R129. -/
theorem fromComplement_spec {B : Nat} (hB : 2 ≤ B) {v : View} (h : ∀ d ∈ v.digits, d < B) :
    (fromComplement B v).value B = cval B v.neg v.digits ∧ (∀ d ∈ (fromComplement B v).digits, d < B) ∧
      (fromComplement B v).sign.cpl = false := by
  have hB0 : 0 < B := by omega
  unfold fromComplement
  split
  · rename_i hn
    have hr := resize_lt (n := v.digits.length + 1) h (show B - 1 < B by omega)
    have hc := cval_resize B hB0 true v.digits (v.digits.length + 1) (by omega)
    have hneg := (cval_neg_iff (neg := true) h).2 rfl
    simp only [if_true] at hc
    have hpos : 1 ≤ val B (resize (B - 1) v.digits (v.digits.length + 1)) := by
      rw [resize_eq_append _ _ _ (by omega), val_append]
      have h1 : 0 < B ^ v.digits.length := Nat.pow_pos hB0
      have h2 : 0 < B - 1 := by omega
      have := Nat.mul_pos h1 h2
      simp; omega
    have hlt := val_lt hr
    rw [length_resize] at hlt
    refine ⟨?_, addOneCarry_lt hB0 _ _, rfl⟩
    rw [cval_eq, length_resize, cval_eq] at hc
    simp only [if_true] at hc
    simp only [Number.value, SignTag.neg, if_true, val_invert_addOne hr hpos, length_resize, cval_eq, hn]
    push_cast [hlt.le]; linarith
  · rename_i hn
    exact ⟨by simp [Number.value, SignTag.neg, cval_eq, hn], h, rfl⟩

/-- NOT's datapath computes `-(x + 1)` (R132). -/
theorem canon_bitwiseNot {B : Nat} (hB : 2 ≤ B) {x : Number} (hx : x.Canonical B) :
    canon (bitwiseNot B x) = num B (-(x.value B + 1)) := by
  obtain ⟨h1, h2, _⟩ := toComplement_spec hB hx
  have hl := invert_lt (B := B) (by omega) (toComplement B x).digits
  obtain ⟨h4, h5, h6⟩ := fromComplement_spec hB (v := (toComplement B x).not B) hl
  rw [bitwiseNot, canon_eq_num hB h5 h6, h4]
  simp only [View.not]
  rw [cval_invert _ h2, h1]; congr 1; ring

/-! The bits of a view (R131). -/

theorem intBit_natCast (n k : Nat) : intBit (n : Int) k = n.testBit k := by
  unfold intBit
  rw [Nat.testBit_eq_decide_div_mod_eq]
  exact decide_eq_decide.2 (by norm_cast)

theorem intBit_neg_one (k : Nat) : intBit (-1) k = true := by
  unfold intBit
  have h : (-1 : Int) / 2 ^ k = -1 := Int.ediv_eq_neg_one_of_neg_of_le (by norm_num) (by
    have : (0 : Int) < 2 ^ k := by positivity
    omega)
  rw [h]; rfl

theorem intBit_digit {W d : Nat} (hd : d < 2 ^ W) (z : Int) (k : Nat) :
    intBit ((d : Int) + ((2 ^ W : Nat) : Int) * z) k = if k < W then d.testBit k else intBit z (k - W) := by
  unfold intBit
  split
  · rename_i hk
    rw [Nat.testBit_eq_decide_div_mod_eq]
    apply decide_eq_decide.2
    have e : ((2 ^ W : Nat) : Int) = 2 ^ k * (2 * 2 ^ (W - k - 1)) := by
      push_cast; rw [← mul_assoc, mul_comm ((2 : Int) ^ k) 2, mul_assoc, ← pow_add, ← pow_succ']; congr 1; omega
    rw [e, mul_assoc, Int.add_mul_ediv_left _ _ (by positivity), mul_assoc, Int.add_mul_emod_self_left]
    norm_cast
  · rename_i hk
    have e : (2 : Int) ^ k = ((2 ^ W : Nat) : Int) * 2 ^ (k - W) := by
      push_cast; rw [← pow_add]; congr 1; omega
    have h0 : (d : Int) / ((2 ^ W : Nat) : Int) = 0 := Int.ediv_eq_zero_of_lt (by omega) (by exact_mod_cast hd)
    rw [e, ← Int.ediv_ediv_of_nonneg (by positivity), Int.add_mul_ediv_left _ _ (by positivity), h0, zero_add]

/-- Bit `k` of a view: of the digit that holds it, or the tag above the digits. -/
def viewBit (W : Nat) (neg : Bool) : Digits → Nat → Bool
  | [], _ => neg
  | d :: ds, k => if k < W then d.testBit k else viewBit W neg ds (k - W)

theorem intBit_cval {W : Nat} {neg : Bool} {ds : Digits} (h : ∀ d ∈ ds, d < 2 ^ W) (k : Nat) :
    intBit (cval (2 ^ W) neg ds) k = viewBit W neg ds k := by
  induction ds generalizing k with
  | nil =>
    cases neg
    · simpa [cval, viewBit] using intBit_natCast 0 k
    · simpa [cval, viewBit] using intBit_neg_one k
  | cons d ds ih =>
    rw [cval, intBit_digit (h d (by simp)), viewBit, ih (fun e he => h e (by simp [he]))]

theorem testBit_digit (o : BitOp) (x y k : Nat) : (o.digit x y).testBit k = o.bit (x.testBit k) (y.testBit k) := by
  cases o <;> simp [BitOp.digit, BitOp.bit]

theorem digit_lt (o : BitOp) {W x y : Nat} (hx : x < 2 ^ W) (hy : y < 2 ^ W) : o.digit x y < 2 ^ W := by
  cases o
  · exact Nat.or_lt_two_pow hx hy
  · exact Nat.xor_lt_two_pow hx hy
  · exact Nat.and_lt_two_pow x hy

theorem viewBit_map (o : BitOp) (W : Nat) (na nb : Bool) (ps : List (Nat × Nat)) (k : Nat) :
    viewBit W (o.bit na nb) (ps.map (fun p => o.digit p.1 p.2)) k =
      o.bit (viewBit W na (ps.map Prod.fst) k) (viewBit W nb (ps.map Prod.snd) k) := by
  induction ps generalizing k with
  | nil => rfl
  | cons p ps ih =>
    simp only [List.map_cons, viewBit]
    split
    · exact testBit_digit o _ _ _
    · exact ih _

theorem intBit_negSucc (m k : Nat) : intBit (Int.negSucc m) k = !m.testBit k := by
  unfold intBit
  have e : Int.negSucc m / 2 ^ k = -(((m / 2 ^ k : Nat) : Int) + 1) := by
    rw [Int.negSucc_ediv _ (by positivity)]; rfl
  rw [e, Nat.testBit_eq_decide_div_mod_eq, ← decide_not]
  apply decide_eq_decide.2
  omega

/-- Two integers with the same bits are equal (R131: the bits fix the result). -/
theorem intBit_ext {x y : Int} (h : ∀ k, intBit x k = intBit y k) : x = y := by
  have mixed : ∀ a b : Nat, ¬ ∀ k, intBit (a : Int) k = intBit (Int.negSucc b) k := by
    intro a b hk
    have := hk (a + b)
    rw [intBit_natCast, intBit_negSucc,
      Nat.testBit_lt_two_pow (lt_of_le_of_lt (Nat.le_add_right a b) Nat.lt_two_pow_self),
      Nat.testBit_lt_two_pow (lt_of_le_of_lt (Nat.le_add_left b a) Nat.lt_two_pow_self)] at this
    simp at this
  cases x with
  | ofNat a =>
    cases y with
    | ofNat b =>
      have : a = b := Nat.eq_of_testBit_eq (fun k => by rw [← intBit_natCast, ← intBit_natCast]; exact h k)
      rw [this]
    | negSucc b => exact absurd h (mixed a b)
  | negSucc a =>
    cases y with
    | ofNat b => exact absurd (fun k => (h k).symm) (mixed b a)
    | negSucc b =>
      have : a = b := Nat.eq_of_testBit_eq (fun k => by
        have := h k
        rw [intBit_negSucc, intBit_negSucc] at this
        simpa using this)
      rw [this]

theorem View.op_spec {W : Nat} (o : BitOp) {a b : View} (ha : ∀ d ∈ a.digits, d < 2 ^ W)
    (hb : ∀ d ∈ b.digits, d < 2 ^ W) :
    (∀ k, intBit (cval (2 ^ W) (a.op (2 ^ W) o b).neg (a.op (2 ^ W) o b).digits) k =
        o.bit (intBit (cval (2 ^ W) a.neg a.digits) k) (intBit (cval (2 ^ W) b.neg b.digits) k)) ∧
      ∀ d ∈ (a.op (2 ^ W) o b).digits, d < 2 ^ W := by
  have hB : 0 < 2 ^ W := by positivity
  have hfa : a.fill (2 ^ W) < 2 ^ W := by unfold View.fill; split <;> omega
  have hfb : b.fill (2 ^ W) < 2 ^ W := by unfold View.fill; split <;> omega
  have hd : ∀ d ∈ (a.op (2 ^ W) o b).digits, d < 2 ^ W := by
    intro d hd
    obtain ⟨p, hp, rfl⟩ := List.mem_map.1 hd
    have := aligned_lt ha hb hfa hfb p hp
    exact digit_lt o this.1 this.2
  refine ⟨fun k => ?_, hd⟩
  have ea := cval_resize (2 ^ W) hB a.neg a.digits (max a.digits.length b.digits.length) (le_max_left _ _)
  have eb := cval_resize (2 ^ W) hB b.neg b.digits (max a.digits.length b.digits.length) (le_max_right _ _)
  change cval (2 ^ W) a.neg (resize (a.fill (2 ^ W)) a.digits _) = _ at ea
  change cval (2 ^ W) b.neg (resize (b.fill (2 ^ W)) b.digits _) = _ at eb
  rw [intBit_cval hd, ← ea, ← eb, intBit_cval (resize_lt ha hfa), intBit_cval (resize_lt hb hfb)]
  simp only [View.op]
  rw [viewBit_map, aligned_fst, aligned_snd]

/-- The datapath of OR, XOR and AND computes the integer whose bits are the operator's, and whose sign is the operator of
the signs (R127, R130, R131). -/
theorem canon_bitwise2 {W : Nat} (hW : 1 ≤ W) (o : BitOp) {x y : Number} (hx : x.Canonical (2 ^ W))
    (hy : y.Canonical (2 ^ W)) :
    ∃ z : Int, (∀ k, intBit z k = o.bit (intBit (x.value (2 ^ W)) k) (intBit (y.value (2 ^ W)) k)) ∧
      decide (z < 0) = o.bit (decide (x.value (2 ^ W) < 0)) (decide (y.value (2 ^ W) < 0)) ∧
      canon (bitwise2 (2 ^ W) o x y) = num (2 ^ W) z := by
  have hB : 2 ≤ 2 ^ W := by
    calc 2 = 2 ^ 1 := rfl
      _ ≤ 2 ^ W := Nat.pow_le_pow_right (by omega) hW
  obtain ⟨vx, lx, nx⟩ := toComplement_spec hB hx
  obtain ⟨vy, ly, ny⟩ := toComplement_spec hB hy
  obtain ⟨hbits, hlt⟩ := View.op_spec o lx ly
  obtain ⟨h1, h2, h3⟩ := fromComplement_spec hB hlt
  refine ⟨cval (2 ^ W) ((toComplement (2 ^ W) x).op (2 ^ W) o (toComplement (2 ^ W) y)).neg
      ((toComplement (2 ^ W) x).op (2 ^ W) o (toComplement (2 ^ W) y)).digits, fun k => ?_, ?_, ?_⟩
  · rw [hbits, vx, vy]
  · rw [← vx, ← vy]
    simp only [cval_neg_iff hlt, cval_neg_iff lx, cval_neg_iff ly, Bool.decide_eq_true]
    rfl
  · rw [bitwise2, canon_eq_num hB h2 h3, h1]

/-- "OR with a negative operand is never below that operand", and is negative (R138). -/
theorem or_ge_of_neg {x y z : Int} (hx : x < 0) (h : ∀ k, intBit z k = (intBit x k || intBit y k)) :
    x ≤ z ∧ z < 0 := by
  obtain ⟨m, rfl⟩ := Int.eq_negSucc_of_lt_zero hx
  cases z with
  | ofNat a =>
    have := h (a + m)
    rw [Int.ofNat_eq_natCast, intBit_natCast, intBit_negSucc,
      Nat.testBit_lt_two_pow (lt_of_le_of_lt (Nat.le_add_right a m) Nat.lt_two_pow_self),
      Nat.testBit_lt_two_pow (lt_of_le_of_lt (Nat.le_add_left m a) Nat.lt_two_pow_self)] at this
    simp at this
  | negSucc p =>
    refine ⟨?_, by omega⟩
    have hand : p &&& m = p := Nat.eq_of_testBit_eq (fun k => by
      have := h k
      rw [intBit_negSucc, intBit_negSucc] at this
      rw [Nat.testBit_and]
      cases hp : p.testBit k <;> cases hm : m.testBit k <;> simp_all)
    have := Nat.and_le_right (n := p) (m := m)
    omega

/-- OR of two nonnegative integers below `2^n` is nonnegative and below `2^n`. -/
theorem or_lt_of_nonneg {x y z : Int} {n : Nat} (hx : 0 ≤ x) (hy : 0 ≤ y) (hxn : x < 2 ^ n) (hyn : y < 2 ^ n)
    (h : ∀ k, intBit z k = (intBit x k || intBit y k)) : 0 ≤ z ∧ z < 2 ^ n := by
  obtain ⟨a, rfl⟩ := Int.eq_ofNat_of_zero_le hx
  obtain ⟨b, rfl⟩ := Int.eq_ofNat_of_zero_le hy
  have hz : z = ((a ||| b : Nat) : Int) := intBit_ext (fun k => by
    rw [h, intBit_natCast, intBit_natCast, intBit_natCast, Nat.testBit_or])
  have := Nat.or_lt_two_pow (n := n) (x := a) (y := b) (by exact_mod_cast hxn) (by exact_mod_cast hyn)
  rw [hz]
  exact ⟨by positivity, by exact_mod_cast this⟩

theorem intBit_div (x : Int) (n k : Nat) : intBit (x / 2 ^ n) k = intBit x (n + k) := by
  unfold intBit
  rw [Int.ediv_ediv_of_nonneg (by positivity), ← pow_add]

/-- An integer within `n` bits of two's complement has its sign in every bit from `n` on (R131). -/
theorem intBit_of_range {x : Int} {n : Nat} (h : -(2 ^ n) ≤ x ∧ x < 2 ^ n) (k : Nat) :
    intBit x (n + k) = decide (x < 0) := by
  rw [← intBit_div]
  have hp : (0 : Int) < 2 ^ n := by positivity
  by_cases hx : x < 0
  · have e : x / 2 ^ n = -1 := Int.ediv_eq_neg_one_of_neg_of_le hx (by omega)
    rw [e, intBit_neg_one, decide_eq_true hx]
  · have e : x / 2 ^ n = 0 := Int.ediv_eq_zero_of_lt (by omega) h.2
    rw [e, decide_eq_false hx]
    simpa using intBit_natCast 0 k

/-- Every result of a bitwise operator on integers within `n` bits is within `n` bits (R138). -/
theorem bitOp_range (o : BitOp) {x y z : Int} {n : Nat} (hx : -(2 ^ n) ≤ x ∧ x < 2 ^ n) (hy : -(2 ^ n) ≤ y ∧ y < 2 ^ n)
    (h : ∀ k, intBit z k = o.bit (intBit x k) (intBit y k)) :
    (-(2 ^ n) ≤ z ∧ z < 2 ^ n) ∧ decide (z < 0) = o.bit (decide (x < 0)) (decide (y < 0)) := by
  have hp : (0 : Int) < 2 ^ n := by positivity
  have hz : ∀ k, intBit (z / 2 ^ n) k = o.bit (decide (x < 0)) (decide (y < 0)) := fun k => by
    rw [intBit_div, h, intBit_of_range hx, intBit_of_range hy]
  have hm := Int.emod_add_mul_ediv z (2 ^ n)
  have h0 := Int.emod_nonneg z (ne_of_gt hp)
  have h1 := Int.emod_lt_of_pos z hp
  cases hb : o.bit (decide (x < 0)) (decide (y < 0))
  · have e : z / 2 ^ n = 0 := intBit_ext (fun k => by
      rw [hz, hb]; simpa using (intBit_natCast 0 k).symm)
    rw [e, mul_zero] at hm
    exact ⟨by omega, decide_eq_false (by omega)⟩
  · have e : z / 2 ^ n = -1 := intBit_ext (fun k => by rw [hz, hb, intBit_neg_one])
    rw [e] at hm
    exact ⟨by omega, decide_eq_true (by omega)⟩

end Sys2Proof.Machine
end

