-- ==== Sys2Proof/Laws/Multiply.lean ====
section
/-! SUPPORT. What the multiplier computes (41_construction_conversion R74, 43_multiply R98, R99). -/

namespace Sys2Proof.Machine

theorem val_mulCarry (B c : Nat) (a : Digits) (carry : Nat) :
    val B (mulCarry B c a carry) = val B a * c + carry := by
  induction a generalizing carry with
  | nil => simp [mulCarry]
  | cons x xs ih =>
    simp only [mulCarry, val_cons, ih]
    have := Nat.mod_add_div (x * c + carry) B
    calc (x * c + carry) % B + B * (val B xs * c + (x * c + carry) / B)
        = (x * c + carry) % B + B * ((x * c + carry) / B) + B * val B xs * c := by ring
      _ = (x + B * val B xs) * c + carry := by rw [this]; ring

@[simp] theorem length_mulCarry (B c : Nat) (a : Digits) (carry : Nat) :
    (mulCarry B c a carry).length = a.length + 1 := by
  induction a generalizing carry with
  | nil => rfl
  | cons x xs ih => simp [mulCarry, ih]

theorem carry_lt {B x y p c : Nat} (hx : x < B) (hy : y < B) (hp : p < B) (hc : c < B) :
    (x * y + p + c) / B < B := by
  apply (Nat.div_lt_iff_lt_mul (by omega)).2
  have h1 : x * y ≤ (B - 1) * (B - 1) := Nat.mul_le_mul (by omega) (by omega)
  have h2 : (B - 1) * (B - 1) + 2 * (B - 1) + 1 = B * B := by
    obtain ⟨k, rfl⟩ : ∃ k, B = k + 1 := ⟨B - 1, by omega⟩
    simp; ring
  omega

theorem mulCarry_lt {B c : Nat} (hc : c < B) {a : Digits} (ha : ∀ d ∈ a, d < B) {carry : Nat} (hk : carry < B) :
    ∀ d ∈ mulCarry B c a carry, d < B := by
  induction a generalizing carry with
  | nil => simpa [mulCarry] using hk
  | cons x xs ih =>
    have hx : x < B := ha x (by simp)
    intro d hd
    rcases List.mem_cons.1 hd with rfl | hd
    · exact Nat.mod_lt _ (by omega)
    · refine ih (fun e he => ha e (by simp [he])) ?_ d hd
      simpa using carry_lt hx hc (show 0 < B by omega) hk

/-- `val(r) = val(a) * c`, `len(a)+1` digits below `B` (R74). -/
theorem mulSmall_spec {B c : Nat} (hc : c < B) {a : Digits} (ha : ∀ d ∈ a, d < B) :
    val B (mulSmall B a c) = val B a * c ∧ (mulSmall B a c).length = a.length + 1 ∧ ∀ d ∈ mulSmall B a c, d < B :=
  ⟨by simp [mulSmall, val_mulCarry], by simp [mulSmall], mulCarry_lt hc ha (by omega)⟩

theorem val_mulRow (B x : Nat) (ps : List (Nat × Nat)) (carry : Nat) :
    val B (mulRow B x ps carry) = x * val B (ps.map Prod.fst) + val B (ps.map Prod.snd) + carry := by
  induction ps generalizing carry with
  | nil => simp [mulRow]
  | cons p ps ih =>
    obtain ⟨y, p⟩ := p
    simp only [mulRow, val_cons, ih, List.map_cons]
    have := Nat.mod_add_div (x * y + p + carry) B
    calc (x * y + p + carry) % B + B * (x * val B (ps.map Prod.fst) + val B (ps.map Prod.snd) + (x * y + p + carry) / B)
        = (x * y + p + carry) % B + B * ((x * y + p + carry) / B) +
            B * (x * val B (ps.map Prod.fst) + val B (ps.map Prod.snd)) := by ring
      _ = x * (y + B * val B (ps.map Prod.fst)) + (p + B * val B (ps.map Prod.snd)) + carry := by rw [this]; ring

@[simp] theorem length_mulRow (B x : Nat) (ps : List (Nat × Nat)) (carry : Nat) :
    (mulRow B x ps carry).length = ps.length + 1 := by
  induction ps generalizing carry with
  | nil => rfl
  | cons p ps ih => simp [mulRow, ih]

theorem mulRow_lt {B x : Nat} (hx : x < B) {ps : List (Nat × Nat)} (h : ∀ p ∈ ps, p.1 < B ∧ p.2 < B) {carry : Nat}
    (hk : carry < B) : ∀ d ∈ mulRow B x ps carry, d < B := by
  induction ps generalizing carry with
  | nil => simpa [mulRow] using hk
  | cons p ps ih =>
    obtain ⟨y, p⟩ := p
    have hyp := h (y, p) (by simp)
    intro d hd
    rcases List.mem_cons.1 hd with rfl | hd
    · exact Nat.mod_lt _ (by omega)
    · exact ih (fun q hq => h q (by simp [hq])) (carry_lt hx hyp.1 hyp.2 hk) d hd

theorem mulRows_spec {B : Nat} {b : Digits} (hb : ∀ d ∈ b, d < B) {a p : Digits} (ha : ∀ d ∈ a, d < B)
    (hp : ∀ d ∈ p, d < B) (hl : p.length = b.length) :
    val B (mulRows B b a p) = val B a * val B b + val B p ∧ (mulRows B b a p).length = a.length + b.length ∧
      ∀ d ∈ mulRows B b a p, d < B := by
  induction a generalizing p with
  | nil => simp [mulRows, hl]; exact hp
  | cons x xs ih =>
    have hx : x < B := ha x (by simp)
    have hv := val_mulRow B x (b.zip p) 0
    have hlen := length_mulRow B x (b.zip p) 0
    have hzip : ∀ q ∈ b.zip p, q.1 < B ∧ q.2 < B := fun q hq =>
      ⟨hb _ (List.of_mem_zip (by simpa using hq : (q.1, q.2) ∈ _)).1,
       hp _ (List.of_mem_zip (by simpa using hq : (q.1, q.2) ∈ _)).2⟩
    have hlt := mulRow_lt hx hzip (carry := 0) (by omega)
    rw [List.map_fst_zip (by omega), List.map_snd_zip (by omega)] at hv
    cases hr : mulRow B x (b.zip p) 0 with
    | nil => simp [hr] at hlen
    | cons d ds =>
      rw [hr] at hv hlen hlt
      simp only [List.length_cons, List.length_zip, hl, min_self, Nat.add_right_cancel_iff] at hlen
      obtain ⟨h1, h2, h3⟩ := ih (fun e he => ha e (by simp [he])) (p := ds)
        (fun e he => hlt e (by simp [he])) hlen
      refine ⟨?_, by simp [mulRows, hr, h2]; omega, ?_⟩
      · simp only [mulRows, hr, val_cons, h1]
        rw [val_cons] at hv
        calc d + B * (val B xs * val B b + val B ds) = (d + B * val B ds) + B * val B xs * val B b := by ring
          _ = (x + B * val B xs) * val B b + val B p := by rw [hv]; ring
      · intro e he
        simp only [mulRows, hr] at he
        rcases List.mem_cons.1 he with rfl | he
        · exact hlt _ (by simp)
        · exact h3 e he

/-- `val(p) = val(a) * val(b)`, `len(a)+len(b)` digits below `B` (R97, R98). -/
theorem mulMagnitude_spec {B : Nat} {a b : Digits} (ha : ∀ d ∈ a, d < B) (hb : ∀ d ∈ b, d < B) (hB : 0 < B) :
    val B (mulMagnitude B a b) = val B a * val B b ∧ (mulMagnitude B a b).length = a.length + b.length ∧
      ∀ d ∈ mulMagnitude B a b, d < B := by
  have := mulRows_spec hb ha (p := List.replicate b.length 0)
    (fun d hd => by rw [List.eq_of_mem_replicate hd]; exact hB) (by simp)
  rwa [val_replicate_zero, add_zero] at this

/-- The sign of a product or quotient: the tag whose `neg` bit is the XOR of the operands' (R99, R118). -/
theorem value_xor_sign (B : Nat) (x y : Number) (m : Digits) :
    Number.value B { sign := SignTag.ofBits (x.sign.neg ^^ y.sign.neg) false, digits := m } =
      (if x.sign.neg then -1 else 1) * (if y.sign.neg then -1 else 1) * (val B m : Int) := by
  cases x.sign.neg <;> cases y.sign.neg <;> simp [Number.value, SignTag.ofBits, SignTag.neg]

theorem value_eq_sign_mul (B : Nat) (x : Number) :
    x.value B = (if x.sign.neg then -1 else 1) * (val B x.digits : Int) := by
  unfold Number.value; split <;> simp

/-- MUL's datapath computes the product (R99, R100). -/
theorem canon_mulSigned {B : Nat} (hB : 2 ≤ B) {x y : Number} (hx : x.Canonical B) (hy : y.Canonical B) :
    canon (mulSigned B x y) = num B (x.value B * y.value B) := by
  obtain ⟨h1, _, h3⟩ := mulMagnitude_spec (canonical_digits_lt hx) (canonical_digits_lt hy) (by omega)
  have hv : (mulSigned B x y).value B = x.value B * y.value B := by
    rw [mulSigned, value_xor_sign, h1, value_eq_sign_mul B x, value_eq_sign_mul B y]; push_cast; ring
  rw [canon_eq_num hB h3 (by cases h : x.sign.neg <;> cases h' : y.sign.neg <;> simp [mulSigned, h, h', SignTag.ofBits, SignTag.cpl]), hv]

end Sys2Proof.Machine
end

