-- ==== Sys2Proof/Laws/Divide.lean ====
section
/-! SUPPORT. What the divider computes: the single-digit path (44_divide R105), one position of Algorithm D with the bounds
of its estimate (R110, R112, R116), the whole of Algorithm D, and that INVARIANT is never raised on canonical operands
(R112, R145). -/

namespace Sys2Proof.Machine

/-- `val(a) = val(q) * d + rem` with `rem < d` and one quotient digit below `B` for each digit of `a` (R104, R105). -/
theorem divSmall_spec {B d : Nat} (hd : 0 < d) {a : Digits} (ha : ∀ x ∈ a, x < B) :
    val B a = val B (divSmall B d a).1 * d + (divSmall B d a).2 ∧ (divSmall B d a).2 < d ∧
      (divSmall B d a).1.length = a.length ∧ ∀ x ∈ (divSmall B d a).1, x < B := by
  induction a with
  | nil => simpa [divSmall] using hd
  | cons x xs ih =>
    obtain ⟨h1, h2, h3, h4⟩ := ih (fun e he => ha e (by simp [he]))
    have hx : x < B := ha x (by simp)
    simp only [divSmall, val_cons, List.length_cons, h3, List.mem_cons, forall_eq_or_imp]
    generalize (divSmall B d xs).2 = r at *
    generalize (divSmall B d xs).1 = q at *
    refine ⟨?_, Nat.mod_lt _ hd, trivial, ?_, h4⟩
    · have := Nat.div_add_mod (r * B + x) d
      rw [h1]
      calc x + B * (val B q * d + r) = r * B + x + B * val B q * d := by ring
        _ = ((r * B + x) / d + B * val B q) * d + (r * B + x) % d := by
          conv_lhs => rw [← this]
          ring
    · apply (Nat.div_lt_iff_lt_mul hd).2
      have : (r + 1) * B ≤ d * B := Nat.mul_le_mul_right B h2
      rw [mul_comm B d]; rw [Nat.add_mul] at this; omega

/-! Step 1 (R108). -/

theorem normShift_spec {half W top : Nat} (h1 : 1 ≤ top) (h2 : top < 2 * half) (h3 : half ≤ top * 2 ^ W) :
    half ≤ top * 2 ^ normShift half W top ∧ top * 2 ^ normShift half W top < 2 * half ∧ normShift half W top ≤ W := by
  induction W generalizing top with
  | zero => simp only [normShift]; omega
  | succ W ih =>
    simp only [normShift]
    split
    · rename_i h; simp; omega
    · rename_i h
      obtain ⟨e1, e2, e3⟩ := ih (top := 2 * top) (by omega) (by omega) (by rw [pow_succ] at h3; linarith)
      rw [pow_succ]
      refine ⟨by linarith, by linarith, by omega⟩

theorem val_shiftLeftCarry (B d : Nat) (x : Digits) (c : Nat) (hB : 0 < B) :
    val B (shiftLeftCarry B d x c) = (val B x * 2 ^ d + c) % B ^ x.length ∧
      (shiftLeftCarry B d x c).length = x.length ∧ ∀ e ∈ shiftLeftCarry B d x c, e < B := by
  induction x generalizing c with
  | nil => simp [shiftLeftCarry, Nat.mod_one]
  | cons y ys ih =>
    obtain ⟨h1, h2, h3⟩ := ih ((y * 2 ^ d + c) / B)
    simp only [shiftLeftCarry, val_cons, List.length_cons, h2, List.mem_cons, forall_eq_or_imp]
    refine ⟨?_, trivial, Nat.mod_lt _ hB, h3⟩
    rw [h1, pow_succ, mul_comm (B ^ ys.length), Nat.mod_mul]
    have e : (y + B * val B ys) * 2 ^ d + c = y * 2 ^ d + c + B * (val B ys * 2 ^ d) := by ring
    rw [e, Nat.add_mul_mod_self_left, Nat.add_mul_div_left _ _ hB, Nat.add_comm (_ / B)]

theorem shiftLeft_spec {B d m : Nat} (hB : 0 < B) {x : Digits} (hl : x.length ≤ m) (hv : val B x * 2 ^ d < B ^ m) :
    val B (shiftLeft B x d m) = val B x * 2 ^ d ∧ (shiftLeft B x d m).length = m ∧ ∀ e ∈ shiftLeft B x d m, e < B := by
  obtain ⟨h1, h2, h3⟩ := val_shiftLeftCarry B d (resize 0 x m) 0 hB
  rw [val_resize_zero _ _ _ hl, length_resize, Nat.add_zero, Nat.mod_eq_of_lt hv] at h1
  exact ⟨h1, by rw [shiftLeft, h2, length_resize], h3⟩

theorem headD_eq_mod {B : Nat} {x : Digits} (h : ∀ e ∈ x, e < B) : x.headD 0 = val B x % B := by
  cases x with
  | nil => simp
  | cons y ys => simp [Nat.mod_eq_of_lt (h y (by simp))]

theorem shiftRight_spec {B d k : Nat} (hk : B = 2 ^ d * k) (hB : 0 < B) {x : Digits} (h : ∀ e ∈ x, e < B) :
    val B (shiftRight B d x) = val B x / 2 ^ d ∧ ∀ e ∈ shiftRight B d x, e < B := by
  have hd : 0 < 2 ^ d := by positivity
  have hk0 : 0 < k := Nat.pos_of_ne_zero (by rintro rfl; omega)
  induction x with
  | nil => simp [shiftRight]
  | cons y ys ih =>
    obtain ⟨h1, h2⟩ := ih (fun e he => h e (by simp [he]))
    simp only [shiftRight, val_cons, h1, List.mem_cons, forall_eq_or_imp]
    refine ⟨?_, Nat.mod_lt _ hB, h2⟩
    rw [headD_eq_mod (fun e he => h e (by simp [he]))]
    have hy : y / 2 ^ d < k := (Nat.div_lt_iff_lt_mul hd).2 (by rw [mul_comm, ← hk]; exact h y (by simp))
    set R := val B ys
    have e1 : ∀ t, (t * B + y) / 2 ^ d = y / 2 ^ d + k * t := by
      intro t
      rw [show t * B + y = y + 2 ^ d * (k * t) by rw [hk]; ring, Nat.add_mul_div_left _ _ hd]
    have e2 : (y / 2 ^ d + k * (R % B)) / B = R % B / 2 ^ d := by
      rw [hk, mul_comm (2 ^ d), ← Nat.div_div_eq_div_mul, Nat.add_mul_div_left _ _ hk0,
        Nat.div_eq_of_lt hy, zero_add]
    have e3 : R / 2 ^ d = R % B / 2 ^ d + k * (R / B) := by
      conv_lhs => rw [← Nat.mod_add_div R B, hk, mul_assoc]
      rw [Nat.add_mul_div_left _ _ hd, ← hk]
    have e4 := Nat.mod_add_div (y / 2 ^ d + k * (R % B)) B
    have e5 := Nat.mod_add_div R B
    rw [show y + B * R = R * B + y by ring, e1, e1, e3]
    rw [e2] at e4
    calc (y / 2 ^ d + k * (R % B)) % B + B * (R % B / 2 ^ d + k * (R / B))
        = (y / 2 ^ d + k * (R % B)) % B + B * (R % B / 2 ^ d) + k * (B * (R / B)) := by ring
      _ = y / 2 ^ d + k * (R % B + B * (R / B)) := by rw [e4]; ring
      _ = y / 2 ^ d + k * R := by rw [e5]

/-! Steps 2 and 3 (R109, R110, R116). -/

theorem val_split (B : Nat) {x : Digits} {m : Nat} (h : m ≤ x.length) :
    val B x = val B (x.take m) + B ^ m * val B (x.drop m) := by
  conv_lhs => rw [← List.take_append_drop m x]
  rw [val_append, List.length_take, min_eq_left h]

theorem val_drop (B : Nat) {x : Digits} {m : Nat} (h : m < x.length) :
    val B (x.drop m) = x.getD m 0 + B * val B (x.drop (m + 1)) := by
  rw [List.drop_eq_getElem_cons h, val_cons, List.getD_eq_getElem _ _ h]

theorem take_lt {B : Nat} {x : Digits} (h : ∀ e ∈ x, e < B) (m : Nat) : ∀ e ∈ x.take m, e < B :=
  fun e he => h e (List.mem_of_mem_take he)

theorem getD_lt {B : Nat} (hB : 0 < B) {x : Digits} (h : ∀ e ∈ x, e < B) (i : Nat) : x.getD i 0 < B := by
  rw [List.getD_eq_getElem?_getD]
  cases hx : x[i]? with
  | none => simpa using hB
  | some e => simpa using h e (List.mem_of_getElem? hx)

/-- The correction loop keeps `value = qhat * v1 + rhat` and every true bound of the estimate, and when it ends its test
is false, because two passes bring `rhat` to `B` or above (R110). -/
theorem correct_spec {B v1 v2 u0 value Q : Nat} 
    (hlow : ∀ q r, value = q * v1 + r → Q ≤ q → (q = B ∨ r * B + u0 < q * v2) → Q + 1 ≤ q)
    (n qhat rhat : Nat) (hval : value = qhat * v1 + rhat) (hQ : Q ≤ qhat) (hn : B ≤ rhat + n * v1) :
    ∃ rhat', value = correct B v1 v2 u0 n qhat rhat * v1 + rhat' ∧ Q ≤ correct B v1 v2 u0 n qhat rhat ∧
      (B ≤ rhat' ∨ (correct B v1 v2 u0 n qhat rhat ≠ B ∧ correct B v1 v2 u0 n qhat rhat * v2 ≤ rhat' * B + u0)) := by
  induction n generalizing qhat rhat with
  | zero => exact ⟨rhat, hval, hQ, .inl (by simpa using hn)⟩
  | succ n ih =>
    simp only [correct]
    split
    · rename_i h
      have h1 := hlow qhat rhat hval hQ h.2
      obtain ⟨q, rfl⟩ : ∃ q, qhat = q + 1 := ⟨qhat - 1, by omega⟩
      exact ih q (rhat + v1) (by rw [hval]; ring) (by omega) (by rw [Nat.add_mul] at hn; omega)
    · rename_i h
      refine ⟨rhat, hval, hQ, ?_⟩
      by_contra hc
      push Not at hc
      exact h ⟨hc.1, by_contra fun h2 => by push Not at h2; exact absurd (hc.2 h2.1) (by omega)⟩

/-- The arithmetic of one estimate, over plain numbers: `V = (v1*B + v2)*P + vl` is the divisor, `N = (value*B + u0)*P +
wl` the window, `Q` the true digit (G2). -/
theorem estimate_bounds {B P V N vl wl v1 v2 u0 value Q : Nat} (hP : 0 < P) (hv2 : v2 < B) (hu0 : u0 < B)
    (hvl : vl < P) (hwl : wl < P) (eV : V = vl + P * (v1 * B + v2)) (eN : N = wl + P * (value * B + u0))
    (hnorm : B ≤ 2 * v1) (hwin : N < B * V) (hQ : Q = N / V) :
    Q ≤ correct B v1 v2 u0 2 (value / v1) (value % v1) ∧ correct B v1 v2 u0 2 (value / v1) (value % v1) ≤ Q + 1 ∧
      correct B v1 v2 u0 2 (value / v1) (value % v1) ≤ B - 1 := by
  have hv1 : 0 < v1 := by omega
  have hBv : B ≤ B * v1 := Nat.le_mul_of_pos_right _ hv1
  have hV : 0 < V := by
    have : 0 < P * (v1 * B + v2) := Nat.mul_pos hP (by rw [mul_comm]; omega)
    omega
  have hVle : V ≤ P * (v1 * B + v2 + 1) := by rw [Nat.mul_succ]; omega
  have hNle : P * (value * B + u0) ≤ N := by omega
  have hNlt : N < P * (value * B + u0 + 1) := by rw [Nat.mul_succ]; omega
  have hQB : Q < B := by rw [hQ]; exact (Nat.div_lt_iff_lt_mul hV).2 hwin
  have hQV : Q * V ≤ N := by rw [hQ]; exact Nat.div_mul_le_self N V
  have hle : value ≤ v1 * B + v2 := by
    have h1 : P * (value * B) < P * ((v1 * B + v2 + 1) * B) := by
      calc P * (value * B) ≤ P * (value * B + u0) := Nat.mul_le_mul_left _ (by omega)
        _ ≤ N := hNle
        _ < B * V := hwin
        _ ≤ B * (P * (v1 * B + v2 + 1)) := Nat.mul_le_mul_left _ hVle
        _ = P * ((v1 * B + v2 + 1) * B) := by ring
    have h2 := Nat.lt_of_mul_lt_mul_right (Nat.lt_of_mul_lt_mul_left h1)
    omega
  have hup : Q * v1 * B + Q * v2 ≤ value * B + u0 := by
    have h1 : P * (Q * v1 * B + Q * v2) < P * (value * B + u0 + 1) := by
      calc P * (Q * v1 * B + Q * v2) = Q * (P * (v1 * B + v2)) := by ring
        _ ≤ Q * V := Nat.mul_le_mul_left _ (by omega)
        _ < _ := lt_of_le_of_lt hQV hNlt
    have := Nat.lt_of_mul_lt_mul_left h1
    omega
  have hQ0 : Q ≤ value / v1 := by
    apply (Nat.le_div_iff_mul_le hv1).2
    have h1 : Q * v1 * B < (value + 1) * B := by rw [Nat.add_mul]; omega
    have := Nat.lt_of_mul_lt_mul_right h1
    omega
  obtain ⟨r, e1, e2, e3⟩ := correct_spec (B := B) (v1 := v1) (v2 := v2) (u0 := u0) (value := value) (Q := Q)
    (by
      intro q r hq hQq h
      rcases h with rfl | h
      · exact hQB
      · by_contra hc
        have hqQ : Q = q := by omega
        rw [hqQ, hq, Nat.add_mul] at hup
        omega)
    2 (value / v1) (value % v1) (by rw [mul_comm]; exact (Nat.div_add_mod value v1).symm) hQ0 (by omega)
  generalize correct B v1 v2 u0 2 (value / v1) (value % v1) = q at *
  have hcomm : v1 * B = B * v1 := mul_comm _ _
  have hq : q ≤ B - 1 := by
    rcases e3 with h | ⟨h1, h2⟩
    · have : q * v1 < B * v1 := by omega
      have := Nat.lt_of_mul_lt_mul_right this
      omega
    · by_contra hc
      have hq1 : B + 1 ≤ q := by omega
      have h3 : (B + 1) * v1 ≤ q * v1 := Nat.mul_le_mul_right _ hq1
      have h4 : v1 + r ≤ v2 := by rw [Nat.add_mul] at h3; omega
      have h5 : (B + 1) * (v1 + r) ≤ q * v2 := Nat.mul_le_mul hq1 h4
      rw [Nat.add_mul, Nat.mul_add, mul_comm B r] at h5
      omega
  have hq2 : q * v2 ≤ r * B + u0 := by
    rcases e3 with h | ⟨_, h2⟩
    · have h1 : q * v2 ≤ B * B := Nat.mul_le_mul (by omega) (by omega)
      have h2 : B * B ≤ r * B := Nat.mul_le_mul_right _ h
      omega
    · exact h2
  refine ⟨e2, ?_, hq⟩
  rcases Nat.eq_zero_or_pos q with h0 | h0
  · omega
  · obtain ⟨k, rfl⟩ : ∃ k, q = k + 1 := ⟨q - 1, by omega⟩
    have : k ≤ Q := by
      rw [hQ]
      apply (Nat.le_div_iff_mul_le hV).2
      calc k * V ≤ k * (P * (v1 * B + v2 + 1)) := Nat.mul_le_mul_left _ hVle
        _ = P * (k * v1 * B + k * v2 + k) := by ring
        _ ≤ P * (value * B + u0) := Nat.mul_le_mul_left _ (by
            rw [Nat.add_mul] at hq2 e1
            rw [e1, one_mul, Nat.add_mul, Nat.add_mul]
            omega)
        _ ≤ N := hNle
    omega

/-- The corrected estimate is the true quotient digit or one above it, and at most `B - 1` (R110, R116; G2). -/
theorem estimate_spec {B : Nat} {vn w : Digits} {m : Nat} (hn : vn.length = m + 2)
    (hw : w.length = m + 3) (lv : ∀ e ∈ vn, e < B) (lw : ∀ e ∈ w, e < B) (hB0 : 0 < B)
    (hnorm : B ≤ 2 * vn.getD (m + 1) 0) (hwin : val B w < B * val B vn) :
    val B w / val B vn ≤ estimate B vn w ∧ estimate B vn w ≤ val B w / val B vn + 1 ∧ estimate B vn w ≤ B - 1 := by
  have eV : val B vn = val B (vn.take m) + B ^ m * (vn.getD (m + 1) 0 * B + vn.getD m 0) := by
    rw [val_split B (x := vn) (m := m) (by omega), val_drop B (by omega), val_drop B (by omega),
      List.drop_eq_nil_of_le (by omega : vn.length ≤ m + 1 + 1), val_nil]
    ring
  have eN : val B w =
      val B (w.take m) + B ^ m * ((w.getD (m + 2) 0 * B + w.getD (m + 1) 0) * B + w.getD m 0) := by
    rw [val_split B (x := w) (m := m) (by omega), val_drop B (by omega), val_drop B (by omega),
      val_drop B (by omega), List.drop_eq_nil_of_le (by omega : w.length ≤ m + 1 + 1 + 1), val_nil]
    ring
  have hvl : val B (vn.take m) < B ^ m := by
    have := val_lt (take_lt lv m); rwa [List.length_take, min_eq_left (by omega)] at this
  have hwl : val B (w.take m) < B ^ m := by
    have := val_lt (take_lt lw m); rwa [List.length_take, min_eq_left (by omega)] at this
  have hest : estimate B vn w = correct B (vn.getD (m + 1) 0) (vn.getD m 0) (w.getD m 0) 2
      ((w.getD (m + 2) 0 * B + w.getD (m + 1) 0) / vn.getD (m + 1) 0)
      ((w.getD (m + 2) 0 * B + w.getD (m + 1) 0) % vn.getD (m + 1) 0) := by
    simp only [estimate, hn, Nat.add_sub_cancel, show m + 2 - 1 = m + 1 by omega]
  rw [hest]
  exact estimate_bounds (Nat.pow_pos hB0) (getD_lt hB0 lv _) (getD_lt hB0 lw _) hvl hwl eV eN hnorm hwin rfl

/-! Steps 4 to 7 (R111-R115). -/

/-- One position: the digit is the true one, the borrow chain ends with no borrow, and the low `n` digits hold the rest
(R111, R112). -/
theorem divStep_spec {B : Nat} {vn w : Digits} {m : Nat} (hn : vn.length = m + 2) (hw : w.length = m + 3)
    (lv : ∀ e ∈ vn, e < B) (lw : ∀ e ∈ w, e < B) (hB0 : 0 < B) (hnorm : B ≤ 2 * vn.getD (m + 1) 0)
    (hwin : val B w < B * val B vn) :
    ∃ q r, divStep B vn w = some (q, r) ∧ val B w = q * val B vn + val B r ∧ val B r < val B vn ∧ q < B ∧
      r.length = vn.length ∧ ∀ e ∈ r, e < B := by
  obtain ⟨h1, h2, h3⟩ := estimate_spec hn hw lv lw hB0 hnorm hwin
  have hV : 0 < val B vn := Nat.pos_of_ne_zero (fun h => by rw [h] at hwin; omega)
  obtain ⟨m1, m2, m3⟩ := mulSmall_spec (c := estimate B vn w) (by omega) lv
  have hcmp := cmpMagnitude_eq hB0 m3 lw
  have hdm := Nat.div_add_mod (val B w) (val B vn)
  have hmod := Nat.mod_lt (val B w) hV
  have hdlt : val B w / val B vn < B := (Nat.div_lt_iff_lt_mul hV).2 hwin
  -- the product after step 4, and the digit it belongs to
  have key : ∃ q qv, (if cmpMagnitude (mulSmall B vn (estimate B vn w)) w = .gt then estimate B vn w - 1
        else estimate B vn w) = q ∧
      (if cmpMagnitude (mulSmall B vn (estimate B vn w)) w = .gt
        then subMagnitude B (mulSmall B vn (estimate B vn w)) vn else mulSmall B vn (estimate B vn w)) = qv ∧
      q = val B w / val B vn ∧ val B qv = val B vn * q ∧ qv.length = m + 3 ∧ ∀ e ∈ qv, e < B := by
    by_cases hgt : val B w < val B (mulSmall B vn (estimate B vn w))
    · rw [hcmp, Nat.compare_eq_gt.2 hgt, if_pos rfl, if_pos rfl]
      have hq1 : estimate B vn w = val B w / val B vn + 1 := by
        rcases Nat.lt_or_ge (val B w / val B vn) (estimate B vn w) with h | h
        · omega
        · have : estimate B vn w = val B w / val B vn := by omega
          rw [m1, this] at hgt; omega
      have hqv : val B (mulSmall B vn (estimate B vn w)) = val B vn * (val B w / val B vn) + val B vn := by
        rw [m1, hq1, Nat.mul_succ]
      have hsub := val_subMagnitude hB0 m3 lv (by omega) (by omega)
      refine ⟨_, _, rfl, rfl, by rw [hq1, Nat.add_sub_cancel], ?_, ?_, subMagnitude_lt hB0 m3 lv⟩
      · rw [hsub, hqv, hq1, Nat.add_sub_cancel, Nat.add_sub_cancel]
      · rw [subMagnitude, (subChain_spec hB0 m3 lv (by omega)).2.2.2, m2, hn]
    · have hne : cmpMagnitude (mulSmall B vn (estimate B vn w)) w ≠ .gt := by
        rw [hcmp]; intro h; exact hgt (Nat.compare_eq_gt.1 h)
      rw [if_neg hne, if_neg hne]
      refine ⟨_, _, rfl, rfl, ?_, m1, by rw [m2, hn], m3⟩
      rcases Nat.lt_or_ge (val B w / val B vn) (estimate B vn w) with h | h
      · have h4 : estimate B vn w = val B w / val B vn + 1 := by omega
        rw [m1, h4, Nat.mul_succ] at hgt; omega
      · omega
  obtain ⟨q, qv, e1, e2, e3, e4, e5, e6⟩ := key
  obtain ⟨s1, s2⟩ := subChain_of_le hB0 lw e6 (by omega) (by rw [e4, e3]; omega)
  obtain ⟨_, _, s3, s4⟩ := subChain_spec hB0 lw e6 (by omega)
  have hval : val B (subChain B w qv).1 = val B w % val B vn := by rw [s2, e4, e3]; omega
  have htake : val B ((subChain B w qv).1.take vn.length) = val B w % val B vn := by
    have h5 := val_split B (x := (subChain B w qv).1) (m := vn.length) (by omega)
    rw [hval] at h5
    have h6 := val_lt lv
    have h7 : val B ((subChain B w qv).1.drop vn.length) = 0 := by
      by_contra h0
      have := Nat.le_mul_of_pos_right (B ^ vn.length) (Nat.pos_of_ne_zero h0)
      omega
    rw [h7] at h5; omega
  refine ⟨q, (subChain B w qv).1.take vn.length, ?_, ?_, by rw [htake]; exact hmod, by omega, ?_, take_lt s3 _⟩
  · simp only [divStep, e1, e2, s1, if_true]
  · rw [htake, e3, mul_comm]; omega
  · rw [List.length_take, s4]; omega

/-- The loop over the quotient positions (R109, R113): it never meets a borrow. -/
theorem divLoop_spec {B : Nat} {vn : Digits} {m : Nat} (hn : vn.length = m + 2) (lv : ∀ e ∈ vn, e < B)
    (hB0 : 0 < B) (hnorm : B ≤ 2 * vn.getD (m + 1) 0) {us r : Digits} (lu : ∀ e ∈ us, e < B)
    (lr : ∀ e ∈ r, e < B) (hr : r.length = vn.length) (hlt : val B r < val B vn) :
    ∃ q r', divLoop B vn us r = .ok (q, r') ∧
      val B us + B ^ us.length * val B r = val B q * val B vn + val B r' ∧ val B r' < val B vn ∧
      q.length = us.length ∧ (∀ e ∈ q, e < B) ∧ r'.length = vn.length ∧ ∀ e ∈ r', e < B := by
  induction us with
  | nil => exact ⟨[], r, rfl, by simp, hlt, rfl, by simp, hr, lr⟩
  | cons u us ih =>
    obtain ⟨q, r', h1, h2, h3, h4, h5, h6, h7⟩ := ih (fun e he => lu e (by simp [he]))
    have hu : u < B := lu u (by simp)
    have hwin : val B (u :: r') < B * val B vn := by
      have : B * (val B r' + 1) ≤ B * val B vn := Nat.mul_le_mul_left B h3
      rw [Nat.mul_succ] at this
      rw [val_cons]; omega
    obtain ⟨d, r'', g1, g2, g3, g4, g5, g6⟩ := divStep_spec (w := u :: r') hn (by simp [h6, hn]) lv
      (by simpa using ⟨hu, h7⟩) hB0 hnorm hwin
    refine ⟨d :: q, r'', by simp [divLoop, h1, g1], ?_, g3, by simp [h4], by simpa using ⟨g4, h5⟩, g5, g6⟩
    rw [val_cons] at g2
    simp only [val_cons, List.length_cons, pow_succ]
    calc u + B * val B us + B ^ us.length * B * val B r
        = u + B * (val B us + B ^ us.length * val B r) := by ring
      _ = (u + B * val B r') + B * val B q * val B vn := by rw [h2]; ring
      _ = (d + B * val B q) * val B vn + val B r'' := by rw [g2]; ring

theorem getD_top_pow {B : Nat} {vn : Digits} {m : Nat} (hn : vn.length = m + 2) :
    val B vn = val B (vn.take (m + 1)) + B ^ (m + 1) * vn.getD (m + 1) 0 := by
  rw [val_split B (x := vn) (m := m + 1) (by omega), val_drop B (by omega),
    List.drop_eq_nil_of_le (by omega : vn.length ≤ m + 1 + 1), val_nil]
  ring

/-- Algorithm D divides (R115), and the fatal INVARIANT of step 5 does not occur (R112, R145). -/
theorem algorithmD_spec {W : Nat} (hW : 1 ≤ W) {a v : Digits} (la : ∀ e ∈ a, e < 2 ^ W) (lv : ∀ e ∈ v, e < 2 ^ W)
    (tv : v.getLastD 0 ≠ 0) (hn : 2 ≤ v.length) (hl : v.length ≤ a.length) :
    ∃ q r, algorithmD W a v = .ok (q, r) ∧ val (2 ^ W) a = val (2 ^ W) q * val (2 ^ W) v + val (2 ^ W) r ∧
      val (2 ^ W) r < val (2 ^ W) v ∧ q.length = a.length - v.length + 1 ∧ (∀ e ∈ q, e < 2 ^ W) ∧
      ∀ e ∈ r, e < 2 ^ W := by
  obtain ⟨m, hm⟩ : ∃ m, v.length = m + 2 := ⟨v.length - 2, by omega⟩
  have hB0 : 0 < 2 ^ W := by positivity
  have hhalf : 2 * (2 ^ W / 2) = 2 ^ W := by
    obtain ⟨k, rfl⟩ : ∃ k, W = k + 1 := ⟨W - 1, by omega⟩
    rw [pow_succ, Nat.mul_div_cancel _ (by omega), mul_comm]
  have htop : v.getD (m + 1) 0 ≠ 0 := by
    rwa [List.getLastD_eq_getLast?, List.getLast?_eq_getElem?, hm, ← List.getD_eq_getElem?_getD] at tv
  have htopB : v.getD (m + 1) 0 < 2 ^ W := getD_lt hB0 lv _
  obtain ⟨d1, d2, d3⟩ := normShift_spec (half := 2 ^ W / 2) (W := W) (top := v.getD (m + 1) 0) (by omega) (by omega)
    (by have := Nat.le_mul_of_pos_left (2 ^ W) (Nat.pos_of_ne_zero htop); omega)
  set d := normShift (2 ^ W / 2) W (v.getD (m + 1) 0) with hd
  have h2d : 0 < 2 ^ d := by positivity
  -- the shifted divisor
  have etop := getD_top_pow (B := 2 ^ W) hm
  have ltake : val (2 ^ W) (v.take (m + 1)) < (2 ^ W) ^ (m + 1) := by
    have := val_lt (take_lt lv (m + 1)); rwa [List.length_take, min_eq_left (by omega)] at this
  obtain ⟨kk, hkk⟩ : ∃ k, 2 ^ W = 2 ^ d * k := ⟨2 ^ (W - d), by rw [← pow_add]; congr 1; omega⟩
  have hvlt : val (2 ^ W) v * 2 ^ d < (2 ^ W) ^ v.length := by
    -- the top digit times 2^d is at most B - 2^d, because both are multiples of 2^d
    have h1 : v.getD (m + 1) 0 + 1 ≤ kk := by
      by_contra hc
      have : kk * 2 ^ d ≤ v.getD (m + 1) 0 * 2 ^ d := Nat.mul_le_mul_right _ (by omega)
      rw [mul_comm kk] at this; omega
    calc val (2 ^ W) v * 2 ^ d < ((2 ^ W) ^ (m + 1) * (v.getD (m + 1) 0 + 1)) * 2 ^ d := by
          apply Nat.mul_lt_mul_of_pos_right _ h2d
          rw [etop, Nat.mul_succ]; omega
      _ ≤ ((2 ^ W) ^ (m + 1) * kk) * 2 ^ d := Nat.mul_le_mul_right _ (Nat.mul_le_mul_left _ h1)
      _ = (2 ^ W) ^ v.length := by rw [hm, pow_succ (2 ^ W) (m + 1), mul_assoc, mul_comm kk, ← hkk]
  obtain ⟨v1, v2, v3⟩ := shiftLeft_spec hB0 (le_refl v.length) hvlt
  have halt := val_lt la
  have h2dB : 2 ^ d ≤ 2 ^ W := Nat.pow_le_pow_right (by omega) d3
  have hult : val (2 ^ W) a * 2 ^ d < (2 ^ W) ^ (a.length + 1) := by
    rw [pow_succ]
    calc val (2 ^ W) a * 2 ^ d < (2 ^ W) ^ a.length * 2 ^ d := Nat.mul_lt_mul_of_pos_right halt h2d
      _ ≤ _ := Nat.mul_le_mul_left _ h2dB
  obtain ⟨u1, u2, u3⟩ := shiftLeft_spec hB0 (by omega : a.length ≤ a.length + 1) hult
  set vn := shiftLeft (2 ^ W) v d v.length with hvn
  set un := shiftLeft (2 ^ W) a d (a.length + 1) with hun
  set k := a.length + 1 - v.length with hk
  have hsplit := val_split (2 ^ W) (x := un) (m := k) (by omega)
  have hnorm : 2 ^ W ≤ 2 * vn.getD (m + 1) 0 := by
    have e1 := getD_top_pow (B := 2 ^ W) (vn := vn) (m := m) (by omega)
    have l1 : val (2 ^ W) (vn.take (m + 1)) < (2 ^ W) ^ (m + 1) := by
      have := val_lt (take_lt v3 (m + 1)); rwa [List.length_take, min_eq_left (by omega)] at this
    have e2 : (2 ^ W) ^ (m + 1) * (v.getD (m + 1) 0 * 2 ^ d) < (2 ^ W) ^ (m + 1) * (vn.getD (m + 1) 0 + 1) := by
      calc (2 ^ W) ^ (m + 1) * (v.getD (m + 1) 0 * 2 ^ d)
          = ((2 ^ W) ^ (m + 1) * v.getD (m + 1) 0) * 2 ^ d := by ring
        _ ≤ val (2 ^ W) v * 2 ^ d := Nat.mul_le_mul_right _ (by omega)
        _ = val (2 ^ W) vn := v1.symm
        _ < _ := by rw [e1, Nat.mul_succ]; omega
    have := Nat.lt_of_mul_lt_mul_left e2
    omega
  have hr0 : val (2 ^ W) (un.drop k) < val (2 ^ W) vn := by
    have h1 : (2 ^ W) ^ (v.length - 1) ≤ val (2 ^ W) v := pow_le_val tv
    have h2 : (2 ^ W) ^ k * val (2 ^ W) (un.drop k) < (2 ^ W) ^ k * val (2 ^ W) vn := by
      calc (2 ^ W) ^ k * val (2 ^ W) (un.drop k) ≤ val (2 ^ W) a * 2 ^ d := by rw [← u1, hsplit]; omega
        _ < (2 ^ W) ^ a.length * 2 ^ d := Nat.mul_lt_mul_of_pos_right halt h2d
        _ = (2 ^ W) ^ k * ((2 ^ W) ^ (v.length - 1) * 2 ^ d) := by
            rw [← mul_assoc, ← pow_add]; congr 2; omega
        _ ≤ (2 ^ W) ^ k * (val (2 ^ W) v * 2 ^ d) := Nat.mul_le_mul_left _ (Nat.mul_le_mul_right _ h1)
        _ = _ := by rw [v1]
    exact Nat.lt_of_mul_lt_mul_left h2
  obtain ⟨q, r, g1, g2, g3, g4, g5, g6, g7⟩ := divLoop_spec (us := un.take k) (r := un.drop k) (by omega) v3 hB0 hnorm
    (take_lt u3 k) (fun e he => u3 e (List.mem_of_mem_drop he)) (by rw [List.length_drop]; omega) hr0
  obtain ⟨s1, s2⟩ := shiftRight_spec hkk hB0 g7
  rw [List.length_take, min_eq_left (by omega), ← hsplit, u1, v1] at g2
  have hdvd : 2 ^ d ∣ val (2 ^ W) r := by
    have h1 : 2 ^ d ∣ val (2 ^ W) q * (val (2 ^ W) v * 2 ^ d) := Dvd.intro_left _ (mul_assoc _ _ _)
    exact (Nat.dvd_add_right h1).1 (g2 ▸ Dvd.intro_left _ rfl)
  obtain ⟨ρ, hρ⟩ := hdvd
  have hs : val (2 ^ W) (shiftRight (2 ^ W) d r) = ρ := by rw [s1, hρ, Nat.mul_div_cancel_left _ h2d]
  refine ⟨q, shiftRight (2 ^ W) d r, ?_, ?_, ?_, ?_, g5, s2⟩
  · simp only [algorithmD, hm, show m + 2 - 1 = m + 1 by omega, ← hd]
    rw [show shiftLeft (2 ^ W) v d (m + 2) = vn by rw [hvn, hm], ← hun,
      show a.length + 1 - (m + 2) = k by omega, g1]
  · rw [hs]
    apply Nat.eq_of_mul_eq_mul_right h2d
    rw [g2, hρ]; ring
  · rw [hs]
    rw [v1, hρ, mul_comm] at g3
    exact Nat.lt_of_mul_lt_mul_right g3
  · rw [g4, List.length_take]; omega

/-- `divMagnitude` divides, on every one of its three paths (R103). -/
theorem divMagnitude_spec {W : Nat} (hW : 1 ≤ W) {a v : Digits} (la : ∀ e ∈ a, e < 2 ^ W) (lv : ∀ e ∈ v, e < 2 ^ W)
    (ta : a.getLastD 0 ≠ 0 ∨ a = [0]) (tv : v.getLastD 0 ≠ 0) :
    ∃ q r, divMagnitude W a v = .ok (q, r) ∧ val (2 ^ W) a = val (2 ^ W) q * val (2 ^ W) v + val (2 ^ W) r ∧
      val (2 ^ W) r < val (2 ^ W) v ∧ (∀ e ∈ q, e < 2 ^ W) ∧ ∀ e ∈ r, e < 2 ^ W := by
  have hB : 2 ≤ 2 ^ W := by
    calc 2 = 2 ^ 1 := rfl
      _ ≤ 2 ^ W := Nat.pow_le_pow_right (by omega) hW
  unfold divMagnitude
  split
  · rename_i hl
    obtain ⟨d, rfl⟩ := List.length_eq_one_iff.1 hl
    have hd : d ≠ 0 := by simpa using tv
    have hdB : d < 2 ^ W := lv d (by simp)
    obtain ⟨h1, h2, _, h4⟩ := divSmall_spec (Nat.pos_of_ne_zero hd) la
    refine ⟨_, _, rfl, by simpa using h1, by simpa using h2, h4, ?_⟩
    simp only [List.mem_singleton, forall_eq]
    have : (divSmall (2 ^ W) ([d].getD 0 0) a).2 < d := h2
    omega
  · rename_i hl
    split
    · rename_i hlt
      refine ⟨_, _, rfl, by simp, ?_, by simp, la⟩
      exact Nat.lt_of_not_le fun h => absurd (length_le_of_val_le hB la (.inl tv) (by rintro rfl; simp at ta) h) (by omega)
    · rename_i hge
      have hv0 : v.length ≠ 0 := fun h => tv (by rw [List.length_eq_zero_iff.1 h]; rfl)
      obtain ⟨q, r, h1, h2, h3, _, h5, h6⟩ := algorithmD_spec hW la lv tv (by omega) (by omega)
      exact ⟨q, r, h1, h2, h3, h5, h6⟩

/-- The divider's results for a divisor that is not zero: the quotient truncated toward zero and the remainder with the
dividend's sign (R117-R119). -/
theorem canon_divSigned {W : Nat} (hW : 1 ≤ W) {x y : Number} (hx : x.Canonical (2 ^ W)) (hy : y.Canonical (2 ^ W))
    (h0 : y.value (2 ^ W) ≠ 0) :
    ∃ q r, divSigned W x y = .ok (q, r) ∧
      canon q = num (2 ^ W) (Int.tdiv (x.value (2 ^ W)) (y.value (2 ^ W))) ∧
      canon r = num (2 ^ W) (Int.tmod (x.value (2 ^ W)) (y.value (2 ^ W))) := by
  have hB : 2 ≤ 2 ^ W := by
    calc 2 = 2 ^ 1 := rfl
      _ ≤ 2 ^ W := Nat.pow_le_pow_right (by omega) hW
  have hy0 : y.digits ≠ [0] := fun h => h0 ((value_eq_zero_iff (by omega) hy).2 h)
  obtain ⟨q, r, h1, h2, h3, h4, h5⟩ := divMagnitude_spec hW (canonical_digits_lt hx) (canonical_digits_lt hy) hx.2.1
    (hy.2.1.resolve_right hy0)
  have hq : val (2 ^ W) q = val (2 ^ W) x.digits / val (2 ^ W) y.digits := by
    rw [h2, Nat.add_comm, Nat.add_mul_div_right _ _ (by omega), Nat.div_eq_of_lt h3, zero_add]
  have hr : val (2 ^ W) r = val (2 ^ W) x.digits % val (2 ^ W) y.digits := by
    rw [h2, Nat.add_comm, Nat.add_mul_mod_self_right, Nat.mod_eq_of_lt h3]
  refine ⟨{ sign := SignTag.ofBits (x.sign.neg ^^ y.sign.neg) false, digits := q }, { sign := x.sign, digits := r },
    by rw [divSigned, if_neg hy0, h1], ?_, ?_⟩
  · rw [canon_eq_num hB h4 (by dsimp only; cases x.sign.neg <;> cases y.sign.neg <;> rfl), value_xor_sign, hq]
    unfold Number.value
    push_cast
    rw [← Int.tdiv_eq_ediv_of_nonneg (by positivity : (0 : Int) ≤ val (2 ^ W) x.digits)]
    congr 1
    cases x.sign.neg <;> cases y.sign.neg <;> simp [Int.neg_tdiv, Int.tdiv_neg]
  · rw [canon_eq_num hB (n := { sign := x.sign, digits := r }) h5 hx.2.2.2.2]
    unfold Number.value
    dsimp only
    rw [hr, Int.natCast_emod, ← Int.tmod_eq_emod_of_nonneg (by positivity)]
    congr 1
    cases x.sign.neg <;> cases y.sign.neg <;> simp [Int.neg_tmod, Int.tmod_neg]

/-- DIVZERO is raised exactly for a divisor of value zero (R119). -/
theorem divSigned_zero {W : Nat} {x y : Number} (hy : y.Canonical (2 ^ W)) (h0 : y.value (2 ^ W) = 0) :
    divSigned W x y = .error .divzero := by
  rw [divSigned, if_pos ((value_eq_zero_iff (by positivity) hy).1 h0)]

end Sys2Proof.Machine
end

