-- ==== Sys2Proof/Laws/Convert.lean ====
section
/-! SUPPORT. What the conversions compute (41_construction_conversion): the machine-integer patterns (R71-R73), the magnitude
of a decimal text (R77-R79), and the canonical text of a Number (R81-R83). -/

namespace Sys2Proof

/-! The build parameters (R5-R7). -/

theorem Config.W_pos (c : Config) : 1 ≤ c.W := by unfold Config.W; cases c.digit <;> decide

theorem Config.B_eq (c : Config) : c.B = 2 ^ c.W := rfl

theorem Config.ND_pos (c : Config) : 1 ≤ c.ND := by unfold Config.ND; cases c.machine <;> decide

theorem Config.ND_le_two (c : Config) : c.ND ≤ 2 := by unfold Config.ND; cases c.machine <;> decide

theorem Config.B_pow_ND (c : Config) : c.B ^ c.ND = 2 ^ c.IW := by
  rw [Config.B_eq, ← pow_mul, Config.IW, mul_comm]

theorem Config.IW_pos (c : Config) : 1 ≤ c.IW := Nat.mul_pos c.ND_pos c.W_pos

/-- `10^D` is one digit (R6). -/
theorem Config.ten_pow_D_lt (c : Config) : 10 ^ c.D < c.B := by
  unfold Config.D Config.B Config.W; cases c.digit <;> decide

theorem Config.D_pos (c : Config) : 1 ≤ c.D := by unfold Config.D; cases c.digit <;> decide

/-- Two decimal chunks hold a digit (R169). -/
theorem Config.B_le_ten_pow (c : Config) : c.B ≤ (10 ^ c.D) ^ 2 := by
  unfold Config.D Config.B Config.W; cases c.digit <;> decide

namespace Machine

/-! Machine integers. -/

/-- FROMINT's Number stands for the signed value of the pattern (R71, R72). -/
theorem canon_fromPattern (c : Config) {p : Nat} (hp : p < 2 ^ c.IW) :
    canon (fromPattern c p) = num c.B (signedPattern c.IW p) := by
  have hB := c.two_le_B
  have hpow : 2 ^ c.IW = 2 * 2 ^ (c.IW - 1) := by
    obtain ⟨k, hk⟩ : ∃ k, c.IW = k + 1 := ⟨c.IW - 1, by have := c.IW_pos; omega⟩
    rw [hk, pow_succ, Nat.add_sub_cancel, mul_comm]
  have hpos : 0 < 2 ^ (c.IW - 1) := by positivity
  unfold fromPattern signedPattern
  split
  · rw [canon_eq_num hB (n := { sign := .negative, digits := digitsOf c.B c.ND (2 ^ c.IW - p) })
      (digitsOf_lt (by omega) _ _) rfl]
    congr 1
    simp only [Number.value, SignTag.neg, if_true, val_digitsOf, Config.B_pow_ND]
    rw [Nat.mod_eq_of_lt (by omega)]
    have : ((2 : Int) ^ c.IW) = ((2 ^ c.IW : Nat) : Int) := by push_cast; rfl
    rw [this]; omega
  · rw [canon_eq_num hB (n := { sign := .positive, digits := digitsOf c.B c.ND p }) (digitsOf_lt (by omega) _ _) rfl]
    congr 1
    simp only [Number.value, SignTag.neg, Bool.false_eq_true, if_false, val_digitsOf, Config.B_pow_ND]
    rw [Nat.mod_eq_of_lt hp]

/-- FROMINT's result has at most `ND` digits, so it always fits (R71). -/
theorem size_canon_fromPattern (c : Config) (p : Nat) : (canon (fromPattern c p)).size ≤ c.ND := by
  have h : (fromPattern c p).digits.length = c.ND := by unfold fromPattern; split <;> simp
  have h1 : (normalize (fromPattern c p).digits).length ≤ c.ND := by
    rw [← h]; exact length_normalize_le (by rw [h]; exact c.ND_pos)
  unfold canon Number.size
  split
  · simpa using c.ND_pos
  · exact h1

theorem val_take_eq_mod {B : Nat} {a : Digits} (h : ∀ d ∈ a, d < B) (n : Nat) :
    val B (a.take n) = val B a % B ^ n := by
  have h1 := val_lt (take_lt h n)
  rcases Nat.lt_or_ge a.length n with hl | hl
  · rw [List.take_of_length_le (by omega)] at h1 ⊢
    by_cases hB : B = 0
    · subst hB
      cases a with
      | nil => simp [Nat.zero_mod]
      | cons x xs => exact absurd (h x (by simp)) (by omega)
    · rw [Nat.mod_eq_of_lt (lt_of_lt_of_le h1 (Nat.pow_le_pow_right (by omega) (by omega)))]
  · rw [List.length_take, min_eq_left hl] at h1
    conv_rhs => rw [val_split B hl, Nat.add_mul_mod_self_left, Nat.mod_eq_of_lt h1]

/-- TOINT's pattern is the value modulo `2^IW` (R73). -/
theorem toPattern_eq (c : Config) {n : Number} (h : n.Canonical c.B) :
    (toPattern c n : Int) = n.value c.B % 2 ^ c.IW := by
  have hm : val c.B (n.digits.take c.ND) = val c.B n.digits % 2 ^ c.IW := by
    rw [val_take_eq_mod (canonical_digits_lt h), Config.B_pow_ND]
  have hpos : 0 < 2 ^ c.IW := by positivity
  have e : ((2 : Int) ^ c.IW) = ((2 ^ c.IW : Nat) : Int) := by push_cast; rfl
  unfold toPattern Number.value
  rw [e]
  dsimp only
  rw [hm]
  split
  · generalize val c.B n.digits = v
    generalize 2 ^ c.IW = M at *
    have hlt := Nat.mod_lt v hpos
    have hdm := Nat.div_add_mod v M
    rw [Int.natCast_emod, Int.ofNat_sub hlt.le, Int.sub_emod, Int.emod_self, ← Int.emod_emod_of_dvd (-(v : Int)) (dvd_refl _),
      ← Int.zero_sub (v : Int), Int.sub_emod 0 (v : Int)]
    simp
  · push_cast; rfl

theorem toPattern_lt (c : Config) {n : Number} (h : n.Canonical c.B) : toPattern c n < 2 ^ c.IW := by
  have h1 := toPattern_eq c h
  have h2 : n.value c.B % 2 ^ c.IW < 2 ^ c.IW := Int.emod_lt_of_pos _ (by positivity)
  rw [← h1] at h2
  exact_mod_cast h2

end Machine

end Sys2Proof
end

