-- ==== Sys2Proof/Laws/Decimal.lean ====
section
/-! SUPPORT. The Base Converter (41_construction_conversion): decimal text to magnitude (R76-R79) and magnitude to the
canonical decimal text (R81-R83). -/

namespace Sys2Proof.Machine

theorem textMagnitude_append (as bs : List Byte) :
    textMagnitude (as ++ bs) = textMagnitude as * 10 ^ bs.length + textMagnitude bs := by
  induction as with
  | nil => simp [textMagnitude]
  | cons a as ih =>
    simp only [List.cons_append, textMagnitude, ih, List.length_append, pow_add]; ring

theorem digitOfChar_le {c : Byte} (h : isDigitChar c = true) : digitOfChar c ≤ 9 := by
  simp only [isDigitChar, Bool.and_eq_true, decide_eq_true_eq] at h
  unfold digitOfChar; omega

theorem textMagnitude_lt {cs : List Byte} (h : cs.all isDigitChar = true) : textMagnitude cs < 10 ^ cs.length := by
  induction cs with
  | nil => simp [textMagnitude]
  | cons c cs ih =>
    simp only [List.all_cons, Bool.and_eq_true] at h
    have h1 := digitOfChar_le h.1
    have h2 := ih h.2
    have h3 : digitOfChar c * 10 ^ cs.length ≤ 9 * 10 ^ cs.length := Nat.mul_le_mul_right _ h1
    rw [textMagnitude, List.length_cons, pow_succ]; omega

/-- `chunkValue` is the magnitude of the chunk (R79). -/
theorem chunkValue_eq (cs : List Byte) : chunkValue cs = textMagnitude cs := by
  have h : ∀ v, cs.foldl (fun v c => v * 10 + digitOfChar c) v = v * 10 ^ cs.length + textMagnitude cs := by
    induction cs with
    | nil => simp [textMagnitude]
    | cons c cs ih => intro v; simp only [List.foldl_cons, ih, textMagnitude, List.length_cons, pow_succ]; ring
  simpa [chunkValue] using h 0

/-- One step of the accumulation (R78). -/
theorem accumulateStep_spec (c : Config) {v : Digits} (hv : ∀ d ∈ v, d < c.B) {chunk : List Byte}
    (hd : chunk.all isDigitChar = true) (hl : chunk.length ≤ c.D) :
    val c.B (accumulateStep c.B c.D v chunk) = val c.B v * 10 ^ c.D + textMagnitude chunk ∧
      ∀ d ∈ accumulateStep c.B c.D v chunk, d < c.B := by
  have hB := c.two_le_B
  obtain ⟨h1, _, h3⟩ := mulSmall_spec c.ten_pow_D_lt hv
  have hc : chunkValue chunk < c.B := by
    rw [chunkValue_eq]
    exact lt_of_lt_of_le (textMagnitude_lt hd)
      (le_trans (Nat.pow_le_pow_right (by omega) hl) c.ten_pow_D_lt.le)
  unfold accumulateStep
  refine ⟨?_, normalize_lt (by omega) (addMagnitude_lt hB h3 (by simpa using hc))⟩
  rw [val_normalize, val_addMagnitude, h1, val_cons, val_nil, mul_zero, add_zero, chunkValue_eq]

theorem accumulateChunks_spec (c : Config) {n : Nat} {cs : List Byte} (hd : cs.all isDigitChar = true)
    (hl : cs.length = n * c.D) {v : Digits} (hv : ∀ d ∈ v, d < c.B) :
    val c.B (accumulateChunks c.B c.D n cs v) = val c.B v * 10 ^ cs.length + textMagnitude cs ∧
      ∀ d ∈ accumulateChunks c.B c.D n cs v, d < c.B := by
  induction n generalizing cs v with
  | zero =>
    have : cs = [] := List.length_eq_zero_iff.1 (by simpa using hl)
    subst this
    simpa [accumulateChunks, textMagnitude] using hv
  | succ n ih =>
    rw [Nat.add_mul, one_mul] at hl
    have hsplit := List.take_append_drop c.D cs
    have hall : (cs.take c.D).all isDigitChar = true ∧ (cs.drop c.D).all isDigitChar = true := by
      rw [← hsplit, List.all_append, Bool.and_eq_true] at hd; exact hd
    obtain ⟨h1, h2⟩ := accumulateStep_spec c hv hall.1 (by rw [List.length_take]; exact min_le_left _ _)
    obtain ⟨h3, h4⟩ := ih hall.2 (by rw [List.length_drop]; omega) h2
    refine ⟨?_, h4⟩
    rw [accumulateChunks, h3, h1]
    conv_rhs => rw [← hsplit, textMagnitude_append, List.length_append, pow_add,
      show (cs.take c.D).length = c.D by rw [List.length_take, min_eq_left (by omega)]]
    ring

/-- The accumulated digits have the magnitude of the text (R77, R78). -/
theorem accumulate_spec (c : Config) {cs : List Byte} (hd : cs.all isDigitChar = true) :
    val c.B (accumulate c.B c.D cs) = textMagnitude cs ∧ ∀ d ∈ accumulate c.B c.D cs, d < c.B := by
  have hB := c.two_le_B
  have hsplit := List.take_append_drop (cs.length % c.D) cs
  have hall : (cs.take (cs.length % c.D)).all isDigitChar = true ∧
      (cs.drop (cs.length % c.D)).all isDigitChar = true := by
    rw [← hsplit, List.all_append, Bool.and_eq_true] at hd; exact hd
  have hz : ∀ d ∈ ([0] : Digits), d < c.B := by simpa using (by omega : 0 < c.B)
  have hf : ∀ d ∈ (if cs.length % c.D = 0 then [0] else accumulateStep c.B c.D [0] (cs.take (cs.length % c.D))),
      d < c.B := by
    split
    · exact hz
    · exact (accumulateStep_spec c hz hall.1 (by
        rw [List.length_take]; have := Nat.mod_lt cs.length c.D_pos; omega)).2
  have hv : val c.B (if cs.length % c.D = 0 then [0] else accumulateStep c.B c.D [0] (cs.take (cs.length % c.D))) =
      textMagnitude (cs.take (cs.length % c.D)) := by
    split
    · rename_i h; simp [h, textMagnitude]
    · rw [(accumulateStep_spec c hz hall.1 (by
        rw [List.length_take]; have := Nat.mod_lt cs.length c.D_pos; omega)).1]
      simp
  have hlen : (cs.drop (cs.length % c.D)).length = cs.length / c.D * c.D := by
    rw [List.length_drop]
    have := Nat.div_add_mod cs.length c.D
    rw [mul_comm] at this; omega
  obtain ⟨h1, h2⟩ := accumulateChunks_spec c hall.2 hlen hf
  refine ⟨?_, h2⟩
  rw [accumulate]
  rw [h1, hv, ← textMagnitude_append, hsplit]

/-! Which texts are accepted, and what they denote (R76, R77). -/

theorem isDigitChar_ne_sign {b : Byte} (h : isDigitChar b = true) : b ≠ charPlus ∧ b ≠ charMinus := by
  constructor <;> rintro rfl <;> revert h <;> decide

/-- An accepted text gives the Number it denotes (R76, R77). -/
theorem parseText_denotes (c : Config) {text : List Byte} {x : Int} (h : Denotes text x) :
    ∃ n, parseText c text = .ok n ∧ canon n = num c.B x := by
  obtain ⟨cs, hne, hd, h⟩ := h
  have hB := c.two_le_B
  obtain ⟨hv, hlt⟩ := accumulate_spec c hd
  have go : ∀ sg : SignTag, sg.cpl = false → splitSign text = (sg, cs) →
      ∃ n, parseText c text = .ok n ∧
        canon n = num c.B (if sg.neg then -(textMagnitude cs : Int) else textMagnitude cs) := by
    intro sg hc hs
    refine ⟨{ sign := sg, digits := accumulate c.B c.D cs }, ?_, ?_⟩
    · rw [parseText, hs]; exact if_pos ⟨hne, hd⟩
    · rw [canon_eq_num hB (n := { sign := sg, digits := accumulate c.B c.D cs }) hlt hc, Number.value, hv]
  rcases h with ⟨rfl, rfl⟩ | ⟨rfl, rfl⟩ | ⟨rfl, rfl⟩
  · refine go .positive rfl ?_
    cases text with
    | nil => exact absurd rfl hne
    | cons b bs =>
      simp only [List.all_cons, Bool.and_eq_true] at hd
      obtain ⟨h1, h2⟩ := isDigitChar_ne_sign hd.1
      simp [splitSign, h1, h2]
  · exact go .positive rfl (by simp [splitSign])
  · exact go .negative rfl (by simp [splitSign, show charMinus ≠ charPlus by decide])

/-- A text that denotes nothing is rejected (R76, R143). -/
theorem parseText_error (c : Config) {text : List Byte} (h : ∀ x, ¬ Denotes text x) :
    parseText c text = .error .parse := by
  unfold parseText
  split
  · rename_i hs
    exfalso
    cases text with
    | nil => exact hs.1 rfl
    | cons b bs =>
      unfold splitSign at hs
      dsimp only at hs
      by_cases h1 : b = charPlus
      · rw [if_pos h1] at hs
        exact h _ ⟨bs, hs.1, hs.2, .inr (.inl ⟨by rw [h1], rfl⟩)⟩
      · rw [if_neg h1] at hs
        by_cases h2 : b = charMinus
        · rw [if_pos h2] at hs
          exact h _ ⟨bs, hs.1, hs.2, .inr (.inr ⟨by rw [h2], rfl⟩)⟩
        · rw [if_neg h2] at hs
          exact h _ ⟨b :: bs, hs.1, hs.2, .inl ⟨rfl, rfl⟩⟩
  · rfl

/-! Characters (R83). -/

theorem charOfDigit_spec {d : Nat} (h : d ≤ 9) : isDigitChar (charOfDigit d) = true ∧ digitOfChar (charOfDigit d) = d := by
  interval_cases d <;> decide

theorem decPadded_spec (n r : Nat) : (decPadded n r).length = n ∧ (decPadded n r).all isDigitChar = true ∧
    textMagnitude (decPadded n r) = r % 10 ^ n := by
  induction n generalizing r with
  | zero => simp [decPadded, textMagnitude, Nat.mod_one]
  | succ n ih =>
    obtain ⟨h1, h2, h3⟩ := ih (r / 10)
    obtain ⟨h4, h5⟩ := charOfDigit_spec (d := r % 10) (by omega)
    refine ⟨by simp [decPadded, h1], by simp [decPadded, h2, h4], ?_⟩
    rw [decPadded, textMagnitude_append, h3, pow_succ, mul_comm (10 ^ n), Nat.mod_mul]
    simp [textMagnitude, h5]; ring

theorem textMagnitude_dropWhile (cs : List Byte) :
    textMagnitude (cs.dropWhile (fun c => c == charOfDigit 0)) = textMagnitude cs := by
  induction cs with
  | nil => rfl
  | cons c cs ih =>
    rw [List.dropWhile_cons]
    split
    · rename_i h
      rw [ih, textMagnitude, eq_of_beq h]
      simp [show digitOfChar (charOfDigit 0) = 0 by decide]
    · rfl

/-- `decShort` of a chunk that is not zero: digit characters, the first not `'0'` (R83). -/
theorem decShort_spec {D r : Nat} (h0 : 0 < r) (hr : r < 10 ^ D) :
    decShort D r ≠ [] ∧ (decShort D r).all isDigitChar = true ∧ textMagnitude (decShort D r) = r ∧
      (decShort D r).head? ≠ some (charOfDigit 0) := by
  obtain ⟨h1, h2, h3⟩ := decPadded_spec D r
  rw [Nat.mod_eq_of_lt hr] at h3
  have hm : textMagnitude (decShort D r) = r := by rw [decShort, textMagnitude_dropWhile, h3]
  refine ⟨fun h => by rw [h] at hm; simp [textMagnitude] at hm; omega, ?_, hm, ?_⟩
  · rw [List.all_eq_true] at h2 ⊢
    exact fun x hx => h2 x (List.dropWhile_sublist _ |>.subset hx)
  · intro h
    have := List.head?_dropWhile_not (fun c => c == charOfDigit 0) (decPadded D r)
    rw [decShort] at h
    rw [h] at this
    simp at this

/-! The chunks of a magnitude (R82). -/

/-- The sum the chunks stand for. -/
def chunksValue (M : Nat) : List Nat → Nat
  | [] => 0
  | r :: rs => r + M * chunksValue M rs

theorem decChunks_spec {B D : Nat} (hB : 2 ≤ B) (hD : 0 < 10 ^ D) (n : Nat) {t : Digits} (ht : ∀ d ∈ t, d < B)
    (tt : t.getLastD 0 ≠ 0 ∨ t = [0]) (hlt : val B t < (10 ^ D) ^ n) :
    chunksValue (10 ^ D) (decChunks B D n t) = val B t ∧ (∀ r ∈ decChunks B D n t, r < 10 ^ D) ∧
      (decChunks B D n t).getLastD 1 ≠ 0 ∧ (decChunks B D n t = [] → t = [0]) := by
  have h00 : t = [0] ↔ val B t = 0 := (val_eq_zero_iff (by omega) tt).symm
  induction n generalizing t with
  | zero =>
    have hv : val B t = 0 := by simpa using hlt
    exact ⟨by simp [decChunks, chunksValue, hv], by simp [decChunks], by simp [decChunks], fun _ => h00.2 hv⟩
  | succ n ih =>
    rw [decChunks]
    split
    · rename_i h
      exact ⟨by rw [h00.1 h]; rfl, by simp, by simp, fun _ => h⟩
    · rename_i h
      obtain ⟨h1, h2, h3, h4⟩ := divSmall_spec hD ht
      have hq : val B (normalize (divSmall B (10 ^ D) t).1) = val B t / 10 ^ D := by
        rw [val_normalize, h1, Nat.add_comm, Nat.add_mul_div_right _ _ hD, Nat.div_eq_of_lt h2, zero_add]
      have hr : (divSmall B (10 ^ D) t).2 = val B t % 10 ^ D := by
        conv_rhs => rw [h1, Nat.add_comm, Nat.add_mul_mod_self_right, Nat.mod_eq_of_lt h2]
      have htt := normalize_top (divSmall B (10 ^ D) t).1
      obtain ⟨g1, g2, g3, g4⟩ := ih (normalize_lt (by omega) h4) htt
        (by rw [hq]; exact (Nat.div_lt_iff_lt_mul hD).2 (by rwa [pow_succ] at hlt))
        (val_eq_zero_iff (by omega) htt).symm
      refine ⟨?_, ?_, ?_, by simp⟩
      · rw [chunksValue, g1, hq, hr]; exact Nat.mod_add_div _ _
      · simpa using ⟨h2, g2⟩
      · cases hc : decChunks B D n (normalize (divSmall B (10 ^ D) t).1) with
        | cons x xs => rw [hc] at g3; simpa using g3
        | nil =>
          have hq0 : val B t / 10 ^ D = 0 := by rw [← hq, g4 hc]; rfl
          have hv0 : val B t ≠ 0 := fun hv => h (h00.2 hv)
          have := Nat.div_add_mod (val B t) (10 ^ D)
          rw [hq0] at this
          simp only [List.getLastD_cons, List.getLastD_nil]
          rw [hr]; omega

theorem chunksText_spec {D : Nat} {rs : List Nat} (hne : rs ≠ []) (hlt : ∀ r ∈ rs, r < 10 ^ D)
    (htop : rs.getLastD 1 ≠ 0) :
    chunksText D rs ≠ [] ∧ (chunksText D rs).all isDigitChar = true ∧
      textMagnitude (chunksText D rs) = chunksValue (10 ^ D) rs ∧
      (chunksText D rs).head? ≠ some (charOfDigit 0) := by
  induction rs with
  | nil => exact absurd rfl hne
  | cons r rs ih =>
    cases rs with
    | nil =>
      obtain ⟨h1, h2, h3, h4⟩ := decShort_spec (D := D) (Nat.pos_of_ne_zero (by simpa using htop)) (hlt r (by simp))
      exact ⟨h1, h2, by simpa [chunksText, chunksValue] using h3, h4⟩
    | cons r' rs =>
      obtain ⟨h1, h2, h3, h4⟩ := ih (by simp) (fun x hx => hlt x (by simp [hx])) (by simpa using htop)
      obtain ⟨p1, p2, p3⟩ := decPadded_spec D r
      rw [Nat.mod_eq_of_lt (hlt r (by simp))] at p3
      rw [chunksText]
      refine ⟨by simp [h1], by rw [List.all_append, h2, p2]; rfl, ?_, ?_⟩
      · rw [textMagnitude_append, h3, p1, p3]; simp only [chunksValue]; ring
      · rw [List.head?_append_of_ne_nil _ h1]; exact h4

/-- TODEC's text is the canonical text of the value (R81, R82). -/
theorem decimalText_canonical (c : Config) {n : Number} (h : n.Canonical c.B) :
    CanonicalText (decimalText c n) (n.value c.B) := by
  have hB := c.two_le_B
  unfold decimalText
  split
  · rename_i h0
    have hv := (value_eq_zero_iff (by omega) h).2 h0
    rw [hv]
    exact ⟨[charOfDigit 0], by simp, by decide, fun _ => rfl, by decide, by simp⟩
  · rename_i h0
    have hpow : val c.B n.digits < (10 ^ c.D) ^ (2 * n.digits.length) :=
      lt_of_lt_of_le (val_lt (canonical_digits_lt h)) (by rw [pow_mul]; exact Nat.pow_le_pow_left c.B_le_ten_pow _)
    obtain ⟨h1, h2, h3, h4⟩ := decChunks_spec (D := c.D) hB (by positivity) _ (canonical_digits_lt h) h.2.1 hpow
    obtain ⟨g1, g2, g3, g4⟩ := chunksText_spec (fun hn => h0 (h4 hn)) h2 h3
    refine ⟨_, g1, g2, fun hh => absurd hh g4, by rw [g3, h1, natAbs_value], ?_⟩
    congr 1
    have hpos : 0 < val c.B n.digits := Nat.pos_of_ne_zero (fun hv => h0 ((val_eq_zero_iff (by omega) h.2.1).1 hv))
    unfold Number.value
    cases n.sign.neg
    · simp
    · simp; omega

/-- Texts of digit characters of one length and one magnitude are equal. -/
theorem textMagnitude_inj {as bs : List Byte} (ha : as.all isDigitChar = true) (hb : bs.all isDigitChar = true)
    (hl : as.length = bs.length) (hm : textMagnitude as = textMagnitude bs) : as = bs := by
  induction as generalizing bs with
  | nil => exact (List.length_eq_zero_iff.1 hl.symm).symm
  | cons a as ih =>
    cases bs with
    | nil => simp at hl
    | cons b bs =>
      simp only [List.all_cons, Bool.and_eq_true] at ha hb
      simp only [List.length_cons, Nat.add_right_cancel_iff] at hl
      simp only [textMagnitude, ← hl] at hm
      have h1 := textMagnitude_lt ha.2
      have h2 := textMagnitude_lt hb.2
      rw [← hl] at h2
      have hp : 0 < 10 ^ as.length := by positivity
      have hd : digitOfChar a = digitOfChar b := by
        have e1 : (digitOfChar a * 10 ^ as.length + textMagnitude as) / 10 ^ as.length = digitOfChar a := by
          rw [Nat.add_comm, Nat.add_mul_div_right _ _ hp, Nat.div_eq_of_lt h1, zero_add]
        have e2 : (digitOfChar b * 10 ^ as.length + textMagnitude bs) / 10 ^ as.length = digitOfChar b := by
          rw [Nat.add_comm, Nat.add_mul_div_right _ _ hp, Nat.div_eq_of_lt h2, zero_add]
        rw [← e1, hm, e2]
      have hab : a = b := by
        apply BitVec.eq_of_toNat_eq
        have := ha.1
        have := hb.1
        simp only [isDigitChar, Bool.and_eq_true, decide_eq_true_eq] at *
        unfold digitOfChar at hd; omega
      rw [hd] at hm
      rw [hab, ih ha.2 hb.2 hl (by omega)]

/-- Without a leading zero the magnitude fixes the count of digit characters, to within the powers of ten. -/
theorem pow_le_textMagnitude {cs : List Byte} (hd : cs.all isDigitChar = true) (hne : cs ≠ [])
    (hz : cs.head? ≠ some (charOfDigit 0)) : 10 ^ (cs.length - 1) ≤ textMagnitude cs := by
  cases cs with
  | nil => exact absurd rfl hne
  | cons c cs =>
    simp only [List.all_cons, Bool.and_eq_true, isDigitChar, decide_eq_true_eq] at hd
    have hc : 1 ≤ digitOfChar c := by
      unfold digitOfChar
      by_contra h
      apply hz
      have : c.toNat = 0x30 := by omega
      rw [List.head?_cons]
      congr 1
      exact BitVec.eq_of_toNat_eq (by rw [this]; rfl)
    have := Nat.mul_le_mul_right (10 ^ cs.length) hc
    simp only [textMagnitude, List.length_cons, Nat.add_sub_cancel]
    omega

/-- The canonical text of a value denotes it (R77, R81, R84). -/
theorem CanonicalText.denotes {text : List Byte} {x : Int} (h : CanonicalText text x) : Denotes text x := by
  obtain ⟨cs, h1, h2, _, h4, h5⟩ := h
  refine ⟨cs, h1, h2, ?_⟩
  split at h5
  · exact .inr (.inr ⟨h5, by omega⟩)
  · exact .inl ⟨h5, by omega⟩

/-- Digit characters with no leading zero but the single digit `0`: the magnitude fixes their count (R81). -/
theorem length_of_no_leading_zero {cs : List Byte} (h1 : cs ≠ []) (h2 : cs.all isDigitChar = true)
    (h3 : cs.head? = some (charOfDigit 0) → cs = [charOfDigit 0]) :
    (textMagnitude cs = 0 → cs = [charOfDigit 0]) ∧
      (textMagnitude cs ≠ 0 → cs.length = Nat.log 10 (textMagnitude cs) + 1) := by
  by_cases hz : cs.head? = some (charOfDigit 0)
  · rw [h3 hz]; exact ⟨fun _ => rfl, fun h => absurd (by decide) h⟩
  · have := pow_le_textMagnitude h2 h1 hz
    have hp : 0 < 10 ^ (cs.length - 1) := by positivity
    have hl := List.length_pos_of_ne_nil h1
    refine ⟨fun h => by omega, fun h => ?_⟩
    have := Nat.log_eq_of_pow_le_of_lt_pow this
      (show textMagnitude cs < 10 ^ (cs.length - 1 + 1) by rw [Nat.sub_add_cancel hl]; exact textMagnitude_lt h2)
    omega

/-- An integer has one canonical text (R81). -/
theorem CanonicalText.unique {a b : List Byte} {x : Int} (ha : CanonicalText a x) (hb : CanonicalText b x) : a = b := by
  obtain ⟨cs, a1, a2, a3, a4, a5⟩ := ha
  obtain ⟨ds, b1, b2, b3, b4, b5⟩ := hb
  suffices cs = ds by subst this; rw [a5, b5]
  obtain ⟨z1, z2⟩ := length_of_no_leading_zero a1 a2 a3
  obtain ⟨w1, w2⟩ := length_of_no_leading_zero b1 b2 b3
  by_cases h : textMagnitude cs = 0
  · rw [z1 h, w1 (by omega)]
  · exact textMagnitude_inj a2 b2 (by rw [z2 h, w2 (by omega), ← a4, ← b4]) (by omega)

/-- A text denotes one value (R77). -/
theorem Denotes.unique {text : List Byte} {x y : Int} (c : Config) (hx : Denotes text x) (hy : Denotes text y) :
    x = y := by
  obtain ⟨n, h1, h2⟩ := parseText_denotes c hx
  obtain ⟨m, h3, h4⟩ := parseText_denotes c hy
  rw [h1] at h3
  obtain rfl : n = m := by simpa using h3
  exact num_inj c.two_le_B (h2.symm.trans h4)

end Sys2Proof.Machine
end

