-- ==== Sys2Proof/Laws/Decode.lean ====
section
/-! SUPPORT. The fields of an encoded command word (30_encoding R50), and the field masks in terms of the fields (R51). -/

namespace Sys2Proof

/-- Every word is its five fields and its low byte (R50). -/
theorem word_eq_fields (w : CommandWord) :
    w = opField w ++ regBits (rdField w) ++ regBits (raField w) ++ regBits (rbField w) ++ regBits (rrField w) ++
      w.extractLsb' 0 8 := by
  apply BitVec.eq_of_getLsbD_eq
  intro i hi
  simp only [BitVec.getLsbD_append, opField, rdField, raField, rbField, rrField, regBits, BitVec.ofFin_toFin,
    BitVec.getLsbD_extractLsb']
  interval_cases i <;> simp

theorem opField_fieldsWord (op : BitVec 8) (rd ra rb rr : RegId) : opField (fieldsWord op rd ra rb rr) = op := by
  apply BitVec.eq_of_getLsbD_eq
  intro i hi
  simp only [opField, fieldsWord, BitVec.getLsbD_extractLsb', BitVec.getLsbD_append]
  interval_cases i <;> simp

theorem rdField_fieldsWord (op : BitVec 8) (rd ra rb rr : RegId) : rdField (fieldsWord op rd ra rb rr) = rd := by
  have h : (fieldsWord op rd ra rb rr).extractLsb' 20 4 = regBits rd := by
    apply BitVec.eq_of_getLsbD_eq
    intro i hi
    simp only [fieldsWord, BitVec.getLsbD_extractLsb', BitVec.getLsbD_append]
    interval_cases i <;> simp
  rw [rdField, h]; rfl

theorem raField_fieldsWord (op : BitVec 8) (rd ra rb rr : RegId) : raField (fieldsWord op rd ra rb rr) = ra := by
  have h : (fieldsWord op rd ra rb rr).extractLsb' 16 4 = regBits ra := by
    apply BitVec.eq_of_getLsbD_eq
    intro i hi
    simp only [fieldsWord, BitVec.getLsbD_extractLsb', BitVec.getLsbD_append]
    interval_cases i <;> simp
  rw [raField, h]; rfl

theorem rbField_fieldsWord (op : BitVec 8) (rd ra rb rr : RegId) : rbField (fieldsWord op rd ra rb rr) = rb := by
  have h : (fieldsWord op rd ra rb rr).extractLsb' 12 4 = regBits rb := by
    apply BitVec.eq_of_getLsbD_eq
    intro i hi
    simp only [fieldsWord, BitVec.getLsbD_extractLsb', BitVec.getLsbD_append]
    interval_cases i <;> simp
  rw [rbField, h]; rfl

theorem rrField_fieldsWord (op : BitVec 8) (rd ra rb rr : RegId) : rrField (fieldsWord op rd ra rb rr) = rr := by
  have h : (fieldsWord op rd ra rb rr).extractLsb' 8 4 = regBits rr := by
    apply BitVec.eq_of_getLsbD_eq
    intro i hi
    simp only [fieldsWord, BitVec.getLsbD_extractLsb', BitVec.getLsbD_append]
    interval_cases i <;> simp
  rw [rrField, h]; rfl

/-- A format's mask keeps the opcode, the unused register fields and the low byte (R51). -/
theorem and_mask (f : Format) (op : BitVec 8) (rd ra rb rr : BitVec 4) (z : BitVec 8) :
    (op ++ rd ++ ra ++ rb ++ rr ++ z : CommandWord) &&& f.mask =
      match f with
      | .d => op ++ 0#4 ++ ra ++ rb ++ rr ++ z
      | .a => op ++ rd ++ 0#4 ++ rb ++ rr ++ z
      | .da => op ++ 0#4 ++ 0#4 ++ rb ++ rr ++ z
      | .dab => op ++ 0#4 ++ 0#4 ++ 0#4 ++ rr ++ z
      | .drab => op ++ 0#4 ++ 0#4 ++ 0#4 ++ 0#4 ++ z := by
  have key : ∀ (m5 : BitVec 8) (m4 m3 m2 m1 : BitVec 4) (m0 : BitVec 8),
      (op ++ rd ++ ra ++ rb ++ rr ++ z : CommandWord) &&& (m5 ++ m4 ++ m3 ++ m2 ++ m1 ++ m0) =
        (op &&& m5) ++ (rd &&& m4) ++ (ra &&& m3) ++ (rb &&& m2) ++ (rr &&& m1) ++ (z &&& m0) := by
    intro m5 m4 m3 m2 m1 m0
    apply BitVec.eq_of_getLsbD_eq
    intro i hi
    simp only [BitVec.getLsbD_and, BitVec.getLsbD_append]
    interval_cases i <;> simp
  have h8 : ∀ x : BitVec 8, x &&& 255#8 = x := fun x => BitVec.and_allOnes
  have h4 : ∀ x : BitVec 4, x &&& 15#4 = x := fun x => BitVec.and_allOnes
  cases f
  · have := key 255#8 0#4 15#4 15#4 15#4 255#8
    simp only [h8, h4, BitVec.and_zero] at this
    exact this
  · have := key 255#8 15#4 0#4 15#4 15#4 255#8
    simp only [h8, h4, BitVec.and_zero] at this
    exact this
  · have := key 255#8 0#4 0#4 15#4 15#4 255#8
    simp only [h8, h4, BitVec.and_zero] at this
    exact this
  · have := key 255#8 0#4 0#4 0#4 15#4 255#8
    simp only [h8, h4, BitVec.and_zero] at this
    exact this
  · have := key 255#8 0#4 0#4 0#4 0#4 255#8
    simp only [h8, BitVec.and_zero] at this
    exact this

/-- Equal words have equal fields (R50). -/
theorem fields_inj {op op' z z' : BitVec 8} {rd ra rb rr rd' ra' rb' rr' : BitVec 4}
    (h : (op ++ rd ++ ra ++ rb ++ rr ++ z : CommandWord) = op' ++ rd' ++ ra' ++ rb' ++ rr' ++ z') :
    op = op' ∧ rd = rd' ∧ ra = ra' ∧ rb = rb' ∧ rr = rr' ∧ z = z' := by
  have bit : ∀ i, (op ++ rd ++ ra ++ rb ++ rr ++ z : CommandWord).getLsbD i =
      (op' ++ rd' ++ ra' ++ rb' ++ rr' ++ z' : CommandWord).getLsbD i := fun i => by rw [h]
  simp only [BitVec.getLsbD_append] at bit
  refine ⟨?_, ?_, ?_, ?_, ?_, ?_⟩ <;> apply BitVec.eq_of_getLsbD_eq <;> intro i hi
  · have := bit (i + 24); interval_cases i <;> simpa using this
  · have := bit (i + 20); interval_cases i <;> simpa using this
  · have := bit (i + 16); interval_cases i <;> simpa using this
  · have := bit (i + 12); interval_cases i <;> simpa using this
  · have := bit (i + 8); interval_cases i <;> simpa using this
  · have := bit i; interval_cases i <;> simpa using this

theorem matchWord_eq (o : Opcode) : o.matchWord = o.code ++ 0#4 ++ 0#4 ++ 0#4 ++ 0#4 ++ 0#8 := by
  cases o <;> rfl

/-- The opcode map read both ways (R54). -/
theorem opcodeOf_code (o : Opcode) : opcodeOf o.code = some o := by cases o <;> rfl

theorem code_of_opcodeOf {b : BitVec 8} {o : Opcode} (h : opcodeOf b = some o) : o.code = b := by
  unfold opcodeOf at h
  apply BitVec.eq_of_toNat_eq
  split at h <;> first | (obtain rfl := Option.some.inj h; simp_all [Opcode.code]) | exact absurd h (by simp)

/-- A register field that is zero (R52). -/
theorem regBits_zero : regBits 0 = 0#4 := rfl

end Sys2Proof
end

