-- ==== Sys2Proof/Laws/Flags.lean ====
section
/-! SUPPORT. What the updates of STATUS do to its fields (10_state R24, 60_exceptions R148, R149, R152). -/

namespace Sys2Proof.Machine

/-- The fields after `ERR` is written: `ERR` is the code, every other bit keeps its value. -/
theorem errField_withErr (w : BitVec 32) (c : BitVec 4) : errField (withErr w c) = c := by
  apply BitVec.eq_of_getLsbD_eq
  intro i hi
  interval_cases i <;> simp [errField, withErr]

theorem getLsbD_withErr (w : BitVec 32) (c : BitVec 4) {i : Nat} (h : 4 ≤ i) (h' : i < 32) :
    (withErr w c).getLsbD i = w.getLsbD i := by
  have : (0xFFFFFFF0#32).getLsbD i = true := by interval_cases i <;> decide
  simp [withErr, this, h', h]

theorem fatalField_withErr (w : BitVec 32) (c : BitVec 4) : fatalField (withErr w c) = fatalField w :=
  getLsbD_withErr w c (by omega) (by omega)

theorem fatalField_withFatal (w : BitVec 32) : fatalField (withFatal w) = true := by
  simp [fatalField, withFatal]

theorem errField_withFatal (w : BitVec 32) : errField (withFatal w) = errField w := by
  apply BitVec.eq_of_getLsbD_eq
  intro i hi
  interval_cases i <;> simp [errField, withFatal]

theorem getLsbD_withFatal (w : BitVec 32) {i : Nat} (h : i ≠ 4) (h' : i < 32) :
    (withFatal w).getLsbD i = w.getLsbD i := by
  have : (0x10#32).getLsbD i = false := by interval_cases i <;> first | omega | decide
  simp [withFatal, this]

/-- An error sets `ERR` to its code (R148, R149). -/
theorem errField_statusAfterError (w : BitVec 32) (e : ErrCode) : errField (statusAfterError w e) = e.code := by
  unfold statusAfterError
  split
  · rw [errField_withFatal, errField_withErr]
  · rw [errField_withErr]

/-- A fatal error sets `FATAL`; a recoverable one leaves it (R148, R149). -/
theorem fatalField_statusAfterError (w : BitVec 32) (e : ErrCode) :
    fatalField (statusAfterError w e) = (e.fatal || fatalField w) := by
  unfold statusAfterError
  split
  · rename_i h; rw [fatalField_withFatal, h, Bool.true_or]
  · rename_i h; rw [fatalField_withErr]; simp [h]

/-- No error writes a reserved bit (R24). -/
theorem getLsbD_statusAfterError (w : BitVec 32) (e : ErrCode) {i : Nat} (h : 5 ≤ i) (h' : i < 32) :
    (statusAfterError w e).getLsbD i = w.getLsbD i := by
  unfold statusAfterError
  split
  · rw [getLsbD_withFatal _ (by omega) h', getLsbD_withErr _ _ (by omega) h']
  · rw [getLsbD_withErr _ _ (by omega) h']

theorem statusAfterError_legal (w : BitVec 32) (h : StatusLegal w) (hf : fatalField w = false) (e : ErrCode) :
    StatusLegal (statusAfterError w e) := by
  rcases h with rfl | rfl | rfl | rfl | rfl | rfl | rfl <;> revert hf <;> cases e <;> decide

theorem statusAfterSuccess_legal (w : BitVec 32) (h : StatusLegal w) (hf : fatalField w = false) :
    StatusLegal (statusAfterSuccess w) := by
  rcases h with rfl | rfl | rfl | rfl | rfl | rfl | rfl <;> revert hf <;> decide

/-- Where no reserved bit is set, a command that raises nothing in the running state leaves STATUS 0 (R152). -/
theorem statusAfterSuccess_eq_zero (w : BitVec 32) (h : StatusLegal w) (hf : fatalField w = false) :
    statusAfterSuccess w = 0#32 := by
  rcases h with rfl | rfl | rfl | rfl | rfl | rfl | rfl <;> revert hf <;> decide

end Sys2Proof.Machine
end

