-- ==== Sys2Proof/Laws/State.lean ====
section
/-! SUPPORT. What each named update of the state does to each field, so that no proof unfolds a record update; and reading
a Number register after a write (10_state R11, R16). -/

namespace Sys2Proof.Machine

/-! `State.setNum`. -/

@[simp] theorem State.setNum_cfg (s : State) (d : RegId) (n : Number) : (s.setNum d n).cfg = s.cfg := rfl
@[simp] theorem State.setNum_regs (s : State) (d : RegId) (n : Number) :
    (s.setNum d n).regs = s.regs.set d { valid := true, num := n } := rfl
@[simp] theorem State.setNum_status (s : State) (d : RegId) (n : Number) : (s.setNum d n).status = s.status := rfl
@[simp] theorem State.setNum_din (s : State) (d : RegId) (n : Number) : (s.setNum d n).din = s.din := rfl
@[simp] theorem State.setNum_dout (s : State) (d : RegId) (n : Number) : (s.setNum d n).dout = s.dout := rfl
@[simp] theorem State.setNum_tlen (s : State) (d : RegId) (n : Number) : (s.setNum d n).tlen = s.tlen := rfl
@[simp] theorem State.setNum_tb (s : State) (d : RegId) (n : Number) : (s.setNum d n).tb = s.tb := rfl
@[simp] theorem State.setNum_pending (s : State) (d : RegId) (n : Number) : (s.setNum d n).pending = s.pending := rfl
@[simp] theorem State.setNum_hostGot (s : State) (d : RegId) (n : Number) : (s.setNum d n).hostGot = s.hostGot := rfl

/-! `State.setText`. -/

@[simp] theorem State.setText_cfg (s : State) (k : Nat) (b : Byte) : (s.setText k b).cfg = s.cfg := rfl
@[simp] theorem State.setText_regs (s : State) (k : Nat) (b : Byte) : (s.setText k b).regs = s.regs := rfl
@[simp] theorem State.setText_status (s : State) (k : Nat) (b : Byte) : (s.setText k b).status = s.status := rfl
@[simp] theorem State.setText_din (s : State) (k : Nat) (b : Byte) : (s.setText k b).din = s.din := rfl
@[simp] theorem State.setText_dout (s : State) (k : Nat) (b : Byte) : (s.setText k b).dout = s.dout := rfl
@[simp] theorem State.setText_tlen (s : State) (k : Nat) (b : Byte) : (s.setText k b).tlen = s.tlen := rfl
@[simp] theorem State.setText_tb (s : State) (k : Nat) (b : Byte) :
    (s.setText k b).tb = textWrite s.cfg k b s.tb := rfl
@[simp] theorem State.setText_pending (s : State) (k : Nat) (b : Byte) : (s.setText k b).pending = s.pending := rfl
@[simp] theorem State.setText_hostGot (s : State) (k : Nat) (b : Byte) : (s.setText k b).hostGot = s.hostGot := rfl

/-! `State.setDout`. -/

@[simp] theorem State.setDout_cfg (s : State) (p : Nat) : (s.setDout p).cfg = s.cfg := rfl
@[simp] theorem State.setDout_regs (s : State) (p : Nat) : (s.setDout p).regs = s.regs := rfl
@[simp] theorem State.setDout_status (s : State) (p : Nat) : (s.setDout p).status = s.status := rfl
@[simp] theorem State.setDout_din (s : State) (p : Nat) : (s.setDout p).din = s.din := rfl
@[simp] theorem State.setDout_dout (s : State) (p : Nat) : (s.setDout p).dout = p := rfl
@[simp] theorem State.setDout_tlen (s : State) (p : Nat) : (s.setDout p).tlen = s.tlen := rfl
@[simp] theorem State.setDout_tb (s : State) (p : Nat) : (s.setDout p).tb = s.tb := rfl
@[simp] theorem State.setDout_pending (s : State) (p : Nat) : (s.setDout p).pending = s.pending := rfl
@[simp] theorem State.setDout_hostGot (s : State) (p : Nat) : (s.setDout p).hostGot = s.hostGot := rfl

/-! `State.setTextResult`. -/

@[simp] theorem State.setTextResult_cfg (s : State) (t : List Byte) : (s.setTextResult t).cfg = s.cfg := rfl
@[simp] theorem State.setTextResult_regs (s : State) (t : List Byte) : (s.setTextResult t).regs = s.regs := rfl
@[simp] theorem State.setTextResult_status (s : State) (t : List Byte) : (s.setTextResult t).status = s.status := rfl
@[simp] theorem State.setTextResult_din (s : State) (t : List Byte) : (s.setTextResult t).din = s.din := rfl
@[simp] theorem State.setTextResult_dout (s : State) (t : List Byte) : (s.setTextResult t).dout = s.dout := rfl
@[simp] theorem State.setTextResult_tlen (s : State) (t : List Byte) :
    (s.setTextResult t).tlen = BitVec.ofNat 32 t.length := rfl
@[simp] theorem State.setTextResult_tb (s : State) (t : List Byte) :
    (s.setTextResult t).tb = textWriteAll s.cfg 0 t s.tb := rfl
@[simp] theorem State.setTextResult_pending (s : State) (t : List Byte) :
    (s.setTextResult t).pending = s.pending := rfl
@[simp] theorem State.setTextResult_hostGot (s : State) (t : List Byte) :
    (s.setTextResult t).hostGot = s.hostGot := rfl

/-! `State.raise`. -/

@[simp] theorem State.raise_cfg (s : State) (e : ErrCode) : (s.raise e).cfg = s.cfg := rfl
@[simp] theorem State.raise_regs (s : State) (e : ErrCode) : (s.raise e).regs = s.regs := rfl
@[simp] theorem State.raise_status (s : State) (e : ErrCode) :
    (s.raise e).status = statusAfterError s.status e := rfl
@[simp] theorem State.raise_din (s : State) (e : ErrCode) : (s.raise e).din = s.din := rfl
@[simp] theorem State.raise_dout (s : State) (e : ErrCode) : (s.raise e).dout = s.dout := rfl
@[simp] theorem State.raise_tlen (s : State) (e : ErrCode) : (s.raise e).tlen = s.tlen := rfl
@[simp] theorem State.raise_tb (s : State) (e : ErrCode) : (s.raise e).tb = s.tb := rfl
@[simp] theorem State.raise_pending (s : State) (e : ErrCode) : (s.raise e).pending = s.pending := rfl
@[simp] theorem State.raise_hostGot (s : State) (e : ErrCode) : (s.raise e).hostGot = s.hostGot := rfl

/-! `State.succeed`. -/

@[simp] theorem State.succeed_cfg (s : State) : s.succeed.cfg = s.cfg := rfl
@[simp] theorem State.succeed_regs (s : State) : s.succeed.regs = s.regs := rfl
@[simp] theorem State.succeed_status (s : State) : s.succeed.status = statusAfterSuccess s.status := rfl
@[simp] theorem State.succeed_din (s : State) : s.succeed.din = s.din := rfl
@[simp] theorem State.succeed_dout (s : State) : s.succeed.dout = s.dout := rfl
@[simp] theorem State.succeed_tlen (s : State) : s.succeed.tlen = s.tlen := rfl
@[simp] theorem State.succeed_tb (s : State) : s.succeed.tb = s.tb := rfl
@[simp] theorem State.succeed_pending (s : State) : s.succeed.pending = s.pending := rfl
@[simp] theorem State.succeed_hostGot (s : State) : s.succeed.hostGot = s.hostGot := rfl

/-! `State.taking`. -/

@[simp] theorem State.taking_cfg (s : State) (rest : List HostAction) : (s.taking rest).cfg = s.cfg := rfl
@[simp] theorem State.taking_regs (s : State) (rest : List HostAction) : (s.taking rest).regs = s.regs := rfl
@[simp] theorem State.taking_status (s : State) (rest : List HostAction) : (s.taking rest).status = s.status := rfl
@[simp] theorem State.taking_din (s : State) (rest : List HostAction) : (s.taking rest).din = s.din := rfl
@[simp] theorem State.taking_dout (s : State) (rest : List HostAction) : (s.taking rest).dout = s.dout := rfl
@[simp] theorem State.taking_tlen (s : State) (rest : List HostAction) : (s.taking rest).tlen = s.tlen := rfl
@[simp] theorem State.taking_tb (s : State) (rest : List HostAction) : (s.taking rest).tb = s.tb := rfl
@[simp] theorem State.taking_pending (s : State) (rest : List HostAction) : (s.taking rest).pending = rest := rfl
@[simp] theorem State.taking_hostGot (s : State) (rest : List HostAction) : (s.taking rest).hostGot = none := rfl

/-! `State.withCommand`. -/

@[simp] theorem State.withCommand_cfg (s : State) (w : CommandWord) : (s.withCommand w).cfg = s.cfg := rfl
@[simp] theorem State.withCommand_regs (s : State) (w : CommandWord) : (s.withCommand w).regs = s.regs := rfl
@[simp] theorem State.withCommand_status (s : State) (w : CommandWord) : (s.withCommand w).status = s.status := rfl
@[simp] theorem State.withCommand_din (s : State) (w : CommandWord) : (s.withCommand w).din = s.din := rfl
@[simp] theorem State.withCommand_dout (s : State) (w : CommandWord) : (s.withCommand w).dout = s.dout := rfl
@[simp] theorem State.withCommand_tlen (s : State) (w : CommandWord) : (s.withCommand w).tlen = s.tlen := rfl
@[simp] theorem State.withCommand_tb (s : State) (w : CommandWord) : (s.withCommand w).tb = s.tb := rfl
@[simp] theorem State.withCommand_pending (s : State) (w : CommandWord) :
    (s.withCommand w).pending = .writeCmd w :: s.pending := rfl
@[simp] theorem State.withCommand_hostGot (s : State) (w : CommandWord) :
    (s.withCommand w).hostGot = s.hostGot := rfl

/-! `State.afterReset` (R159). -/

@[simp] theorem State.afterReset_cfg (s : State) : s.afterReset.cfg = s.cfg := rfl
@[simp] theorem State.afterReset_regs (s : State) : s.afterReset.regs = Vector.replicate 16 NumReg.reset := rfl
@[simp] theorem State.afterReset_status (s : State) : s.afterReset.status = 0#32 := rfl
@[simp] theorem State.afterReset_din (s : State) : s.afterReset.din = 0 := rfl
@[simp] theorem State.afterReset_dout (s : State) : s.afterReset.dout = 0 := rfl
@[simp] theorem State.afterReset_tlen (s : State) : s.afterReset.tlen = 0#32 := rfl
@[simp] theorem State.afterReset_tb (s : State) : s.afterReset.tb = [] := rfl
@[simp] theorem State.afterReset_pending (s : State) : s.afterReset.pending = s.pending := rfl
@[simp] theorem State.afterReset_hostGot (s : State) : s.afterReset.hostGot = none := rfl

/-! Number registers. -/

@[simp] theorem State.reg_setNum_same (s : State) (d : RegId) (n : Number) :
    (s.setNum d n).reg d = { valid := true, num := n } := by
  simp [State.reg, State.setNum]

theorem State.reg_setNum_other (s : State) {d i : RegId} (n : Number) (h : i ≠ d) : (s.setNum d n).reg i = s.reg i := by
  have : (d : Nat) ≠ i := fun e => h (Fin.ext e.symm)
  simp [State.reg, State.setNum, Vector.getElem_set_ne, this]

theorem State.reg_setNum (s : State) (d i : RegId) (n : Number) :
    (s.setNum d n).reg i = if i = d then { valid := true, num := n } else s.reg i := by
  split
  · rename_i h; subst h; exact s.reg_setNum_same i n
  · rename_i h; exact s.reg_setNum_other n h

theorem State.reg_congr {s t : State} (h : t.regs = s.regs) (i : RegId) : t.reg i = s.reg i := by
  simp [State.reg, h]

@[simp] theorem State.reg_setText (s : State) (k : Nat) (b : Byte) (i : RegId) : (s.setText k b).reg i = s.reg i := rfl
@[simp] theorem State.reg_setDout (s : State) (p : Nat) (i : RegId) : (s.setDout p).reg i = s.reg i := rfl
@[simp] theorem State.reg_setTextResult (s : State) (t : List Byte) (i : RegId) : (s.setTextResult t).reg i = s.reg i := rfl
@[simp] theorem State.reg_raise (s : State) (e : ErrCode) (i : RegId) : (s.raise e).reg i = s.reg i := rfl
@[simp] theorem State.reg_succeed (s : State) (i : RegId) : s.succeed.reg i = s.reg i := rfl
@[simp] theorem State.reg_taking (s : State) (rest : List HostAction) (i : RegId) : (s.taking rest).reg i = s.reg i := rfl
@[simp] theorem State.reg_withCommand (s : State) (w : CommandWord) (i : RegId) : (s.withCommand w).reg i = s.reg i := rfl
@[simp] theorem State.reg_afterReset (s : State) (i : RegId) : s.afterReset.reg i = NumReg.reset := by
  simp [State.reg]

theorem State.reg_resetOf (c : Config) (i : RegId) : (State.resetOf c).reg i = NumReg.reset := by
  simp [State.reg, State.resetOf]

end Sys2Proof.Machine
end

