-- ==== Sys2Proof/Laws/Text.lean ====
section
/-! SUPPORT. The text buffer (10_state R28, 20_memory R38): a read after a write, and that every write keeps the canonical
form of the cells. -/

namespace Sys2Proof.Machine

variable {c : Config}

theorem textRead_of_lt {lo k : Nat} (h : k < lo) {cells : List Host.Cell} (hw : textWf c lo cells = true) :
    textRead c k cells = textAtReset c k := by
  induction cells generalizing lo with
  | nil => rfl
  | cons p rest ih =>
    obtain ⟨j, b⟩ := p
    simp only [textWf, Bool.and_eq_true, decide_eq_true_eq] at hw
    rw [textRead, if_neg (by omega)]
    exact ih (by omega) hw.2

theorem textRead_textCell_other {k a : Nat} (h : a ≠ k) (b : Byte) (rest : List Host.Cell) :
    textRead c a (textCell c k b rest) = textRead c a rest := by
  unfold textCell
  split
  · rfl
  · rw [textRead, if_neg (Ne.symm h)]

theorem textRead_textCell_same {k lo : Nat} (h : k < lo) (b : Byte) {rest : List Host.Cell}
    (hw : textWf c lo rest = true) : textRead c k (textCell c k b rest) = b := by
  unfold textCell
  split
  · rename_i hb; rw [textRead_of_lt h hw, hb]
  · rw [textRead, if_pos rfl]

/-- A write leaves every other byte (R38), whatever the cells. -/
theorem textRead_textWrite_other {k a : Nat} (h : a ≠ k) (b : Byte) (cells : List Host.Cell) :
    textRead c a (textWrite c k b cells) = textRead c a cells := by
  induction cells with
  | nil => exact textRead_textCell_other h b []
  | cons p rest ih =>
    obtain ⟨j, x⟩ := p
    rw [textWrite]
    split
    · rw [textRead, textRead, ih]
    · split
      · rename_i hj; rw [textRead_textCell_other h, textRead, if_neg (by omega)]
      · rw [textRead_textCell_other h]

/-- A read after a write to the same index gives the byte written (R28). -/
theorem textRead_textWrite_same {k lo : Nat} (b : Byte) {cells : List Host.Cell} (hw : textWf c lo cells = true) :
    textRead c k (textWrite c k b cells) = b := by
  induction cells generalizing lo with
  | nil => exact textRead_textCell_same (lo := k + 1) (by omega) b rfl
  | cons p rest ih =>
    obtain ⟨j, x⟩ := p
    have hw' := hw
    simp only [textWf, Bool.and_eq_true, decide_eq_true_eq] at hw
    rw [textWrite]
    split
    · rw [textRead, if_neg (by omega)]; exact ih hw.2
    · split
      · rename_i hj; exact textRead_textCell_same (lo := j + 1) (by omega) b hw.2
      · exact textRead_textCell_same (lo := j) (by omega) b (by simpa [textWf] using ⟨⟨hw.1.1.2, hw.1.2⟩, hw.2⟩)

theorem textWf_mono {lo lo' : Nat} (h : lo' ≤ lo) {cells : List Host.Cell} (hw : textWf c lo cells = true) :
    textWf c lo' cells = true := by
  cases cells with
  | nil => rfl
  | cons p rest =>
    obtain ⟨j, b⟩ := p
    simp only [textWf, Bool.and_eq_true, decide_eq_true_eq] at hw ⊢
    exact ⟨⟨⟨by omega, hw.1.1.2⟩, hw.1.2⟩, hw.2⟩

theorem textWf_textCell {k : Nat} (hk : k < c.tmax) (b : Byte) {rest : List Host.Cell}
    (hw : textWf c (k + 1) rest = true) : textWf c k (textCell c k b rest) = true := by
  unfold textCell
  split
  · exact textWf_mono (by omega) hw
  · rename_i hb; simp [textWf, hk, hb, hw]

/-- A write keeps the canonical form. -/
theorem textWf_textWrite {lo k : Nat} (h : lo ≤ k) (hk : k < c.tmax) (b : Byte) {cells : List Host.Cell}
    (hw : textWf c lo cells = true) : textWf c lo (textWrite c k b cells) = true := by
  induction cells generalizing lo with
  | nil => exact textWf_mono h (textWf_textCell hk b rfl)
  | cons p rest ih =>
    obtain ⟨j, x⟩ := p
    have hw' := hw
    simp only [textWf, Bool.and_eq_true, decide_eq_true_eq] at hw
    rw [textWrite]
    split
    · simp only [textWf, Bool.and_eq_true, decide_eq_true_eq]
      exact ⟨hw.1, ih (by omega) hw.2⟩
    · split
      · rename_i hj
        exact textWf_mono h (textWf_textCell hk b (hj ▸ hw.2))
      · exact textWf_mono h (textWf_textCell hk b (by
          simp only [textWf, Bool.and_eq_true, decide_eq_true_eq]; exact ⟨⟨⟨by omega, hw.1.1.2⟩, hw.1.2⟩, hw.2⟩))

/-- Writing a text keeps the canonical form. -/
theorem textWf_textWriteAll {lo k : Nat} (h : lo ≤ k) {text : List Byte} (hk : k + text.length ≤ c.tmax)
    {cells : List Host.Cell} (hw : textWf c lo cells = true) : textWf c lo (textWriteAll c k text cells) = true := by
  induction text generalizing k cells with
  | nil => exact hw
  | cons b bs ih =>
    rw [List.length_cons] at hk
    exact ih (by omega) (by omega) (textWf_textWrite h (by omega) b hw)

/-- A text written from index `k` on leaves the bytes outside it. -/
theorem textRead_textWriteAll_other {k a : Nat} {text : List Byte} (h : a < k ∨ k + text.length ≤ a)
    (cells : List Host.Cell) : textRead c a (textWriteAll c k text cells) = textRead c a cells := by
  induction text generalizing k cells with
  | nil => rfl
  | cons b bs ih =>
    rw [List.length_cons] at h
    rw [textWriteAll, ih (by omega), textRead_textWrite_other (by omega)]

/-- A text written from index `k` on stands there. -/
theorem textRead_textWriteAll_inside {k i : Nat} {text : List Byte} (h : i < text.length)
    (hk : k + text.length ≤ c.tmax) {cells : List Host.Cell} (hw : textWf c 0 cells = true) :
    textRead c (k + i) (textWriteAll c k text cells) = text[i] := by
  induction text generalizing k i cells with
  | nil => simp at h
  | cons b bs ih =>
    rw [List.length_cons] at h hk
    rw [textWriteAll]
    cases i with
    | zero => rw [textRead_textWriteAll_other (by omega), Nat.add_zero, textRead_textWrite_same b hw]; rfl
    | succ i =>
      have := ih (k := k + 1) (i := i) (by omega) (by omega) (textWf_textWrite (k := k) (by omega) (by omega) b hw)
      rw [show k + (i + 1) = k + 1 + i by omega, this]
      rfl

/-! The same of a state. -/

theorem State.text_setText_other (s : State) {k a : Nat} (h : a ≠ k) (b : Byte) : (s.setText k b).text a = s.text a :=
  textRead_textWrite_other h b s.tb

theorem State.text_setText_same {s : State} (hw : Memory.wf s = true) (k : Nat) (b : Byte) :
    (s.setText k b).text k = b := textRead_textWrite_same b hw

theorem State.wf_setText {s : State} (hw : Memory.wf s = true) {k : Nat} (hk : k < s.cfg.tmax) (b : Byte) :
    Memory.wf (s.setText k b) = true := textWf_textWrite (Nat.zero_le k) hk b hw

theorem State.text_setTextResult_other (s : State) {text : List Byte} {a : Nat} (h : text.length ≤ a) :
    (s.setTextResult text).text a = s.text a := textRead_textWriteAll_other (.inr (by omega)) s.tb

theorem State.text_setTextResult_inside {s : State} (hw : Memory.wf s = true) {text : List Byte}
    (hk : text.length ≤ s.cfg.tmax) {i : Nat} (h : i < text.length) : (s.setTextResult text).text i = text[i] := by
  have := textRead_textWriteAll_inside (k := 0) h (by omega) hw
  rwa [Nat.zero_add] at this

theorem State.wf_setTextResult {s : State} (hw : Memory.wf s = true) {text : List Byte}
    (hk : text.length ≤ s.cfg.tmax) : Memory.wf (s.setTextResult text) = true :=
  textWf_textWriteAll (c := s.cfg) (Nat.le_refl 0) (by omega) hw

theorem State.text_congr {s t : State} (hc : t.cfg = s.cfg) (hb : t.tb = s.tb) (k : Nat) : t.text k = s.text k := by
  simp [State.text, hc, hb]

@[simp] theorem State.length_textFrom (s : State) (k n : Nat) : (s.textFrom k n).length = n := by
  induction n generalizing k with
  | zero => rfl
  | succ n ih => simp [State.textFrom, ih]

theorem State.textFrom_congr {s t : State} (h : ∀ k, t.text k = s.text k) (k n : Nat) :
    t.textFrom k n = s.textFrom k n := by
  induction n generalizing k with
  | zero => rfl
  | succ n ih => simp only [State.textFrom, h, ih]

@[simp] theorem State.textOperand_succeed (s : State) : s.succeed.textOperand = s.textOperand :=
  State.textFrom_congr (s := s) (t := s.succeed) (fun _ => rfl) 0 s.tlen.toNat

theorem State.getElem_textFrom (s : State) (k n i : Nat) (h : i < (s.textFrom k n).length) :
    (s.textFrom k n)[i] = s.text (k + i) := by
  induction n generalizing k i with
  | zero => simp [State.textFrom] at h
  | succ n ih =>
    cases i with
    | zero => rfl
    | succ i =>
      rw [State.length_textFrom] at h
      simp only [State.textFrom, List.getElem_cons_succ]
      rw [ih (k + 1) i (by rw [State.length_textFrom]; omega)]
      congr 1; omega

/-- After a text is written, the text operand is that text (R38, R80). -/
theorem State.textOperand_setTextResult {s : State} (hw : Memory.wf s = true) {text : List Byte}
    (hk : text.length ≤ s.cfg.tmax) (h32 : s.cfg.tmax < 2 ^ 32) : (s.setTextResult text).textOperand = text := by
  have hn : (s.setTextResult text).tlen.toNat = text.length := by
    rw [State.setTextResult_tlen, BitVec.toNat_ofNat, Nat.mod_eq_of_lt (by omega)]
  apply List.ext_getElem
  · rw [State.textOperand, State.length_textFrom, hn]
  · intro i h1 h2
    simp only [State.textOperand, State.getElem_textFrom, Nat.zero_add]
    exact State.text_setTextResult_inside hw hk h2

theorem Memory.wf_resetOf (c : Config) : Memory.wf (State.resetOf c) = true := rfl

end Sys2Proof.Machine
end

