-- ==== Sys2Proof/Laws/Exec.lean ====
section
/-! SUPPORT. What the shared operations of the commands can do: reading an operand (40_digit_store_normalizer R69), writing
a result behind its capacity check (R67, R68), the shapes of a command's outcome (60_exceptions R147, R152), and which
updates keep the invariant of 10_state R18 and R24. -/

namespace Sys2Proof.Machine

/-! Operands and results. -/

theorem readOperand_of_valid {s : State} {i : RegId} (h : s.Valid i) : readOperand s i = .ok (s.reg i).num := if_pos h

theorem readOperand_of_not_valid {s : State} {i : RegId} (h : ¬ s.Valid i) : readOperand s i = .error .uninit :=
  if_neg h

theorem runCommand_ok (s t : State) : runCommand s (.ok t) = .next t.succeed := rfl

theorem runCommand_error (s : State) (e : ErrCode) : runCommand s (.error e) = .next (s.raise e) := rfl

/-- The capacity check in terms of the integer (R67): `|x| < B^NMAX`. -/
theorem fits_iff {c : Config} (hc : c.Wf) {n : Number} {x : Int} (h : canon n = num c.B x) :
    fits c n = true ↔ x.natAbs < c.B ^ c.nmax := by
  unfold fits
  rw [decide_eq_true_eq, h, num_size_le_iff c.two_le_B x (le_trans (by omega) hc.1)]

theorem writeResult_num {s : State} (hc : s.cfg.Wf) {n : Number} {x : Int} (h : canon n = num s.cfg.B x)
    (d : RegId) : writeResult s d n =
      if x.natAbs < s.cfg.B ^ s.cfg.nmax then .ok (s.setNum d (num s.cfg.B x)) else .error .alloc := by
  unfold writeResult
  rw [h]
  by_cases hf : x.natAbs < s.cfg.B ^ s.cfg.nmax
  · rw [if_pos ((fits_iff hc h).2 hf), if_pos hf]
  · rw [if_neg (fun h' => hf ((fits_iff hc h).1 h')), if_neg hf]

/-- A command of format DA with a canonical result (R67-R69). -/
theorem unaryCommand_num {s : State} (hc : s.cfg.Wf) {f : Number → Number} {ra : RegId} (ha : s.Valid ra) {x : Int}
    (h : canon (f (s.reg ra).num) = num s.cfg.B x) (rd : RegId) : unaryCommand f rd ra s =
      if x.natAbs < s.cfg.B ^ s.cfg.nmax then .next (s.setNum rd (num s.cfg.B x)).succeed
      else .next (s.raise .alloc) := by
  unfold unaryCommand
  rw [readOperand_of_valid ha]
  change runCommand s (writeResult s rd _) = _
  rw [writeResult_num hc h]
  split <;> rfl

/-- A command of format DAB with a canonical result (R67-R69). -/
theorem binaryCommand_num {s : State} (hc : s.cfg.Wf) {f : Number → Number → Number} {ra rb : RegId}
    (ha : s.Valid ra) (hb : s.Valid rb) {x : Int} (h : canon (f (s.reg ra).num (s.reg rb).num) = num s.cfg.B x)
    (rd : RegId) : binaryCommand f rd ra rb s =
      if x.natAbs < s.cfg.B ^ s.cfg.nmax then .next (s.setNum rd (num s.cfg.B x)).succeed
      else .next (s.raise .alloc) := by
  unfold binaryCommand
  rw [readOperand_of_valid ha, readOperand_of_valid hb]
  change runCommand s (writeResult s rd _) = _
  rw [writeResult_num hc h]
  split <;> rfl

theorem unaryCommand_uninit (f : Number → Number) (rd : RegId) {ra : RegId} {s : State} (h : ¬ s.Valid ra) :
    unaryCommand f rd ra s = .next (s.raise .uninit) := by
  unfold unaryCommand; rw [readOperand_of_not_valid h]; rfl

theorem binaryCommand_uninit (f : Number → Number → Number) (rd : RegId) {ra rb : RegId} {s : State}
    (h : ¬ s.Valid ra ∨ ¬ s.Valid rb) : binaryCommand f rd ra rb s = .next (s.raise .uninit) := by
  unfold binaryCommand
  by_cases ha : s.Valid ra
  · rw [readOperand_of_valid ha, readOperand_of_not_valid (h.resolve_left (not_not.2 ha))]; rfl
  · rw [readOperand_of_not_valid ha]; rfl

theorem execDiv_uninit (rd : RegId) {ra rb : RegId} {s : State} (h : ¬ s.Valid ra ∨ ¬ s.Valid rb) :
    execDiv rd ra rb s = .next (s.raise .uninit) := by
  unfold execDiv
  by_cases ha : s.Valid ra
  · rw [readOperand_of_valid ha, readOperand_of_not_valid (h.resolve_left (not_not.2 ha))]; rfl
  · rw [readOperand_of_not_valid ha]; rfl

/-- The divider reached with both operands valid (R119). -/
theorem execDiv_of_valid (rd : RegId) {ra rb : RegId} {s : State} (ha : s.Valid ra) (hb : s.Valid rb) :
    execDiv rd ra rb s = runCommand s (do
      let qr ← divSigned s.cfg.W (s.reg ra).num (s.reg rb).num
      writeResult s rd qr.1) := by
  unfold execDiv; rw [readOperand_of_valid ha, readOperand_of_valid hb]; rfl

theorem execDivrem_illegal (rd ra rb : RegId) (s : State) : execDivrem rd rd ra rb s = .next (s.raise .illegal) := by
  simp [execDivrem, runCommand, throw, throwThe, MonadExceptOf.throw, bind, Except.bind]

theorem execDivrem_uninit {rd rr ra rb : RegId} {s : State} (hne : rd ≠ rr) (h : ¬ s.Valid ra ∨ ¬ s.Valid rb) :
    execDivrem rd rr ra rb s = .next (s.raise .uninit) := by
  unfold execDivrem
  rw [if_neg hne]
  by_cases ha : s.Valid ra
  · rw [readOperand_of_valid ha, readOperand_of_not_valid (h.resolve_left (not_not.2 ha))]; rfl
  · rw [readOperand_of_not_valid ha]; rfl

theorem execDivrem_of_valid {rd rr ra rb : RegId} {s : State} (hne : rd ≠ rr) (ha : s.Valid ra) (hb : s.Valid rb) :
    execDivrem rd rr ra rb s = runCommand s (do
      let qr ← divSigned s.cfg.W (s.reg ra).num (s.reg rb).num
      writeResults s rd qr.1 rr qr.2) := by
  unfold execDivrem; rw [if_neg hne, readOperand_of_valid ha, readOperand_of_valid hb]; rfl

theorem execToint_of_valid {ra : RegId} {s : State} (ha : s.Valid ra) :
    execToint ra s = .next (s.setDout (toPattern s.cfg (s.reg ra).num)).succeed := by
  unfold execToint; rw [readOperand_of_valid ha]; rfl

theorem execToint_uninit {ra : RegId} {s : State} (ha : ¬ s.Valid ra) :
    execToint ra s = .next (s.raise .uninit) := by
  unfold execToint; rw [readOperand_of_not_valid ha]; rfl

theorem execTodec_of_valid {ra : RegId} {s : State} (ha : s.Valid ra) : execTodec ra s =
    if s.cfg.tmax < (decimalText s.cfg (s.reg ra).num).length then .next (s.raise .alloc)
    else .next (s.setTextResult (decimalText s.cfg (s.reg ra).num)).succeed := by
  unfold execTodec
  rw [readOperand_of_valid ha]
  by_cases h : s.cfg.tmax < (decimalText s.cfg (s.reg ra).num).length <;>
    simp [h, runCommand, throw, throwThe, MonadExceptOf.throw, bind, Except.bind, pure, Except.pure]

theorem execTodec_uninit {ra : RegId} {s : State} (ha : ¬ s.Valid ra) :
    execTodec ra s = .next (s.raise .uninit) := by
  unfold execTodec; rw [readOperand_of_not_valid ha]; rfl

theorem execFromdec_of_length {rd : RegId} {s : State} (h1 : 1 ≤ s.tlen.toNat) (h2 : s.tlen.toNat ≤ s.cfg.tmax) :
    execFromdec rd s = runCommand s (do
      let x ← parseText s.cfg s.textOperand
      writeResult s rd x) := by
  unfold execFromdec
  rw [if_neg (by omega)]

theorem execFromdec_bad_length {rd : RegId} {s : State} (h : s.tlen.toNat < 1 ∨ s.cfg.tmax < s.tlen.toNat) :
    execFromdec rd s = .next (s.raise .parse) := by
  unfold execFromdec
  rw [if_pos h]; rfl

/-- The text operand is the text `TB[0 .. TLEN-1]` holds (R38). -/
theorem State.holdsText_iff (s : State) (text : List Byte) : s.HoldsText text ↔ text = s.textOperand := by
  constructor
  · rintro ⟨h1, h2⟩
    apply List.ext_getElem
    · simp [State.textOperand, h1]
    · intro i a b
      simp only [State.textOperand, State.getElem_textFrom, Nat.zero_add]
      exact (h2 i a).symm
  · rintro rfl
    refine ⟨by simp [State.textOperand], fun k hk => ?_⟩
    simp only [State.textOperand, State.getElem_textFrom, Nat.zero_add]

/-! The outcomes a command's shape allows: an error and nothing else, or its writes and a success. -/

theorem writeResult_cases (s : State) (rd : RegId) (n : Number) :
    writeResult s rd n = .error .alloc ∨ ∃ m, writeResult s rd n = .ok (s.setNum rd m) := by
  unfold writeResult
  split
  · exact .inr ⟨_, rfl⟩
  · exact .inl rfl

theorem writeResults_cases (s : State) (rd rr : RegId) (n m : Number) :
    writeResults s rd n rr m = .error .alloc ∨
      ∃ n' m', writeResults s rd n rr m = .ok ((s.setNum rd n').setNum rr m') := by
  unfold writeResults
  split
  · exact .inr ⟨_, _, rfl⟩
  · exact .inl rfl

theorem unaryCommand_cases (f : Number → Number) (rd ra : RegId) (s : State) :
    unaryCommand f rd ra s = .next (s.raise .uninit) ∨ unaryCommand f rd ra s = .next (s.raise .alloc) ∨
      ∃ n, unaryCommand f rd ra s = .next (s.setNum rd n).succeed := by
  by_cases ha : s.Valid ra
  · unfold unaryCommand
    rw [readOperand_of_valid ha]
    rcases writeResult_cases s rd (f (s.reg ra).num) with g | ⟨m, g⟩
    · exact .inr (.inl (by change runCommand s (writeResult s rd _) = _; rw [g]; rfl))
    · exact .inr (.inr ⟨m, by change runCommand s (writeResult s rd _) = _; rw [g]; rfl⟩)
  · exact .inl (unaryCommand_uninit f rd ha)

theorem binaryCommand_cases (f : Number → Number → Number) (rd ra rb : RegId) (s : State) :
    binaryCommand f rd ra rb s = .next (s.raise .uninit) ∨ binaryCommand f rd ra rb s = .next (s.raise .alloc) ∨
      ∃ n, binaryCommand f rd ra rb s = .next (s.setNum rd n).succeed := by
  by_cases h : s.Valid ra ∧ s.Valid rb
  · unfold binaryCommand
    rw [readOperand_of_valid h.1, readOperand_of_valid h.2]
    rcases writeResult_cases s rd (f (s.reg ra).num (s.reg rb).num) with g | ⟨m, g⟩
    · exact .inr (.inl (by change runCommand s (writeResult s rd _) = _; rw [g]; rfl))
    · exact .inr (.inr ⟨m, by change runCommand s (writeResult s rd _) = _; rw [g]; rfl⟩)
  · exact .inl (binaryCommand_uninit f rd (not_and_or.1 h))

theorem divMagnitude_cases (W : Nat) (a v : Digits) :
    divMagnitude W a v = .error .invariant ∨ ∃ qr, divMagnitude W a v = .ok qr := by
  have loop : ∀ (B : Nat) (vn us r : Digits), divLoop B vn us r = .error .invariant ∨ ∃ qr, divLoop B vn us r = .ok qr := by
    intro B vn us
    induction us with
    | nil => exact fun r => .inr ⟨_, rfl⟩
    | cons u us ih =>
      intro r
      simp only [divLoop]
      rcases ih r with h | ⟨⟨q, r'⟩, h⟩
      · exact .inl (by rw [h])
      · rw [h]
        dsimp only
        split
        · exact .inl rfl
        · exact .inr ⟨_, rfl⟩
  unfold divMagnitude
  split
  · exact .inr ⟨_, rfl⟩
  · split
    · exact .inr ⟨_, rfl⟩
    · unfold algorithmD
      dsimp only
      rcases loop _ _ _ _ with h | ⟨⟨q, r⟩, h⟩
      · exact .inl (by rw [h])
      · exact .inr ⟨_, by rw [h]⟩

theorem divSigned_cases (W : Nat) (x y : Number) :
    divSigned W x y = .error .divzero ∨ divSigned W x y = .error .invariant ∨ ∃ qr, divSigned W x y = .ok qr := by
  unfold divSigned
  split
  · exact .inl rfl
  · rcases divMagnitude_cases W x.digits y.digits with h | ⟨⟨q, r⟩, h⟩
    · exact .inr (.inl (by rw [h]))
    · exact .inr (.inr ⟨_, by rw [h]⟩)

theorem execDiv_cases (rd ra rb : RegId) (s : State) :
    (∃ e, e ≠ .illegal ∧ e ≠ .parse ∧ execDiv rd ra rb s = .next (s.raise e)) ∨
      ∃ n, execDiv rd ra rb s = .next (s.setNum rd n).succeed := by
  by_cases h : s.Valid ra ∧ s.Valid rb
  · rw [execDiv_of_valid rd h.1 h.2]
    rcases divSigned_cases s.cfg.W (s.reg ra).num (s.reg rb).num with h' | h' | ⟨qr, h'⟩
    · exact .inl ⟨.divzero, by decide, by decide, by rw [h']; rfl⟩
    · exact .inl ⟨.invariant, by decide, by decide, by rw [h']; rfl⟩
    · rcases writeResult_cases s rd qr.1 with g | ⟨m, g⟩
      · exact .inl ⟨.alloc, by decide, by decide, by rw [h']; change runCommand s (writeResult s rd qr.1) = _; rw [g]; rfl⟩
      · exact .inr ⟨m, by rw [h']; change runCommand s (writeResult s rd qr.1) = _; rw [g]; rfl⟩
  · exact .inl ⟨.uninit, by decide, by decide, execDiv_uninit rd (not_and_or.1 h)⟩

theorem execDivrem_cases (rd rr ra rb : RegId) (s : State) :
    (∃ e, e ≠ .parse ∧ execDivrem rd rr ra rb s = .next (s.raise e)) ∨
      ∃ n m, execDivrem rd rr ra rb s = .next ((s.setNum rd n).setNum rr m).succeed := by
  by_cases hne : rd = rr
  · subst hne; exact .inl ⟨.illegal, by decide, execDivrem_illegal rd ra rb s⟩
  by_cases h : s.Valid ra ∧ s.Valid rb
  · rw [execDivrem_of_valid hne h.1 h.2]
    rcases divSigned_cases s.cfg.W (s.reg ra).num (s.reg rb).num with h' | h' | ⟨qr, h'⟩
    · exact .inl ⟨.divzero, by decide, by rw [h']; rfl⟩
    · exact .inl ⟨.invariant, by decide, by rw [h']; rfl⟩
    · rcases writeResults_cases s rd rr qr.1 qr.2 with g | ⟨n, m, g⟩
      · exact .inl ⟨.alloc, by decide, by
          rw [h']; change runCommand s (writeResults s rd qr.1 rr qr.2) = _; rw [g]; rfl⟩
      · exact .inr ⟨n, m, by rw [h']; change runCommand s (writeResults s rd qr.1 rr qr.2) = _; rw [g]; rfl⟩
  · exact .inl ⟨.uninit, by decide, execDivrem_uninit hne (not_and_or.1 h)⟩

theorem execFromint_cases (rd : RegId) (s : State) : execFromint rd s = .next (s.raise .alloc) ∨
    ∃ n, execFromint rd s = .next (s.setNum rd n).succeed := by
  unfold execFromint
  rcases writeResult_cases s rd (fromPattern s.cfg s.din) with g | ⟨m, g⟩
  · exact .inl (by rw [g]; rfl)
  · exact .inr ⟨m, by rw [g]; rfl⟩

theorem execFromdec_cases (rd : RegId) (s : State) :
    execFromdec rd s = .next (s.raise .parse) ∨ execFromdec rd s = .next (s.raise .alloc) ∨
      ∃ n, execFromdec rd s = .next (s.setNum rd n).succeed := by
  by_cases h : 1 ≤ s.tlen.toNat ∧ s.tlen.toNat ≤ s.cfg.tmax
  · rw [execFromdec_of_length h.1 h.2]
    by_cases hp : (splitSign s.textOperand).2 ≠ [] ∧ (splitSign s.textOperand).2.all isDigitChar = true
    · have e : parseText s.cfg s.textOperand = .ok _ := if_pos hp
      rw [e]
      rcases writeResult_cases s rd ⟨(splitSign s.textOperand).1,
        accumulate s.cfg.B s.cfg.D (splitSign s.textOperand).2⟩ with g | ⟨m, g⟩
      · exact .inr (.inl (by change runCommand s (writeResult s rd _) = _; rw [g]; rfl))
      · exact .inr (.inr ⟨m, by change runCommand s (writeResult s rd _) = _; rw [g]; rfl⟩)
    · have e : parseText s.cfg s.textOperand = .error .parse := if_neg hp
      rw [e]; exact .inl rfl
  · exact .inl (execFromdec_bad_length (by omega))

/-- Everything a command can do to the state: raise an error, or write its own destinations and succeed. -/
inductive Effect (i : Instr) (s : State) : Host.Outcome State Fault Refusal → Prop
  | error (e : ErrCode) : Effect i s (.next (s.raise e))
  | register (d : RegId) (n : Number) (h : i.dests = [d]) : Effect i s (.next (s.setNum d n).succeed)
  | registers (d r : RegId) (n m : Number) (h : i.dests = [d, r]) :
      Effect i s (.next ((s.setNum d n).setNum r m).succeed)
  | dout (ra : RegId) (p : Nat) (h : i = .toint ra) : Effect i s (.next (s.setDout p).succeed)
  | text (ra : RegId) (h : i = .todec ra) :
      Effect i s (.next (s.setTextResult (decimalText s.cfg (s.reg ra).num)).succeed)

theorem unaryCommand_effect (i : Instr) (f : Number → Number) (rd ra : RegId) (s : State) (h : i.dests = [rd]) :
    Effect i s (unaryCommand f rd ra s) := by
  rcases unaryCommand_cases f rd ra s with g | g | ⟨n, g⟩ <;> rw [g]
  · exact .error _
  · exact .error _
  · exact .register _ _ h

theorem binaryCommand_effect (i : Instr) (f : Number → Number → Number) (rd ra rb : RegId) (s : State)
    (h : i.dests = [rd]) : Effect i s (binaryCommand f rd ra rb s) := by
  rcases binaryCommand_cases f rd ra rb s with g | g | ⟨n, g⟩ <;> rw [g]
  · exact .error _
  · exact .error _
  · exact .register _ _ h

/-- The one inversion lemma of `exec`. -/
theorem exec_effect (i : Instr) (s : State) : Effect i s (exec i s) := by
  cases i with
  | fromint rd =>
    rcases execFromint_cases rd s with h | ⟨n, h⟩ <;> simp only [exec, h]
    · exact .error _
    · exact .register _ _ rfl
  | fromdec rd =>
    rcases execFromdec_cases rd s with h | h | ⟨n, h⟩ <;> simp only [exec, h]
    · exact .error _
    · exact .error _
    · exact .register _ _ rfl
  | toint ra =>
    by_cases h : s.Valid ra
    · simp only [exec, execToint_of_valid h]; exact .dout ra _ rfl
    · simp only [exec, execToint_uninit h]; exact .error _
  | todec ra =>
    by_cases h : s.Valid ra
    · simp only [exec, execTodec_of_valid h]
      split
      · exact .error _
      · exact .text ra rfl
    · simp only [exec, execTodec_uninit h]; exact .error _
  | div rd ra rb =>
    rcases execDiv_cases rd ra rb s with ⟨e, -, -, h⟩ | ⟨n, h⟩ <;> simp only [exec, h]
    · exact .error _
    · exact .register _ _ rfl
  | divrem rd rr ra rb =>
    rcases execDivrem_cases rd rr ra rb s with ⟨e, -, h⟩ | ⟨n, m, h⟩ <;> simp only [exec, h]
    · exact .error _
    · exact .registers _ _ _ _ rfl
  | mov rd ra => exact unaryCommand_effect _ _ rd ra s rfl
  | bitNot rd ra => exact unaryCommand_effect _ _ rd ra s rfl
  | add rd ra rb => exact binaryCommand_effect _ _ rd ra rb s rfl
  | sub rd ra rb => exact binaryCommand_effect _ _ rd ra rb s rfl
  | mul rd ra rb => exact binaryCommand_effect _ _ rd ra rb s rfl
  | bitOr rd ra rb => exact binaryCommand_effect _ _ rd ra rb s rfl
  | bitXor rd ra rb => exact binaryCommand_effect _ _ rd ra rb s rfl
  | bitAnd rd ra rb => exact binaryCommand_effect _ _ rd ra rb s rfl

/-! The command port (R29, R58, R150). -/

theorem issueCommand_halted {s : State} (h : s.halted = true) (w : CommandWord) : issueCommand w s = .next s := if_pos h

theorem issueCommand_ok {s : State} (h : s.Running) {w : CommandWord} {i : Instr} (hd : decode w = .ok i) :
    issueCommand w s = exec i s := by simp [issueCommand, show s.halted = false from h, hd]

theorem issueCommand_error {s : State} (h : s.Running) {w : CommandWord} {c : IllegalCause}
    (hd : decode w = .error c) : issueCommand w s = .next (s.raise .illegal) := by
  simp [issueCommand, show s.halted = false from h, hd]

/-! The invariant (R18, R24-R28). -/

theorem State.Inv.canonical {s : State} (h : s.Inv) {i : RegId} (hi : s.Valid i) :
    (s.reg i).num.Canonical s.cfg.B := (h.regs i hi).1

/-- A valid register's integer is within the capacity (R18). -/
theorem State.Inv.natAbs_lt {s : State} (h : s.Inv) {i : RegId} (hi : s.Valid i) :
    (s.value i).natAbs < s.cfg.B ^ s.cfg.nmax :=
  (size_le_iff s.cfg.two_le_B (h.canonical hi) (le_trans (by omega) h.cfg.1)).1 (h.regs i hi).2

/-- A valid register holds the one canonical Number of its integer (R18, R66). -/
theorem State.Inv.eq_num {s : State} (h : s.Inv) {i : RegId} (hi : s.Valid i) :
    (s.reg i).num = num s.cfg.B (s.value i) := Machine.eq_num s.cfg.two_le_B (h.canonical hi)

theorem State.Inv.setNum {s : State} (h : s.Inv) (d : RegId) {x : Int} (hx : x.natAbs < s.cfg.B ^ s.cfg.nmax) :
    (s.setNum d (num s.cfg.B x)).Inv := by
  refine ⟨h.cfg, ?_, h.status, h.din, h.dout, h.tb⟩
  intro i hi
  unfold State.Valid at hi
  rw [State.reg_setNum] at hi ⊢
  split
  · exact ⟨num_canonical (by have := s.cfg.two_le_B; exact lt_of_lt_of_le (by omega) this) x,
      (num_size_le_iff s.cfg.two_le_B x (le_trans (by omega) h.cfg.1)).2 hx⟩
  · rename_i hne; rw [if_neg hne] at hi; exact h.regs i hi

theorem State.Inv.raise {s : State} (h : s.Inv) (hf : s.halted = false) (e : ErrCode) : (s.raise e).Inv :=
  ⟨h.cfg, h.regs, statusAfterError_legal s.status h.status hf e, h.din, h.dout, h.tb⟩

theorem State.Inv.succeed {s : State} (h : s.Inv) (hf : s.halted = false) : s.succeed.Inv :=
  ⟨h.cfg, h.regs, statusAfterSuccess_legal s.status h.status hf, h.din, h.dout, h.tb⟩

theorem State.Inv.setDout {s : State} (h : s.Inv) {p : Nat} (hp : p < 2 ^ s.cfg.IW) : (s.setDout p).Inv :=
  ⟨h.cfg, h.regs, h.status, h.din, hp, h.tb⟩

theorem State.Inv.setTextResult {s : State} (h : s.Inv) {text : List Byte} (hl : text.length ≤ s.cfg.tmax) :
    (s.setTextResult text).Inv := ⟨h.cfg, h.regs, h.status, h.din, h.dout, State.wf_setTextResult h.tb hl⟩

theorem State.Inv.setText {s : State} (h : s.Inv) {k : Nat} (hk : k < s.cfg.tmax) (b : Byte) : (s.setText k b).Inv :=
  ⟨h.cfg, h.regs, h.status, h.din, h.dout, State.wf_setText h.tb hk b⟩

theorem State.Inv.taking {s : State} (h : s.Inv) (rest : List HostAction) : (s.taking rest).Inv :=
  ⟨h.cfg, h.regs, h.status, h.din, h.dout, h.tb⟩

@[simp] theorem State.halted_setNum (s : State) (d : RegId) (n : Number) : (s.setNum d n).halted = s.halted := rfl
@[simp] theorem State.halted_setDout (s : State) (p : Nat) : (s.setDout p).halted = s.halted := rfl
@[simp] theorem State.halted_setTextResult (s : State) (t : List Byte) : (s.setTextResult t).halted = s.halted := rfl
@[simp] theorem State.halted_taking (s : State) (rest : List HostAction) : (s.taking rest).halted = s.halted := rfl
@[simp] theorem State.halted_succeed (s : State) : s.succeed.halted = s.halted :=
  fatalField_withErr s.status 0#4
theorem State.halted_raise (s : State) (e : ErrCode) : (s.raise e).halted = (e.fatal || s.halted) :=
  fatalField_statusAfterError s.status e

end Sys2Proof.Machine
end

