-- ==== Sys2Proof/Laws/PerInstr.lean ====
section
/-! SUPPORT. What holds of the encoding of each command, one lemma for each constructor (30_encoding R51, R52, R54). -/

namespace Sys2Proof.Laws.Encoding

/-- The word of the command matches its row of the opcode map: under the mask of its format it is its match value. -/
def Statement (i : Instr) : Prop := encode i &&& i.opcode.format.mask = i.opcode.matchWord

theorem fromint (rd : RegId) : Statement (.fromint rd) := by
  unfold Statement; rw [matchWord_eq]; exact and_mask .d _ _ _ _ _ _

theorem fromdec (rd : RegId) : Statement (.fromdec rd) := by
  unfold Statement; rw [matchWord_eq]; exact and_mask .d _ _ _ _ _ _

theorem toint (ra : RegId) : Statement (.toint ra) := by
  unfold Statement; rw [matchWord_eq]; exact and_mask .a _ _ _ _ _ _

theorem todec (ra : RegId) : Statement (.todec ra) := by
  unfold Statement; rw [matchWord_eq]; exact and_mask .a _ _ _ _ _ _

theorem mov (rd ra : RegId) : Statement (.mov rd ra) := by
  unfold Statement; rw [matchWord_eq]; exact and_mask .da _ _ _ _ _ _

theorem add (rd ra rb : RegId) : Statement (.add rd ra rb) := by
  unfold Statement; rw [matchWord_eq]; exact and_mask .dab _ _ _ _ _ _

theorem sub (rd ra rb : RegId) : Statement (.sub rd ra rb) := by
  unfold Statement; rw [matchWord_eq]; exact and_mask .dab _ _ _ _ _ _

theorem mul (rd ra rb : RegId) : Statement (.mul rd ra rb) := by
  unfold Statement; rw [matchWord_eq]; exact and_mask .dab _ _ _ _ _ _

theorem div (rd ra rb : RegId) : Statement (.div rd ra rb) := by
  unfold Statement; rw [matchWord_eq]; exact and_mask .dab _ _ _ _ _ _

theorem divrem (rd rr ra rb : RegId) : Statement (.divrem rd rr ra rb) := by
  unfold Statement; rw [matchWord_eq]; exact and_mask .drab _ _ _ _ _ _

theorem bitNot (rd ra : RegId) : Statement (.bitNot rd ra) := by
  unfold Statement; rw [matchWord_eq]; exact and_mask .da _ _ _ _ _ _

theorem bitOr (rd ra rb : RegId) : Statement (.bitOr rd ra rb) := by
  unfold Statement; rw [matchWord_eq]; exact and_mask .dab _ _ _ _ _ _

theorem bitXor (rd ra rb : RegId) : Statement (.bitXor rd ra rb) := by
  unfold Statement; rw [matchWord_eq]; exact and_mask .dab _ _ _ _ _ _

theorem bitAnd (rd ra rb : RegId) : Statement (.bitAnd rd ra rb) := by
  unfold Statement; rw [matchWord_eq]; exact and_mask .dab _ _ _ _ _ _

end Sys2Proof.Laws.Encoding
end

