-- ==== Sys2Proof/Laws/Ports.lean ====
section
/-! SUPPORT. How a command word reaches `exec` (30_encoding R51, R54, R58, 60_exceptions R141). -/

namespace Sys2Proof.Machine

/-- The must-be-zero bits of a format are its mask without the opcode byte (R51): they are zero exactly when the word
matches its row. -/
theorem mustBeZero_iff (f : Format) (o : Opcode) {z : CommandWord} {m4 m3 m2 m1 : BitVec 4}
    (hz : z = 0#8 ++ m4 ++ m3 ++ m2 ++ m1 ++ 255#8) (hm : f.mask = 255#8 ++ m4 ++ m3 ++ m2 ++ m1 ++ 255#8)
    {w : CommandWord} (hop : w.extractLsb' 24 8 = o.code) : w &&& z = 0#32 ↔ w &&& f.mask = o.matchWord := by
  rw [matchWord_eq, hm, hz]
  constructor
  · intro h
    apply BitVec.eq_of_getLsbD_eq
    intro i hi
    have h1 : (w &&& (0#8 ++ m4 ++ m3 ++ m2 ++ m1 ++ 255#8)).getLsbD i = false := by rw [h]; simp
    have h2 : ∀ j, (w.extractLsb' 24 8).getLsbD j = o.code.getLsbD j := fun j => by rw [hop]
    simp only [BitVec.getLsbD_and, BitVec.getLsbD_append, BitVec.getLsbD_extractLsb'] at h1 h2 ⊢
    by_cases hb : i < 24
    · interval_cases i <;> simp_all
    · have h3 := h2 (i - 24)
      rw [show 24 + (i - 24) = i by omega] at h3
      interval_cases i <;> simp_all
  · intro h
    apply BitVec.eq_of_getLsbD_eq
    intro i hi
    have h1 := congrArg (fun v : BitVec 32 => v.getLsbD i) h
    simp only [BitVec.getLsbD_and, BitVec.getLsbD_append] at h1 ⊢
    interval_cases i <;> simp_all

/-- The words of one row of the opcode map (R58), given that an ill-formed command of that row raises ILLEGAL (R56). -/
theorem issuesAs_intro {op : BitVec 8} {z : CommandWord} {i : CommandWord → Instr} (o : Opcode)
    (ho : opcodeOf op = some o)
    (hz : ∀ w : CommandWord, w.extractLsb' 24 8 = op → (w &&& z = 0#32 ↔ w &&& o.format.mask = o.matchWord))
    (hi : ∀ w, o.withFields w = i w)
    (hw : ∀ w s, (i w).wf = false → exec (i w) s = .next (s.raise .illegal)) : IssuesAs op z i := by
  intro s w hr hop
  unfold issueCommand
  rw [show s.halted = false from hr]
  simp only [Bool.false_eq_true, if_false, decode, opField, hop, ho]
  by_cases h : w &&& z = 0#32
  · rw [if_pos h, if_neg (not_not.2 ((hz w hop).1 h)), hi]
    by_cases hwf : (i w).wf = true
    · rw [if_pos hwf]
    · rw [if_neg hwf, hw w s (by simpa using hwf)]
  · rw [if_neg h, if_pos (fun e => h ((hz w hop).2 e))]

end Sys2Proof.Machine
end

