-- ==== Sys2Proof/Tests/Slice0.lean ====
section
/-! SUPPORT. Small tests, each of one step or one function, their results taken from spec/ (the table and section are named),
and the witnesses that the statements' hypotheses can be met. -/

namespace Sys2Proof.Tests

open Sys2Proof Sys2Proof.Machine

/-! ## Well-formedness and decoding (30_encoding R50-R58; words of 95_test_vectors 8.1) -/

theorem test_wf_refuses_same_destinations : (Instr.divrem 2 2 0 1).wf = false := by decide
theorem test_wf_accepts_destination_as_source : (Instr.divrem 2 0 2 1).wf = true := by decide

theorem test_decode_fromint : decode 0x01F00000#32 = .ok (.fromint 15) := by decide
theorem test_decode_fromdec : decode 0x02000000#32 = .ok (.fromdec 0) := by decide
theorem test_decode_toint : decode 0x03020000#32 = .ok (.toint 2) := by decide
theorem test_decode_todec : decode 0x04020000#32 = .ok (.todec 2) := by decide
theorem test_decode_mov : decode 0x05730000#32 = .ok (.mov 7 3) := by decide
theorem test_decode_add : decode 0x10201000#32 = .ok (.add 2 0 1) := by decide
theorem test_decode_sub : decode 0x11201000#32 = .ok (.sub 2 0 1) := by decide
theorem test_decode_mul : decode 0x12201000#32 = .ok (.mul 2 0 1) := by decide
theorem test_decode_div : decode 0x13201000#32 = .ok (.div 2 0 1) := by decide
theorem test_decode_divrem : decode 0x14201300#32 = .ok (.divrem 2 3 0 1) := by decide
theorem test_decode_not : decode 0x20550000#32 = .ok (.bitNot 5 5) := by decide
theorem test_decode_or : decode 0x21201000#32 = .ok (.bitOr 2 0 1) := by decide
theorem test_decode_xor : decode 0x22201000#32 = .ok (.bitXor 2 0 1) := by decide
theorem test_decode_and : decode 0x23FFF000#32 = .ok (.bitAnd 15 15 15) := by decide
theorem test_decode_all_zero_word : decode 0x00000000#32 = .error .unknownOpcode := by decide
theorem test_decode_next_opcode : decode 0x15000000#32 = .error .unknownOpcode := by decide
theorem test_decode_unused_ra : decode 0x01010000#32 = .error .unusedFieldNotZero := by decide
theorem test_decode_unused_rd : decode 0x04200000#32 = .error .unusedFieldNotZero := by decide
theorem test_decode_low_byte : decode 0x10201001#32 = .error .unusedFieldNotZero := by decide
theorem test_decode_same_destinations : decode 0x14010000#32 = .error .sameDestinations := by decide
theorem test_decodeTableWord : decodeTableWord 32 0x10201000 = some (.add 2 0 1) := by decide

/-! ## Helpers -/

def pos (ds : Digits) : Number := { sign := .positive, digits := ds }
def negative (ds : Digits) : Number := { sign := .negative, digits := ds }

/-- After reset of the build `c`, with `N0` and `N1` holding the two Numbers. -/
def two (c : Config) (x y : Number) : State := ((State.resetOf c).setNum 0 x).setNum 1 y

/-- The state an outcome goes on with; the reset state for a stop. -/
def after : Host.Outcome State Fault Refusal → State
  | .next t => t
  | .fault _ => State.reset
  | .refused _ => State.reset

/-- `N[r]` and STATUS after a command. -/
def result (i : Instr) (s : State) (r : RegId) : NumReg × BitVec 32 := ((after (exec i s)).reg r, (after (exec i s)).status)

/-- The bytes of a text of characters below 128 (R39). -/
def text (cs : List Nat) : List Byte := cs.map (BitVec.ofNat 8)

/-- The state after the host wrote a text and its length (30_encoding R60). -/
def withText (c : Config) (t : List Byte) : State := (State.resetOf c).setTextResult t

/-! ## One step of each command: the worked examples of the commands' rules -/

/-- R71, CFG16: `DIN = 0x7FFFFFFF`. -/
theorem test_fromint_two_digits : result (.fromint 0) { State.resetOf .cfg16 with din := 0x7FFFFFFF } 0 =
    (⟨true, pos [0xFFFF, 0x7FFF]⟩, 0#32) := by decide
/-- R71, CFG32: `DIN = 0xFFFFFC7D` is -899. -/
theorem test_fromint_negative : result (.fromint 1) { State.resetOf .cfg32 with din := 0xFFFFFC7D } 1 =
    (⟨true, negative [0x383]⟩, 0#32) := by decide
/-- R73, CFG16. -/
theorem test_toint_negative : (after (exec (.toint 0) (two .cfg16 (negative [0x0383]) (pos [0])))).dout = 0xFFFFFC7D := by
  decide
/-- R73: `-(2^32 + 5)` gives `0xFFFFFFFB`. -/
theorem test_toint_truncates :
    (after (exec (.toint 0) (two .cfg16 (negative [5, 0, 1]) (pos [0])))).dout = 0xFFFFFFFB := by decide
/-- R75, CFG16: `"18446744073709551616"` is `2^64`. -/
theorem test_fromdec_chunks : result (.fromdec 0) (withText .cfg16 (text [0x31, 0x38, 0x34, 0x34, 0x36, 0x37, 0x34, 0x34,
      0x30, 0x37, 0x33, 0x37, 0x30, 0x39, 0x35, 0x35, 0x31, 0x36, 0x31, 0x36])) 0 =
    (⟨true, pos [0, 0, 0, 0, 1]⟩, 0#32) := by decide
/-- R75: `"-0"` is Positive zero. -/
theorem test_fromdec_minus_zero : result (.fromdec 0) (withText .cfg32 (text [0x2D, 0x30])) 0 =
    (⟨true, pos [0]⟩, 0#32) := by decide
/-- R80: 579 gives `"579"`. -/
theorem test_todec : (after (exec (.todec 0) (two .cfg32 (pos [579]) (pos [0])))).textOperand = text [0x35, 0x37, 0x39] := by
  decide
/-- R82, R83: 100656 in chunks of 4 is `"10"` and the padded `"0656"`. -/
theorem test_todec_pads : (after (exec (.todec 0) (two .cfg16 (negative [0x8930, 1]) (pos [0])))).textOperand =
    text [0x2D, 0x31, 0x30, 0x30, 0x36, 0x35, 0x36] := by decide
/-- R70, CFG16. -/
theorem test_mov : result (.mov 7 0) (two .cfg16 (negative [0, 1]) (pos [0])) 7 = (⟨true, negative [0, 1]⟩, 0#32) := by
  decide
/-- R93: the source's scenario 1. -/
theorem test_add : result (.add 2 0 1) (two .cfg16 (pos [0x7B]) (pos [0x1C8])) 2 = (⟨true, pos [0x243]⟩, 0#32) := by
  decide
/-- R93: `[0xFFFF] + [1] = [0, 1]`, into a source register. -/
theorem test_add_carries : result (.add 0 0 1) (two .cfg16 (pos [0xFFFF]) (pos [1])) 0 = (⟨true, pos [0, 1]⟩, 0#32) := by
  decide
/-- R94: the source's scenario 2. -/
theorem test_sub_swaps : result (.sub 2 0 1) (two .cfg16 (pos [0x64]) (pos [0x3E7])) 2 =
    (⟨true, negative [0x383]⟩, 0#32) := by decide
/-- R94: `[0, 0, 1] - [1] = [0xFFFF, 0xFFFF]`. -/
theorem test_sub_borrows : result (.sub 2 0 1) (two .cfg16 (pos [0, 0, 1]) (pos [1])) 2 =
    (⟨true, pos [0xFFFF, 0xFFFF]⟩, 0#32) := by decide
/-- R100, CFG16: the source's scenario 3. -/
theorem test_mul : result (.mul 2 0 1) (two .cfg16 (pos [0x3039]) (pos [0x1A85])) 2 =
    (⟨true, pos [0xD79D, 0x04FE]⟩, 0#32) := by decide
/-- R100: a product with a zero is Positive zero. -/
theorem test_mul_zero : result (.mul 2 0 1) (two .cfg16 (negative [5]) (pos [0])) 2 = (⟨true, pos [0]⟩, 0#32) := by decide
/-- R120, CFG16: the source's scenario 4 through Algorithm D. -/
theorem test_div_algorithm_d : result (.div 2 0 1) (two .cfg16 (pos [0, 0, 0, 0, 1]) (pos [0, 1])) 2 =
    (⟨true, pos [0, 0, 0, 1]⟩, 0#32) := by decide
/-- 95_test_vectors 6.1: `-1 / 2` is Positive zero. -/
theorem test_div_to_zero : result (.div 2 0 1) (two .cfg32 (negative [1]) (pos [2])) 2 = (⟨true, pos [0]⟩, 0#32) := by
  decide
/-- 95_test_vectors D4: the step-4 decrement and `qhat = B`. -/
theorem test_divrem_decrements : let s := after (exec (.divrem 0 1 0 1) (two .cfg16 (pos [0, 0, 0, 1]) (pos [1, 0, 1])))
    s.reg 0 = ⟨true, pos [0xFFFF]⟩ ∧ s.reg 1 = ⟨true, pos [1, 0xFFFF]⟩ := by decide
/-- R121: `-7 = (-3) * 2 + (-1)`. -/
theorem test_divrem_signs : let s := after (exec (.divrem 2 3 0 1) (two .cfg32 (negative [7]) (pos [2])))
    s.reg 2 = ⟨true, negative [3]⟩ ∧ s.reg 3 = ⟨true, negative [1]⟩ := by decide
/-- R133, CFG16: `NOT 65535 = -65536` needs the headroom digit. -/
theorem test_not_headroom : result (.bitNot 0 0) (two .cfg16 (pos [0xFFFF]) (pos [0])) 0 =
    (⟨true, negative [0, 1]⟩, 0#32) := by decide
/-- R133: `NOT -65535 = 65534`. -/
theorem test_not_negative : result (.bitNot 2 0) (two .cfg16 (negative [0xFFFF]) (pos [0])) 2 =
    (⟨true, pos [0xFFFE]⟩, 0#32) := by decide
/-- R134: `5 OR -3 = -3`. -/
theorem test_or : result (.bitOr 2 0 1) (two .cfg16 (pos [5]) (negative [3])) 2 = (⟨true, negative [3]⟩, 0#32) := by decide
/-- R135: `-5 XOR -3 = 6`. -/
theorem test_xor : result (.bitXor 2 0 1) (two .cfg16 (negative [5]) (negative [3])) 2 = (⟨true, pos [6]⟩, 0#32) := by
  decide
/-- R136: `-65536 AND 65535 = 0`. -/
theorem test_and : result (.bitAnd 2 0 1) (two .cfg16 (negative [0, 1]) (pos [0xFFFF])) 2 = (⟨true, pos [0]⟩, 0#32) := by
  decide

/-! ## Errors and the command port (95_test_vectors 8.2) -/

theorem test_uninit_halts : result (.add 2 0 1) State.reset 2 = (NumReg.reset, 0x1A#32) := by decide
theorem test_divzero_halts : result (.div 2 0 1) (two .cfg16 (pos [5]) (pos [0])) 2 = (NumReg.reset, 0x18#32) := by decide
theorem test_parse_rejects : result (.fromdec 0) (withText .cfg16 (text [0x31, 0x32, 0x78])) 0 =
    (NumReg.reset, 0x03#32) := by decide
theorem test_illegal_before_uninit : (after (step (State.reset.withCommand 0x10201001#32))).status = 0x01#32 := by decide
theorem test_halted_ignores :
    (after (step ({ State.reset with status := 0x18#32 }.withCommand 0x01300000#32))).reg 3 = NumReg.reset := by decide
theorem test_step_runs_fetched_word :
    (after (step (State.reset.withFetchWord 32 0x01000000))).reg 0 = ⟨true, pos [0]⟩ := by decide
theorem test_cmd_reads_zero : (after (perform (.read .cmd) State.reset)).hostGot = some 0 := by decide

/-! ## Witnesses: for each statement with hypotheses, a state and operands that meet them, clause by clause

The build `tiny` has the least capacities (R8), so that a sum, a product or a text can be one too long. -/

def tiny : Config := { digit := .w16, machine := .twoDigits, nmax := 2, tmax := 3, tbReset := [] }

/-- The hypotheses the command statements share, with `N0` and `N1` as the sources. -/
def Ready (s : State) : Prop := s.Inv ∧ s.Running ∧ s.Valid 0 ∧ s.Valid 1

theorem inv_two {c : Config} (hc : c.Wf) {x y : Number} (hx : x.Canonical c.B ∧ x.size ≤ c.nmax)
    (hy : y.Canonical c.B ∧ y.size ≤ c.nmax) : (two c x y).Inv := by
  refine ⟨hc, ?_, .inl rfl, by change 0 < _; positivity, by change 0 < _; positivity, rfl⟩
  intro i hi
  unfold State.Valid at hi
  simp only [two, State.reg_setNum, State.setNum_cfg] at hi ⊢
  split
  · exact hy
  · split
    · exact hx
    · rename_i h1 h0
      rw [if_neg h1, if_neg h0, State.reg_resetOf] at hi
      cases hi

theorem ready_two {x y : Number} (hx : x.Canonical tiny.B ∧ x.size ≤ tiny.nmax)
    (hy : y.Canonical tiny.B ∧ y.size ≤ tiny.nmax) : Ready (two tiny x y) :=
  ⟨inv_two (by decide) hx hy, (by decide : fatalField 0#32 = false), rfl, rfl⟩

/-- A full first operand, `B^NMAX - 1`. -/
def full (y : Number) : State := two tiny (pos [0xFFFF, 0xFFFF]) y

theorem ready_full {y : Number} (hy : y.Canonical tiny.B ∧ y.size ≤ tiny.nmax) : Ready (full y) :=
  ready_two (by decide) hy

/-- After reset no register holds a Number: the UNINIT clauses. -/
theorem witness_no_source_valid (i : RegId) : (State.resetOf tiny).Inv ∧ (State.resetOf tiny).Running ∧
    ¬ (State.resetOf tiny).Valid i := by
  have h : ∀ j : RegId, ¬ (State.resetOf tiny).Valid j := fun j => by rw [State.Valid, State.reg_resetOf]; decide
  exact ⟨⟨by decide, fun j hj => absurd hj (h j), .inl rfl, by decide, by decide, rfl⟩, by decide, h i⟩

theorem witness_reset_state : (0 : Nat) < [0x41#8].length ∧ Config.cfg16.Wf ∧ Config.cfg32.Wf ∧ tiny.Wf := by decide

theorem witness_illegal_words : State.reset.Running ∧ IllegalWord 0x00000000#32 ∧ IllegalWord 0x02000100#32 ∧
    IllegalWord 0x03120000#32 ∧ IllegalWord 0x05731000#32 ∧ IllegalWord 0x10201001#32 ∧ IllegalWord 0x14201200#32 := by
  refine ⟨by decide, ?_, ?_, ?_, ?_, ?_, ?_⟩ <;> simp [IllegalWord]

theorem witness_step_runs_command : (State.reset.withCommand 0x10201000#32).pending = [.writeCmd 0x10201000#32] ∧
    (State.reset.withCommand 0x10201000#32).Running ∧ decode 0x10201000#32 = .ok (.add 2 0 1) ∧
    decodeTableWord 32 0x10201000 = some (.add 2 0 1) ∧ State.reset.Running := by decide

theorem witness_halted : ({ State.reset with status := 0x1A#32 } : State).halted = true ∧
    perform (.writeStatus 0#32) { State.reset with status := 0x1A#32 } = .next { State.reset with status := 0x1A#32 } ∧
    (0 : Nat) < 2 ^ State.reset.cfg.IW ∧ 2 ^ State.reset.cfg.IW - 1 < 2 ^ State.reset.cfg.IW ∧
    1023 < State.reset.cfg.tmax := ⟨by decide, rfl, by decide, by decide, by decide⟩

theorem witness_reset_action : ({ State.reset with pending := [.reset] } : State).pending = [.reset] ∧
    ({ State.reset with status := 0x18#32 } : State).halted = true ∧
    perform .reset { State.reset with status := 0x18#32 } = .next State.reset ∧ State.reset.Running :=
  ⟨rfl, by decide, rfl, by decide⟩

theorem witness_host_table : Memory.wf State.reset = true ∧ State.reset.Running ∧
    decode 0x01000000#32 = .ok (.fromint 0) ∧ decode 0x00000000#32 = .error .unknownOpcode ∧
    1023 < State.reset.cfg.tmax ∧ (0 : Nat) < 2 ^ State.reset.cfg.IW ∧
    ({ State.reset with status := 0x18#32 } : State).halted = true := by decide

theorem witness_model_stops : State.reset.cfg.tmax ≤ 1024 ∧ State.reset.pending = [] := by decide

theorem witness_success : exec (.fromint 0) State.reset = .next (after (exec (.fromint 0) State.reset)) ∧
    errField (after (exec (.fromint 0) State.reset)).status = 0#4 := ⟨rfl, by decide⟩

theorem witness_error : exec (.mov 0 1) State.reset = .next (after (exec (.mov 0 1) State.reset)) ∧
    errField (after (exec (.mov 0 1) State.reset)).status ≠ 0#4 := ⟨rfl, by decide⟩

theorem witness_raised_errors : (Instr.divrem 2 3 0 1).wf = true ∧ Ready (full (pos [0])) ∧
    exec (.divrem 2 3 0 1) (full (pos [0])) = .next ((full (pos [0])).raise .divzero) :=
  ⟨by decide, ready_full (by decide), rfl⟩

theorem witness_uninit_source : (Instr.add 2 0 1).wf = true ∧ (1 : RegId) ∈ (Instr.add 2 0 1).sources ∧
    ¬ ((State.resetOf tiny).setNum 0 (pos [5])).Valid 1 ∧
    ∀ r ∈ (Instr.add 2 0 1).sources, (two tiny (pos [5]) (pos [0])).Valid r := by decide

/-- `DIV` of a register without a Number by zero; `DIV` of a Number by zero; a word with a low bit set. -/
theorem witness_error_order : ((State.resetOf tiny).setNum 1 (pos [0])).Running ∧
    decode 0x13201000#32 = .ok (.div 2 0 1) ∧ ¬ ((State.resetOf tiny).setNum 1 (pos [0])).Valid 0 ∧
    Ready (full (pos [0])) ∧ (full (pos [0])).value 1 = 0 ∧ IllegalWord 0x13201001#32 ∧
    ({ State.reset with status := 0x18#32 } : State).halted = true :=
  ⟨by decide, by decide, by decide, ready_full (by decide), by decide, by simp [IllegalWord], by decide⟩

theorem witness_canonical_number : (negative [7]).Canonical Config.cfg16.B ∧
    (negative [7]).value Config.cfg16.B = -7 ∧ (∀ d ∈ [7, 0], d < Config.cfg16.B) ∧
    (pos [7, 0]).sign.cpl = false ∧ (pos [7, 0]).value Config.cfg16.B = 7 := by decide

/-- Every must-be-zero test of the command statements can go both ways. -/
theorem witness_issues_as : State.reset.Running ∧ (0x10201000#32 : CommandWord).extractLsb' 24 8 = 0x10#8 ∧
    0x10201000#32 &&& 0x00000FFF#32 = 0#32 ∧ (0x10201001#32 : CommandWord).extractLsb' 24 8 = 0x10#8 ∧
    0x10201001#32 &&& 0x00000FFF#32 ≠ 0#32 := by decide

theorem witness_fromint : Ready { full (pos [0]) with din := 0x80000000 } :=
  have h := ready_full (y := pos [0]) (by decide)
  ⟨⟨h.1.cfg, h.1.regs, h.1.status, by decide, h.1.dout, h.1.tb⟩, h.2⟩

theorem witness_toint_mov : Ready (full (pos [0])) ∧ (full (pos [0])).value 0 = 2 ^ 32 - 1 ∧
    (full (pos [0])).value 1 = 0 := ⟨ready_full (by decide), by decide, by decide⟩

theorem inv_withText {c : Config} (hc : c.Wf) {t : List Byte} (ht : t.length ≤ c.tmax) : (withText c t).Inv :=
  State.Inv.setTextResult ⟨hc, fun j hj => (by rw [State.Valid, State.reg_resetOf] at hj; cases hj), .inl rfl,
    by change 0 < _; positivity, by change 0 < _; positivity, rfl⟩ ht

theorem witness_fromdec : (withText tiny (text [0x2D, 0x34, 0x32])).Inv ∧
    (withText tiny (text [0x2D, 0x34, 0x32])).Running ∧
    (withText tiny (text [0x2D, 0x34, 0x32])).HoldsText (text [0x2D, 0x34, 0x32]) ∧
    (text [0x2D, 0x34, 0x32]).length ≤ tiny.tmax ∧ Denotes (text [0x2D, 0x34, 0x32]) (-42) ∧
    (withText tiny (text [0x2D, 0x34, 0x32])).Fits (-42) :=
  ⟨inv_withText (by decide) (by decide), by decide, by rw [State.holdsText_iff]; decide, by decide,
    ⟨text [0x34, 0x32], by decide, by decide, .inr (.inr (by decide))⟩, by decide⟩

/-- The build with room for ten characters. -/
def tenChars : Config := { tiny with tmax := 10 }

/-- `"4294967296"`, which is `B^NMAX`. -/
def tooLarge : List Byte := text [0x34, 0x32, 0x39, 0x34, 0x39, 0x36, 0x37, 0x32, 0x39, 0x36]

theorem witness_fromdec_too_large : (withText tenChars tooLarge).Inv ∧ (withText tenChars tooLarge).Running ∧
    (withText tenChars tooLarge).HoldsText tooLarge ∧ tooLarge.length ≤ tenChars.tmax ∧
    Denotes tooLarge 4294967296 ∧ ¬ (withText tenChars tooLarge).Fits 4294967296 :=
  ⟨inv_withText (by decide) (by decide), by decide, by rw [State.holdsText_iff]; decide, by decide,
    ⟨_, by decide, by decide, .inl ⟨rfl, by decide⟩⟩, by decide⟩

/-- An empty text denotes nothing (R76). -/
theorem witness_fromdec_rejected (t : List Byte) (x : Int) (h : (State.resetOf tiny).HoldsText t) : ¬ Denotes t x := by
  have h0 : t = [] := List.length_eq_zero_iff.1 h.1.symm
  rintro ⟨cs, h1, _, ⟨rfl, _⟩ | ⟨rfl, _⟩ | ⟨rfl, _⟩⟩
  · exact h1 h0
  · cases h0
  · cases h0

theorem witness_todec : Ready (full (pos [0])) ∧ CanonicalText (text [0x30]) ((full (pos [0])).value 1) ∧
    (text [0x30]).length ≤ (full (pos [0])).cfg.tmax :=
  ⟨ready_full (by decide), ⟨text [0x30], by decide, by decide, fun _ => rfl, by decide, by decide⟩, by decide⟩

theorem witness_todec_too_long : Ready (full (pos [0])) ∧
    CanonicalText (text [0x34, 0x32, 0x39, 0x34, 0x39, 0x36, 0x37, 0x32, 0x39, 0x35]) ((full (pos [0])).value 0) ∧
    (full (pos [0])).cfg.tmax < (text [0x34, 0x32, 0x39, 0x34, 0x39, 0x36, 0x37, 0x32, 0x39, 0x35]).length :=
  ⟨ready_full (by decide), ⟨_, by decide, by decide, fun h => absurd h (by decide), by decide, rfl⟩, by decide⟩

theorem witness_add : Ready (full (pos [0])) ∧
    (full (pos [0])).Fits ((full (pos [0])).value 0 + (full (pos [0])).value 1) ∧ Ready (full (pos [1])) ∧
    ¬ (full (pos [1])).Fits ((full (pos [1])).value 0 + (full (pos [1])).value 1) :=
  ⟨ready_full (by decide), by decide, ready_full (by decide), by decide⟩

theorem witness_sub : Ready (full (pos [1])) ∧
    (full (pos [1])).Fits ((full (pos [1])).value 0 - (full (pos [1])).value 1) ∧ Ready (full (negative [1])) ∧
    ¬ (full (negative [1])).Fits ((full (negative [1])).value 0 - (full (negative [1])).value 1) :=
  ⟨ready_full (by decide), by decide, ready_full (by decide), by decide⟩

theorem witness_mul : Ready (full (pos [1])) ∧
    (full (pos [1])).Fits ((full (pos [1])).value 0 * (full (pos [1])).value 1) ∧ Ready (full (pos [2])) ∧
    ¬ (full (pos [2])).Fits ((full (pos [2])).value 0 * (full (pos [2])).value 1) :=
  ⟨ready_full (by decide), by decide, ready_full (by decide), by decide⟩

theorem witness_div_divrem : Ready (full (pos [1])) ∧ (full (pos [1])).value 1 ≠ 0 ∧ Ready (full (pos [0])) ∧
    (full (pos [0])).value 1 = 0 ∧ (2 : RegId) ≠ 3 :=
  ⟨ready_full (by decide), by decide, ready_full (by decide), by decide, by decide⟩

theorem witness_not : Ready (full (negative [1])) ∧
    (full (negative [1])).Fits (-((full (negative [1])).value 1 + 1)) ∧
    ¬ (full (negative [1])).Fits (-((full (negative [1])).value 0 + 1)) :=
  ⟨ready_full (by decide), by decide, by decide⟩

/-- `(B^NMAX - 1) XOR -1 = -B^NMAX` does not fit; `(B^NMAX - 1) XOR 0` does (R138). -/
theorem witness_or_xor : Ready (full (negative [1])) ∧ Ready (full (pos [0])) ∧
    exec (.bitXor 2 0 1) (full (negative [1])) = .next ((full (negative [1])).raise .alloc) ∧
    (after (exec (.bitXor 2 0 1) (full (pos [0])))).status = 0#32 :=
  ⟨ready_full (by decide), ready_full (by decide), rfl, by decide⟩

/-- `-(B^NMAX - 1) AND -(B^NMAX - 2) = -B^NMAX` does not fit (R138). -/
def bothNegative : State := two tiny (negative [0xFFFF, 0xFFFF]) (negative [0xFFFE, 0xFFFF])

theorem witness_and : Ready bothNegative ∧ Ready (full (pos [0])) ∧
    exec (.bitAnd 2 0 1) bothNegative = .next (bothNegative.raise .alloc) ∧
    (after (exec (.bitAnd 2 0 1) (full (pos [0])))).status = 0#32 :=
  ⟨ready_two (by decide) (by decide), ready_full (by decide), rfl, by decide⟩

theorem witness_frames : (Instr.fromint 0).dests ≠ [] ∧ (Instr.divrem 2 3 0 1).dests ≠ [] ∧
    exec (.fromint 0) (full (pos [0])) = .next (after (exec (.fromint 0) (full (pos [0])))) ∧
    exec (.toint 0) (full (pos [0])) = .next (after (exec (.toint 0) (full (pos [0])))) ∧
    exec (.todec 1) (full (pos [0])) = .next (after (exec (.todec 1) (full (pos [0])))) :=
  ⟨by decide, by decide, rfl, rfl, rfl⟩

theorem witness_add_laws : Ready (full (pos [0])) ∧ (full (pos [0])).value 1 = 0 ∧
    (after (exec (.add 2 0 1) (full (pos [0])))).status = 0#32 := ⟨ready_full (by decide), by decide, by decide⟩

theorem witness_add_sub_capacity : Ready (full (pos [1])) ∧ Ready (full (negative [1])) ∧
    ((full (pos [1])).reg 0).num.sign = ((full (pos [1])).reg 1).num.sign ∧
    ((full (negative [1])).reg 0).num.sign ≠ ((full (negative [1])).reg 1).num.sign ∧
    exec (.add 2 0 1) (full (pos [1])) = .next ((full (pos [1])).raise .alloc) ∧
    exec (.sub 2 0 1) (full (negative [1])) = .next ((full (negative [1])).raise .alloc) :=
  ⟨ready_full (by decide), ready_full (by decide), by decide, by decide, rfl, rfl⟩

/-- Sizes 1 and 1 (`la + lb = NMAX`), 2 and 1 (`NMAX + 1`), 2 and 2 (`la + lb - 1 > NMAX`), and a zero operand (R102). -/
theorem witness_mul_capacity : Ready (two tiny (pos [5]) (pos [7])) ∧ Ready (full (pos [2])) ∧
    Ready (full (pos [0, 1])) ∧ Ready (full (pos [0])) ∧
    ((two tiny (pos [5]) (pos [7])).reg 0).num.size + ((two tiny (pos [5]) (pos [7])).reg 1).num.size = tiny.nmax ∧
    ((full (pos [2])).reg 0).num.size + ((full (pos [2])).reg 1).num.size = tiny.nmax + 1 ∧
    tiny.nmax < ((full (pos [0, 1])).reg 0).num.size + ((full (pos [0, 1])).reg 1).num.size - 1 ∧
    (full (pos [2])).value 0 ≠ 0 ∧ (full (pos [2])).value 1 ≠ 0 ∧ (full (pos [0])).value 1 = 0 := by
  refine ⟨ready_two (by decide) (by decide), ready_full (by decide), ready_full (by decide), ready_full (by decide), ?_⟩
  decide

theorem witness_division_contract : Ready (full (pos [7])) ∧ (full (pos [7])).value 1 ≠ 0 ∧ (2 : RegId) ≠ 3 ∧
    (1 : RegId) ≠ 2 ∧ (1 : RegId) ≠ 3 ∧ (4 : RegId) ≠ 3 := by
  refine ⟨ready_full (by decide), ?_⟩
  decide

theorem witness_not_involution : Ready (full (pos [7])) ∧ (after (exec (.bitNot 2 1) (full (pos [7])))).status = 0#32 ∧
    (after (exec (.bitNot 2 2) (after (exec (.bitNot 2 1) (full (pos [7])))))).status = 0#32 :=
  ⟨ready_full (by decide), by decide, by decide⟩

/-- The five vectors of R137 are each the value of a register. -/
theorem witness_not_vectors : (full (pos [0])).value 1 = 0 ∧ (full (negative [1])).value 1 = -1 ∧
    (full (pos [0xFFFF, 0x7FFF])).value 1 = 2 ^ (tiny.IW - 1) - 1 ∧ (full (pos [0xFFFF])).value 1 = 65535 ∧
    (full (negative [0xFFFF])).value 1 = -65535 := by decide

theorem witness_bitwise_capacity : Ready (full (pos [0])) ∧ Ready (two tiny (pos [5]) (pos [7])) ∧
    (full (pos [0])).value 0 = (tiny.B : Int) ^ tiny.nmax - 1 ∧
    ((two tiny (pos [5]) (pos [7])).reg 0).num.size < tiny.nmax ∧
    max ((two tiny (pos [5]) (pos [7])).reg 0).num.size ((two tiny (pos [5]) (pos [7])).reg 1).num.size < tiny.nmax :=
  ⟨ready_full (by decide), ready_two (by decide) (by decide), by decide, by decide, by decide⟩

/-- An integer with the bits the capacity statement asks for. -/
theorem witness_bits (k : Nat) : intBit 0 k = (intBit 5 k && intBit 0 k) ∧ intBit 5 k = (intBit 5 k ^^ intBit 0 k) := by
  have h : intBit 0 k = false := by simpa using intBit_natCast 0 k
  simp [h]

theorem witness_bitwise_identities : Ready (full (pos [0])) ∧ (full (pos [0])).value 1 = 0 ∧
    Ready (full (negative [1])) ∧ (full (negative [1])).value 1 = -1 :=
  ⟨ready_full (by decide), by decide, ready_full (by decide), by decide⟩

/-- `"+07"` denotes 7, whose canonical text is `"7"`. -/
theorem witness_text_round_trip : (withText tiny (text [0x2B, 0x30, 0x37])).Inv ∧
    (withText tiny (text [0x2B, 0x30, 0x37])).Running ∧
    (withText tiny (text [0x2B, 0x30, 0x37])).HoldsText (text [0x2B, 0x30, 0x37]) ∧
    (text [0x2B, 0x30, 0x37]).length ≤ tiny.tmax ∧ Denotes (text [0x2B, 0x30, 0x37]) 7 ∧
    (withText tiny (text [0x2B, 0x30, 0x37])).Fits 7 ∧ CanonicalText (text [0x37]) 7 :=
  ⟨inv_withText (by decide) (by decide), by decide, by rw [State.holdsText_iff]; decide, by decide,
    ⟨text [0x30, 0x37], by decide, by decide, .inr (.inl (by decide))⟩, by decide,
    ⟨text [0x37], by decide, by decide, fun h => absurd h (by decide), by decide, by decide⟩⟩

theorem witness_step : step (two tiny (pos [5]) (pos [7])) = .next (two tiny (pos [5]) (pos [7])) ∧
    (two tiny (pos [5]) (pos [7])).Valid 1 ∧ (two tiny (pos [5]) (pos [7])).pending.head? ≠ some .reset ∧
    (two tiny (pos [5]) (pos [7])).Inv :=
  ⟨rfl, rfl, by decide, inv_two (by decide) (by decide) (by decide)⟩

/-- Two states that differ in STATUS and `DOUT` alone, and a command in each. -/
theorem witness_no_hidden_input :
    exec (.fromint 0) State.reset = .next (after (exec (.fromint 0) State.reset)) ∧
    exec (.fromint 0) { State.reset with dout := 5, status := 1#32 } =
      .next (after (exec (.fromint 0) { State.reset with dout := 5, status := 1#32 })) := ⟨rfl, rfl⟩

theorem witness_encoding : (Instr.divrem 15 14 15 15).wf = true ∧ decode 0x14FFFE00#32 = .ok (.divrem 15 14 15 15) := by
  decide

end Sys2Proof.Tests
end

section
/-! The decimal chunk length (00_scope R6). The lower bound `10^D < B` is `Config.ten_pow_D_lt`. -/

namespace Sys2Proof

/-- The table of R6. -/
theorem Config.W_and_D (c : Config) : (c.W = 32 ∧ c.D = 9) ∨ (c.W = 16 ∧ c.D = 4) := by
  unfold Config.W Config.D
  cases c.digit with
  | w16 => exact .inr ⟨rfl, rfl⟩
  | w32 => exact .inl ⟨rfl, rfl⟩

/-- `D` is the largest chunk length for which a chunk is always one digit: `10^(D+1)` reaches the base (R6). -/
theorem Config.B_le_ten_pow_D_succ (c : Config) : c.B ≤ 10 ^ (c.D + 1) := by
  rw [Config.B]
  obtain ⟨hW, hD⟩ | ⟨hW, hD⟩ := c.W_and_D
  · rw [hW, hD]; norm_num
  · rw [hW, hD]; norm_num

/-- Settles O18: the table of R6, with the bounds `10^D < B` and `B ≤ 10^(D+1)` at each digit width. -/
theorem chunkLength : Obligations.ChunkLength := by
  unfold Obligations.ChunkLength
  exact fun c => ⟨c.W_and_D, c.ten_pow_D_lt, c.B_le_ten_pow_D_succ⟩

end Sys2Proof
end

section
/-! The host's moves (70_reset_and_hazards R172): the one inversion lemma of `perform`, and that no move changes the
build parameters (00_scope R5). -/

namespace Sys2Proof.Machine

/-- Everything a host move that answers a next state can do to the block (R172). -/
inductive Move (s : State) : HostAction → State → Prop
  | reset : Move s .reset s.afterReset
  | halted (w : CommandWord) (hh : s.halted = true) : Move s (.writeCmd w) s
  | illegal {w : CommandWord} (c : IllegalCause) (hr : s.Running) (hd : decode w = .error c) :
      Move s (.writeCmd w) (s.raise .illegal)
  | command {w : CommandWord} {i : Instr} {t : State} (hr : s.Running) (hd : decode w = .ok i)
      (he : exec i s = .next t) : Move s (.writeCmd w) t
  | writeDin (v : Nat) : Move s (.writeDin v) { s with din := v % 2 ^ s.cfg.IW }
  | writeTlen (v : BitVec 32) : Move s (.writeTlen v) { s with tlen := v }
  | writeTb {k : Nat} (b : Byte) (hk : k < s.cfg.tmax) : Move s (.writeTb k b) (s.setText k b)
  | writeStatus (v : BitVec 32) : Move s (.writeStatus v) s
  | writeDout (v : Nat) : Move s (.writeDout v) s
  | read (p : Port) (v : Nat) : Move s (.read p) { s with hostGot := some v }

/-- A write of `CMD` is ignored, illegal, or the command it decodes to (R29, R58, R150). -/
theorem move_of_issueCommand {w : CommandWord} {s t : State} (h : issueCommand w s = .next t) :
    Move s (.writeCmd w) t := by
  cases hh : s.halted with
  | true =>
    rw [issueCommand_halted hh] at h
    cases h
    exact .halted w hh
  | false =>
    cases hd : decode w with
    | error c =>
      rw [issueCommand_error hh hd] at h
      cases h
      exact .illegal c hh hd
    | ok i => exact .command hh hd (issueCommand_ok hh hd ▸ h)

/-- A read of a port changes nothing but what the host got (R43). -/
theorem move_of_readPort {p : Port} {s t : State} (h : readPort p s = .next t) : Move s (.read p) t := by
  cases p with
  | tb k =>
    rw [readPort] at h
    split at h
    · cases h; exact .read _ _
    · cases h
  | status | din | dout | tlen | cmd => cases h; exact .read _ _

/-- The one inversion lemma of `perform`. -/
theorem move_of_perform {a : HostAction} {s t : State} (h : perform a s = .next t) : Move s a t := by
  cases a with
  | reset => cases h; exact .reset
  | writeCmd w => exact move_of_issueCommand h
  | writeDin v => cases h; exact .writeDin v
  | writeTlen v => cases h; exact .writeTlen v
  | writeTb k b =>
    rw [perform] at h
    split at h
    · cases h; exact .writeTb b ‹_›
    · cases h
  | writeStatus v => cases h; exact .writeStatus v
  | writeDout v => cases h; exact .writeDout v
  | read p => exact move_of_readPort h

/-- A step performs nothing, or one host move in the state with that action taken off the list (R171). -/
theorem step_cases {s t : State} (h : step s = .next t) :
    (s.pending = [] ∧ t = s) ∨ ∃ a rest, s.pending = a :: rest ∧ Move (s.taking rest) a t := by
  unfold step at h
  cases hp : s.pending with
  | nil =>
    rw [hp] at h
    cases h
    exact .inl ⟨rfl, rfl⟩
  | cons a rest =>
    rw [hp] at h
    exact .inr ⟨a, rest, rfl, move_of_perform h⟩

/-- `exec_effect` read at the next state a command answers. -/
theorem effect_of_exec {i : Instr} {s t : State} (h : exec i s = .next t) : Effect i s (.next t) :=
  h ▸ exec_effect i s

theorem exec_cfg {i : Instr} {s t : State} (h : exec i s = .next t) : t.cfg = s.cfg := by
  cases effect_of_exec h <;> rfl

theorem Move.cfg_eq {a : HostAction} {s t : State} (h : Move s a t) : t.cfg = s.cfg := by
  cases h with
  | command _ _ he => exact exec_cfg he
  | _ => rfl

/-- No step changes the build parameters (R5). -/
theorem step_cfg {s t : State} (h : step s = .next t) : t.cfg = s.cfg := by
  obtain ⟨-, rfl⟩ | ⟨a, rest, -, hm⟩ := step_cases h
  · rfl
  · exact hm.cfg_eq

end Sys2Proof.Machine
end

section
/-! Every command keeps the invariant of 10_state R18, R20, R24-R28. Each outcome is an error, or writes the canonical
Number of an integer that passed the capacity check, an `IW`-bit pattern, or a text of at most `TMAX` bytes. -/

namespace Sys2Proof.Machine

/-- The outcome is a next state that meets the invariant. -/
def NextInv (o : Host.Outcome State Fault Refusal) : Prop := ∃ t, o = .next t ∧ t.Inv

section
variable {s : State} (h : s.Inv) (hr : s.Running)
include h hr

theorem nextInv_raise (e : ErrCode) : NextInv (.next (s.raise e)) := ⟨_, rfl, h.raise hr e⟩

/-- The write of an integer behind its capacity check (R67). -/
theorem nextInv_capacity (rd : RegId) (x : Int) : NextInv
    (if x.natAbs < s.cfg.B ^ s.cfg.nmax then .next (s.setNum rd (num s.cfg.B x)).succeed
      else .next (s.raise .alloc)) := by
  split
  · exact ⟨_, rfl, (h.setNum rd ‹_›).succeed hr⟩
  · exact nextInv_raise h hr .alloc

theorem nextInv_writeResult (rd : RegId) {n : Number} {x : Int} (hn : canon n = num s.cfg.B x) :
    NextInv (runCommand s (writeResult s rd n)) := by
  rw [writeResult_num h.cfg hn, apply_ite (runCommand s)]
  exact nextInv_capacity h hr rd x

/-- Both results pass the check before either is written (R67, R121). -/
theorem nextInv_writeResults (rd rr : RegId) {n m : Number} {x y : Int} (hn : canon n = num s.cfg.B x)
    (hm : canon m = num s.cfg.B y) : NextInv (runCommand s (writeResults s rd n rr m)) := by
  unfold writeResults
  split
  case isTrue hf =>
    obtain ⟨hx, hy⟩ := Bool.and_eq_true_iff.1 hf
    rw [hn, hm]
    have h1 := h.setNum rd ((fits_iff h.cfg hn).1 hx)
    exact ⟨_, rfl, (h1.setNum rr ((fits_iff h.cfg hm).1 hy)).succeed hr⟩
  case isFalse => exact nextInv_raise h hr .alloc

theorem nextInv_unaryCommand {f : Number → Number}
    (hf : ∀ x : Number, x.Canonical s.cfg.B → ∃ z, canon (f x) = num s.cfg.B z) (rd ra : RegId) :
    NextInv (unaryCommand f rd ra s) := by
  by_cases ha : s.Valid ra
  · obtain ⟨z, hz⟩ := hf _ (h.canonical ha)
    rw [unaryCommand_num h.cfg ha hz]
    exact nextInv_capacity h hr rd z
  · rw [unaryCommand_uninit f rd ha]
    exact nextInv_raise h hr .uninit

theorem nextInv_binaryCommand {f : Number → Number → Number}
    (hf : ∀ x y : Number, x.Canonical s.cfg.B → y.Canonical s.cfg.B → ∃ z, canon (f x y) = num s.cfg.B z)
    (rd ra rb : RegId) : NextInv (binaryCommand f rd ra rb s) := by
  by_cases hv : s.Valid ra ∧ s.Valid rb
  · obtain ⟨ha, hb⟩ := hv
    obtain ⟨z, hz⟩ := hf _ _ (h.canonical ha) (h.canonical hb)
    rw [binaryCommand_num h.cfg ha hb hz]
    exact nextInv_capacity h hr rd z
  · rw [binaryCommand_uninit f rd (not_and_or.1 hv)]
    exact nextInv_raise h hr .uninit

theorem nextInv_fromint (rd : RegId) : NextInv (execFromint rd s) :=
  nextInv_writeResult h hr rd (canon_fromPattern s.cfg h.din)

/-- A text is rejected, or the Number read from it stands for the integer it denotes (R75-R77). -/
theorem nextInv_fromdec (rd : RegId) : NextInv (execFromdec rd s) := by
  by_cases hl : 1 ≤ s.tlen.toNat ∧ s.tlen.toNat ≤ s.cfg.tmax
  · rw [execFromdec_of_length hl.1 hl.2]
    by_cases hd : ∃ x, Denotes s.textOperand x
    · obtain ⟨x, hx⟩ := hd
      obtain ⟨n, hp, hn⟩ := parseText_denotes s.cfg hx
      rw [hp]
      exact nextInv_writeResult h hr rd hn
    · rw [parseText_error s.cfg (not_exists.1 hd)]
      exact nextInv_raise h hr .parse
  · rw [execFromdec_bad_length (by omega)]
    exact nextInv_raise h hr .parse

theorem nextInv_toint (ra : RegId) : NextInv (execToint ra s) := by
  by_cases ha : s.Valid ra
  · rw [execToint_of_valid ha]
    exact ⟨_, rfl, (h.setDout (toPattern_lt s.cfg (h.canonical ha))).succeed hr⟩
  · rw [execToint_uninit ha]
    exact nextInv_raise h hr .uninit

theorem nextInv_todec (ra : RegId) : NextInv (execTodec ra s) := by
  by_cases ha : s.Valid ra
  · rw [execTodec_of_valid ha]
    split
    case isTrue => exact nextInv_raise h hr .alloc
    case isFalse hl => exact ⟨_, rfl, (h.setTextResult (Nat.le_of_not_lt hl)).succeed hr⟩
  · rw [execTodec_uninit ha]
    exact nextInv_raise h hr .uninit

theorem nextInv_div (rd ra rb : RegId) : NextInv (execDiv rd ra rb s) := by
  by_cases hv : s.Valid ra ∧ s.Valid rb
  · obtain ⟨ha, hb⟩ := hv
    rw [execDiv_of_valid rd ha hb]
    by_cases h0 : s.value rb = 0
    · rw [divSigned_zero (h.canonical hb) h0]
      exact nextInv_raise h hr .divzero
    · obtain ⟨q, r, hqr, hq, -⟩ := canon_divSigned s.cfg.W_pos (h.canonical ha) (h.canonical hb) h0
      rw [hqr]
      exact nextInv_writeResult h hr rd hq
  · rw [execDiv_uninit rd (not_and_or.1 hv)]
    exact nextInv_raise h hr .uninit

theorem nextInv_divrem (rd rr ra rb : RegId) : NextInv (execDivrem rd rr ra rb s) := by
  by_cases hne : rd = rr
  · subst hne
    rw [execDivrem_illegal]
    exact nextInv_raise h hr .illegal
  by_cases hv : s.Valid ra ∧ s.Valid rb
  · obtain ⟨ha, hb⟩ := hv
    rw [execDivrem_of_valid hne ha hb]
    by_cases h0 : s.value rb = 0
    · rw [divSigned_zero (h.canonical hb) h0]
      exact nextInv_raise h hr .divzero
    · obtain ⟨q, r, hqr, hq, hm⟩ := canon_divSigned s.cfg.W_pos (h.canonical ha) (h.canonical hb) h0
      rw [hqr]
      exact nextInv_writeResults h hr rd rr hq hm
  · rw [execDivrem_uninit hne (not_and_or.1 hv)]
    exact nextInv_raise h hr .uninit

theorem nextInv_bitwise (o : BitOp) (rd ra rb : RegId) : NextInv (binaryCommand (bitwise2 s.cfg.B o) rd ra rb s) :=
  nextInv_binaryCommand h hr (fun _ _ hx hy =>
    have ⟨z, _, _, hz⟩ := canon_bitwise2 s.cfg.W_pos o hx hy
    ⟨z, hz⟩) rd ra rb

/-- Every command in a running state that meets the invariant answers a next state that meets it. -/
theorem nextInv_exec (i : Instr) : NextInv (exec i s) := by
  have hB := s.cfg.two_le_B
  cases i with
  | fromint rd => exact nextInv_fromint h hr rd
  | fromdec rd => exact nextInv_fromdec h hr rd
  | toint ra => exact nextInv_toint h hr ra
  | todec ra => exact nextInv_todec h hr ra
  | mov rd ra => exact nextInv_unaryCommand h hr (fun x hx => ⟨_, (canon_eq_self hx).trans (eq_num hB hx)⟩) rd ra
  | add rd ra rb => exact nextInv_binaryCommand h hr (fun _ _ hx hy => ⟨_, canon_addSigned hB hx hy⟩) rd ra rb
  | sub rd ra rb => exact nextInv_binaryCommand h hr (fun _ _ hx hy => ⟨_, canon_subSigned hB hx hy⟩) rd ra rb
  | mul rd ra rb => exact nextInv_binaryCommand h hr (fun _ _ hx hy => ⟨_, canon_mulSigned hB hx hy⟩) rd ra rb
  | div rd ra rb => exact nextInv_div h hr rd ra rb
  | divrem rd rr ra rb => exact nextInv_divrem h hr rd rr ra rb
  | bitNot rd ra => exact nextInv_unaryCommand h hr (fun _ hx => ⟨_, canon_bitwiseNot hB hx⟩) rd ra
  | bitOr rd ra rb => exact nextInv_bitwise h hr .or rd ra rb
  | bitXor rd ra rb => exact nextInv_bitwise h hr .xor rd ra rb
  | bitAnd rd ra rb => exact nextInv_bitwise h hr .and rd ra rb

end

theorem inv_of_exec {i : Instr} {s t : State} (h : s.Inv) (hr : s.Running) (he : exec i s = .next t) : t.Inv := by
  obtain ⟨u, hu, hInv⟩ := nextInv_exec h hr i
  rw [hu] at he
  cases he
  exact hInv

theorem not_valid_resetOf (c : Config) (r : RegId) : ¬ (State.resetOf c).Valid r := by
  rw [State.Valid, State.reg_resetOf]
  decide

/-- The invariant after reset, in every admissible build (10_state R33). -/
theorem inv_resetOf {c : Config} (hc : c.Wf) : (State.resetOf c).Inv where
  cfg := hc
  regs i hi := absurd hi (not_valid_resetOf c i)
  status := .inl rfl
  din := Nat.two_pow_pos _
  dout := Nat.two_pow_pos _
  tb := Memory.wf_resetOf c

theorem inv_afterReset {s : State} (h : s.Inv) : s.afterReset.Inv :=
  have ⟨cfg, regs, status, din, dout, tb⟩ := inv_resetOf h.cfg
  ⟨cfg, regs, status, din, dout, tb⟩

theorem inv_of_move {a : HostAction} {s t : State} (h : s.Inv) (hm : Move s a t) : t.Inv := by
  cases hm with
  | reset => exact inv_afterReset h
  | halted | writeStatus | writeDout => exact h
  | illegal _ hr => exact h.raise hr .illegal
  | command hr _ he => exact inv_of_exec h hr he
  | writeDin v => exact ⟨h.cfg, h.regs, h.status, Nat.mod_lt _ (Nat.two_pow_pos _), h.dout, h.tb⟩
  | writeTlen | read => exact ⟨h.cfg, h.regs, h.status, h.din, h.dout, h.tb⟩
  | writeTb b hk => exact h.setText hk b

theorem inv_of_step {s t : State} (h : s.Inv) (hs : step s = .next t) : t.Inv := by
  obtain ⟨-, rfl⟩ | ⟨a, rest, -, hm⟩ := step_cases hs
  · exact h
  · exact inv_of_move (h.taking rest) hm

/-- Settles O52: each host move keeps the invariant (`inv_of_move`), a command because every outcome it has does
(`nextInv_exec`); the parameters are written by no move. -/
theorem stepKeepsInvariant : Obligations.StepKeepsInvariant := by
  unfold Obligations.StepKeepsInvariant
  exact fun s t h hs => ⟨inv_of_step h hs, step_cfg hs⟩

/-- Settles O2: after reset no register is valid, and `State.reset` is the reset state of CFG32. -/
theorem resetInvariant : Obligations.ResetInvariant := by
  unfold Obligations.ResetInvariant
  exact ⟨fun c hc => inv_resetOf hc, inv_resetOf (by decide)⟩

end Sys2Proof.Machine
end

section
/-! What a command leaves unchanged (10_state R22, R24, 60_exceptions R147-R152), and that no host action but reset
clears a valid bit (10_state R19). -/

namespace Sys2Proof.Machine

/-- The fatal codes are those of DIVZERO, INVARIANT and UNINIT (R140). -/
theorem code_mem_of_fatal {e : ErrCode} (h : e.fatal = true) : e.code ∈ [8#4, 9#4, 10#4] := by
  cases e with
  | divzero | invariant | uninit => decide
  | illegal | alloc | parse => cases h

/-- A command leaves STATUS as its error or its success does (R147, R152). -/
theorem exec_status {i : Instr} {s t : State} (h : exec i s = .next t) :
    (∃ e, t.status = statusAfterError s.status e) ∨ t.status = statusAfterSuccess s.status := by
  cases effect_of_exec h with
  | error e => exact .inl ⟨e, rfl⟩
  | _ => exact .inr rfl

/-- No command writes a reserved bit of STATUS (R24). -/
theorem exec_reserved_bits {i : Instr} {s t : State} (h : exec i s = .next t) {b : Nat} (h5 : 5 ≤ b) (h32 : b < 32) :
    t.status.getLsbD b = s.status.getLsbD b := by
  obtain ⟨e, ht⟩ | ht := exec_status h
  · rw [ht, getLsbD_statusAfterError _ e h5 h32]
  · rw [ht, statusAfterSuccess, getLsbD_withErr _ _ (by omega) h32]

/-- FATAL changes by a fatal error alone, which sets it and leaves its code in `ERR` (R149). -/
theorem exec_fatal_change {i : Instr} {s t : State} (h : exec i s = .next t)
    (hf : fatalField t.status ≠ fatalField s.status) :
    fatalField t.status = true ∧ errField t.status ∈ [8#4, 9#4, 10#4] := by
  obtain ⟨e, ht⟩ | ht := exec_status h
  · rw [ht, fatalField_statusAfterError] at hf ⊢
    rw [errField_statusAfterError]
    cases he : e.fatal with
    | true => exact ⟨rfl, code_mem_of_fatal he⟩
    | false => rw [he, Bool.false_or] at hf; exact absurd rfl hf
  · rw [ht, statusAfterSuccess, fatalField_withErr] at hf
    exact absurd rfl hf

/-- A command changes no register but its destinations (R22). -/
theorem exec_reg_of_not_dest {i : Instr} {s t : State} (h : exec i s = .next t) {r : RegId} (hr : r ∉ i.dests) :
    t.reg r = s.reg r := by
  cases effect_of_exec h with
  | register d n hd =>
    rw [hd, List.mem_singleton] at hr
    rw [State.reg_succeed, State.reg_setNum_other _ _ hr]
  | registers d q n m hd =>
    rw [hd, List.mem_pair, not_or] at hr
    rw [State.reg_succeed, State.reg_setNum_other _ _ hr.2, State.reg_setNum_other _ _ hr.1]
  | error | dout | text => rfl

/-- A command with a destination register changes registers and STATUS alone (R22). -/
theorem exec_eq_of_dests {i : Instr} {s t : State} (hi : i.dests ≠ []) (h : exec i s = .next t) :
    t = { s with regs := t.regs, status := t.status } := by
  cases effect_of_exec h with
  | error | register | registers => rfl
  | dout ra p he => exact absurd (he ▸ rfl) hi
  | text ra he => exact absurd (he ▸ rfl) hi

/-- Settles O34: such a command changes registers and STATUS alone (`exec_eq_of_dests`), of the registers its
destinations alone, and STATUS as R24 and R149 say. -/
theorem frameRegisterCommands : Obligations.FrameRegisterCommands := by
  unfold Obligations.FrameRegisterCommands
  intro i s t hi h
  have ht := exec_eq_of_dests hi h
  have hcfg : t.cfg = s.cfg := exec_cfg h
  exact ⟨fun r hr => exec_reg_of_not_dest h hr, hcfg, by rw [ht], by rw [ht], by rw [ht], by rw [ht],
    by rw [ht], State.text_congr hcfg (by rw [ht]), fun b h5 h32 => exec_reserved_bits h h5 h32, exec_fatal_change h⟩

theorem State.Valid.setNum {s : State} {r : RegId} (h : s.Valid r) (d : RegId) (n : Number) :
    (s.setNum d n).Valid r := by
  rw [State.Valid, State.reg_setNum]
  split
  · rfl
  · exact h

/-- No command clears a valid bit (R19). -/
theorem valid_of_exec {i : Instr} {s t : State} {r : RegId} (he : exec i s = .next t) (h : s.Valid r) : t.Valid r := by
  cases effect_of_exec he with
  | error | dout | text => exact h
  | register d n => exact h.setNum d n
  | registers d q n m => exact (h.setNum d n).setNum q m

theorem valid_of_move {a : HostAction} {s t : State} {r : RegId} (hm : Move s a t) (ha : a ≠ .reset) (h : s.Valid r) :
    t.Valid r := by
  cases hm with
  | reset => exact absurd rfl ha
  | command _ _ he => exact valid_of_exec he h
  | _ => exact h

/-- Settles O48: of the host moves only reset and a command touch the registers, and a command sets valid bits alone. -/
theorem validIsSticky : Obligations.ValidIsSticky := by
  unfold Obligations.ValidIsSticky
  intro s t r hs h hreset
  obtain ⟨-, rfl⟩ | ⟨a, rest, hp, hm⟩ := step_cases hs
  · exact h
  · refine valid_of_move hm ?_ h
    rintro rfl
    exact hreset (by rw [hp, List.head?_cons])

end Sys2Proof.Machine
end

section
/-! A command depends on the Number registers, `DIN`, `TLEN` and `TB` alone (10_state R26, R31, R34): in two states that
agree on them, every operand read and every capacity check comes out the same. -/

namespace Sys2Proof.Machine

/-- The two states agree on the build parameters and on everything a command reads (R22, R31). -/
structure SameInputs (s s' : State) : Prop where
  cfg : s.cfg = s'.cfg
  regs : s.regs = s'.regs
  din : s.din = s'.din
  tlen : s.tlen = s'.tlen
  tb : s.tb = s'.tb

/-- The same command ended the same way in `s` and in `s'`: with one error, or with a success whose results agree,
`DOUT` written alike or not at all. -/
inductive SameOutcome (s s' : State) : Host.Outcome State Fault Refusal → Host.Outcome State Fault Refusal → Prop
  | error (e : ErrCode) : SameOutcome s s' (.next (s.raise e)) (.next (s'.raise e))
  | success {u u' : State} (hu : SameInputs u u') (hd : u.dout = u'.dout ∨ u.dout = s.dout ∧ u'.dout = s'.dout) :
      SameOutcome s s' (.next u.succeed) (.next u'.succeed)

/-- The command's first computation gives one value, or one error, in both states. -/
theorem SameOutcome.bind {s s' : State} {α : Type} (x : Except ErrCode α) {f f' : α → Except ErrCode State}
    (h : ∀ a, SameOutcome s s' (runCommand s (f a)) (runCommand s' (f' a))) :
    SameOutcome s s' (runCommand s (x >>= f)) (runCommand s' (x >>= f')) := by
  cases x with
  | error e => exact .error e
  | ok a => exact h a

namespace SameInputs

theorem setNum {s s' : State} (h : SameInputs s s') (d : RegId) (n : Number) :
    SameInputs (s.setNum d n) (s'.setNum d n) where
  cfg := h.cfg
  regs := by rw [State.setNum_regs, State.setNum_regs, h.regs]
  din := h.din
  tlen := h.tlen
  tb := h.tb

theorem setDout {s s' : State} (h : SameInputs s s') (p : Nat) : SameInputs (s.setDout p) (s'.setDout p) :=
  ⟨h.cfg, h.regs, h.din, h.tlen, h.tb⟩

theorem setTextResult {s s' : State} (h : SameInputs s s') (text : List Byte) :
    SameInputs (s.setTextResult text) (s'.setTextResult text) where
  cfg := h.cfg
  regs := h.regs
  din := h.din
  tlen := rfl
  tb := by rw [State.setTextResult_tb, State.setTextResult_tb, h.cfg, h.tb]

section
variable {s s' : State} (h : SameInputs s s')
include h

theorem readOperand_eq (i : RegId) : readOperand s i = readOperand s' i := by
  rw [readOperand, readOperand, State.reg_congr h.regs i]

theorem textOperand_eq : s.textOperand = s'.textOperand := by
  rw [State.textOperand, State.textOperand, h.tlen]
  exact State.textFrom_congr (State.text_congr h.cfg h.tb) 0 s'.tlen.toNat

theorem outcome_writeResult (d : RegId) (n : Number) :
    SameOutcome s s' (runCommand s (writeResult s d n)) (runCommand s' (writeResult s' d n)) := by
  rw [writeResult, writeResult, h.cfg]
  split
  · exact .success (h.setNum d _) (.inr ⟨rfl, rfl⟩)
  · exact .error .alloc

theorem outcome_writeResults (d e : RegId) (n m : Number) :
    SameOutcome s s' (runCommand s (writeResults s d n e m)) (runCommand s' (writeResults s' d n e m)) := by
  rw [writeResults, writeResults, h.cfg]
  split
  · exact .success ((h.setNum d _).setNum e _) (.inr ⟨rfl, rfl⟩)
  · exact .error .alloc

/-- The function computed may depend on the build parameters. -/
theorem outcome_unaryCommand (f : Config → Number → Number) (rd ra : RegId) :
    SameOutcome s s' (unaryCommand (f s.cfg) rd ra s) (unaryCommand (f s'.cfg) rd ra s') := by
  rw [unaryCommand, unaryCommand, h.readOperand_eq, h.cfg]
  exact .bind _ fun x => h.outcome_writeResult rd _

theorem outcome_binaryCommand (f : Config → Number → Number → Number) (rd ra rb : RegId) :
    SameOutcome s s' (binaryCommand (f s.cfg) rd ra rb s) (binaryCommand (f s'.cfg) rd ra rb s') := by
  rw [binaryCommand, binaryCommand, h.readOperand_eq, h.readOperand_eq, h.cfg]
  exact .bind _ fun x => .bind _ fun y => h.outcome_writeResult rd _

theorem outcome_fromint (rd : RegId) : SameOutcome s s' (execFromint rd s) (execFromint rd s') := by
  rw [execFromint, execFromint, h.cfg, h.din]
  exact h.outcome_writeResult rd _

theorem outcome_fromdec (rd : RegId) : SameOutcome s s' (execFromdec rd s) (execFromdec rd s') := by
  rw [execFromdec, execFromdec, h.textOperand_eq, h.tlen, h.cfg]
  split
  · exact .error .parse
  · exact .bind _ fun x => h.outcome_writeResult rd x

theorem outcome_toint (ra : RegId) : SameOutcome s s' (execToint ra s) (execToint ra s') := by
  rw [execToint, execToint, h.readOperand_eq, h.cfg]
  exact .bind _ fun x => .success (h.setDout _) (.inl rfl)

theorem outcome_todec (ra : RegId) : SameOutcome s s' (execTodec ra s) (execTodec ra s') := by
  rw [execTodec, execTodec, h.readOperand_eq, h.cfg]
  refine .bind _ fun x => ?_
  split
  · exact .error .alloc
  · exact .success (h.setTextResult _) (.inr ⟨rfl, rfl⟩)

theorem outcome_div (rd ra rb : RegId) : SameOutcome s s' (execDiv rd ra rb s) (execDiv rd ra rb s') := by
  rw [execDiv, execDiv, h.readOperand_eq, h.readOperand_eq, h.cfg]
  exact .bind _ fun x => .bind _ fun y => .bind _ fun qr => h.outcome_writeResult rd qr.1

theorem outcome_divrem (rd rr ra rb : RegId) :
    SameOutcome s s' (execDivrem rd rr ra rb s) (execDivrem rd rr ra rb s') := by
  rw [execDivrem, execDivrem, h.readOperand_eq, h.readOperand_eq, h.cfg]
  split
  · exact .error .illegal
  · exact .bind _ fun x => .bind _ fun y => .bind _ fun qr => h.outcome_writeResults rd rr qr.1 qr.2

theorem outcome_exec (i : Instr) : SameOutcome s s' (exec i s) (exec i s') := by
  cases i with
  | fromint rd => exact h.outcome_fromint rd
  | fromdec rd => exact h.outcome_fromdec rd
  | toint ra => exact h.outcome_toint ra
  | todec ra => exact h.outcome_todec ra
  | mov rd ra => exact h.outcome_unaryCommand (fun _ x => x) rd ra
  | add rd ra rb => exact h.outcome_binaryCommand (fun c => addSigned c.B) rd ra rb
  | sub rd ra rb => exact h.outcome_binaryCommand (fun c => subSigned c.B) rd ra rb
  | mul rd ra rb => exact h.outcome_binaryCommand (fun c => mulSigned c.B) rd ra rb
  | div rd ra rb => exact h.outcome_div rd ra rb
  | divrem rd rr ra rb => exact h.outcome_divrem rd rr ra rb
  | bitNot rd ra => exact h.outcome_unaryCommand (fun c => bitwiseNot c.B) rd ra
  | bitOr rd ra rb => exact h.outcome_binaryCommand (fun c => bitwise2 c.B .or) rd ra rb
  | bitXor rd ra rb => exact h.outcome_binaryCommand (fun c => bitwise2 c.B .xor) rd ra rb
  | bitAnd rd ra rb => exact h.outcome_binaryCommand (fun c => bitwise2 c.B .and) rd ra rb

end

end SameInputs

/-- Settles O49: two states that agree on what a command reads give it the same outcome (`SameInputs.outcome_exec`). -/
theorem noHiddenInput : Obligations.NoHiddenInput := by
  unfold Obligations.NoHiddenInput
  intro i s s' t t' hcfg hregs hdin htlen htb h h'
  have hs : SameInputs s s' := ⟨hcfg, hregs, hdin, htlen, htb⟩
  have ho := hs.outcome_exec i
  rw [h, h'] at ho
  cases ho with
  | error e =>
    refine ⟨hregs, htb, htlen, ?_, .inr ⟨rfl, rfl⟩⟩
    rw [State.raise_status, State.raise_status, errField_statusAfterError, errField_statusAfterError]
  | success hu hd =>
    refine ⟨hu.regs, hu.tb, hu.tlen, ?_, hd⟩
    rw [State.succeed_status, State.succeed_status, statusAfterSuccess, statusAfterSuccess, errField_withErr,
      errField_withErr]

end Sys2Proof.Machine
end

section
/-! The state after reset (10_state R33), how a step reaches a command (R29, 30_encoding R58), and the model's own stops
(93_implementation_defined U13). -/

namespace Sys2Proof.Machine

/-- Where no register is valid, every command with a source raises UNINIT (R69, R151). -/
theorem exec_uninit_of_none_valid {i : Instr} {s : State} (hv : ∀ r, ¬ s.Valid r) (hwf : i.wf = true)
    (hi : i.sources ≠ []) : exec i s = .next (s.raise .uninit) := by
  cases i with
  | fromint | fromdec => exact absurd rfl hi
  | toint ra => exact execToint_uninit (hv ra)
  | todec ra => exact execTodec_uninit (hv ra)
  | mov rd ra | bitNot rd ra => exact unaryCommand_uninit _ rd (hv ra)
  | div rd ra rb => exact execDiv_uninit rd (.inl (hv ra))
  | divrem rd rr ra rb => exact execDivrem_uninit (bne_iff_ne.1 hwf) (.inl (hv ra))
  | add rd ra rb | sub rd ra rb | mul rd ra rb | bitOr rd ra rb | bitXor rd ra rb | bitAnd rd ra rb =>
    exact binaryCommand_uninit _ rd (.inl (hv ra))

/-- After reset `TB` holds the bytes of the parameter (R33, U1). -/
theorem text_resetOf (c : Config) (k : Nat) : (State.resetOf c).text k = c.tbReset.getD k 0#8 := rfl

/-- Settles O1: after reset no register is valid, so every command with a source raises UNINIT; the ports are zero by
definition, and `TB` reads as the parameter says. -/
theorem resetState : Obligations.ResetState := by
  unfold Obligations.ResetState
  intro c
  have hv := not_valid_resetOf c
  refine ⟨hv, fun i hwf hi => exec_uninit_of_none_valid hv hwf hi, rfl, rfl, rfl, rfl,
    (by decide : fatalField 0#32 = false), fun bytes k hk => ?_⟩
  rw [text_resetOf, List.getD_eq_getElem _ _ hk]

theorem step_of_pending {s : State} {a : HostAction} {rest : List HostAction} (hp : s.pending = a :: rest) :
    step s = perform a (s.taking rest) := by
  rw [step, hp]

/-- A step whose host action is a command word runs the command it decodes to (R29, R58). -/
theorem step_writeCmd {s : State} {w : CommandWord} {rest : List HostAction} {i : Instr}
    (hp : s.pending = .writeCmd w :: rest) (hr : s.Running) (hd : decode w = .ok i) :
    step s = exec i (s.taking rest) := by
  rw [step_of_pending hp]
  exact issueCommand_ok (s := s.taking rest) hr hd

theorem decode_tableWord {nbits w : Nat} {i : Instr} (h : decodeTableWord nbits w = some i) :
    decode (tableWord nbits w) = .ok i := by
  rw [decodeTableWord] at h
  split at h
  · rwa [← Option.some.inj h]
  · cases h

/-- Settles O5: a word placed by `withFetchWord` is the next host action, so it is the case of `step_writeCmd`. -/
theorem stepRunsCommand : Obligations.StepRunsCommand := by
  unfold Obligations.StepRunsCommand
  refine ⟨fun s w rest i hp hr hd => step_writeCmd hp hr hd, fun s nbits w i hd hr => ?_⟩
  exact step_writeCmd (s := s.withFetchWord nbits w) (s.withCommand_pending _) hr (decode_tableWord hd)

/-- Settles O9: the two accesses fail the check of the index against `TMAX`. -/
theorem modelStops : Obligations.ModelStops := by
  unfold Obligations.ModelStops
  refine fun s => ⟨fun k b hk => ?_, fun k hk => ?_, fun hp => ?_⟩
  · exact if_neg (Nat.not_lt.2 hk)
  · exact if_neg (Nat.not_lt.2 hk)
  · rw [step, hp]

end Sys2Proof.Machine
end

section
/-! The encoding (30_encoding R50-R58): a word decodes exactly when it matches its row of the opcode map and the
row's command is well formed, `encode` and `decode` are inverse to each other, and the words that do not decode are
those of the illegal-word rule. -/

namespace Sys2Proof

theorem opcodeOf_eq_some_iff {b : BitVec 8} {o : Opcode} : opcodeOf b = some o ↔ b = o.code :=
  ⟨fun h => (code_of_opcodeOf h).symm, fun h => h ▸ opcodeOf_code o⟩

/-- What a word that decodes has passed: the three tests of R58. -/
theorem decode_eq_ok_iff {w : CommandWord} {i : Instr} :
    decode w = .ok i ↔
      ∃ o : Opcode, opField w = o.code ∧ w &&& o.format.mask = o.matchWord ∧ o.withFields w = i ∧ i.wf = true := by
  constructor
  · intro h
    rw [decode] at h
    split at h
    case h_1 => cases h
    case h_2 o ho =>
      split at h
      case isTrue => cases h
      case isFalse hm =>
        split at h
        case isTrue hwf =>
          cases h
          exact ⟨o, opcodeOf_eq_some_iff.1 ho, not_not.1 hm, rfl, hwf⟩
        case isFalse => cases h
  · rintro ⟨o, hop, hm, rfl, hwf⟩
    simp only [decode, opcodeOf_eq_some_iff.2 hop, hm, hwf, ne_eq, not_true_eq_false, if_false, if_true]

/-! `decode` after `encode`. -/

theorem opField_encode (i : Instr) : opField (encode i) = i.opcode.code := by
  cases i <;> exact opField_fieldsWord ..

/-- Every word of a command matches the command's row (R51, R54). -/
theorem encode_and_mask (i : Instr) : encode i &&& i.opcode.format.mask = i.opcode.matchWord := by
  cases i with
  | fromint rd => exact Laws.Encoding.fromint rd
  | fromdec rd => exact Laws.Encoding.fromdec rd
  | toint ra => exact Laws.Encoding.toint ra
  | todec ra => exact Laws.Encoding.todec ra
  | mov rd ra => exact Laws.Encoding.mov rd ra
  | add rd ra rb => exact Laws.Encoding.add rd ra rb
  | sub rd ra rb => exact Laws.Encoding.sub rd ra rb
  | mul rd ra rb => exact Laws.Encoding.mul rd ra rb
  | div rd ra rb => exact Laws.Encoding.div rd ra rb
  | divrem rd rr ra rb => exact Laws.Encoding.divrem rd rr ra rb
  | bitNot rd ra => exact Laws.Encoding.bitNot rd ra
  | bitOr rd ra rb => exact Laws.Encoding.bitOr rd ra rb
  | bitXor rd ra rb => exact Laws.Encoding.bitXor rd ra rb
  | bitAnd rd ra rb => exact Laws.Encoding.bitAnd rd ra rb

/-- The fields of a command's word are its registers (R50). -/
theorem withFields_encode (i : Instr) : i.opcode.withFields (encode i) = i := by
  cases i <;> simp only [encode, Instr.opcode, Opcode.withFields, rdField_fieldsWord, raField_fieldsWord,
    rbField_fieldsWord, rrField_fieldsWord]

/-- Settles O50: the word of a command passes the three tests of the decoder and its fields are the command's. -/
theorem decodeEncode : Obligations.DecodeEncode := by
  unfold Obligations.DecodeEncode
  exact fun i hwf => decode_eq_ok_iff.2 ⟨i.opcode, opField_encode i, encode_and_mask i, withFields_encode i, hwf⟩

/-! `encode` after `decode`. -/

/-- The word with the opcode `op`, the fields of `w` that the format uses, and zero elsewhere (R51, R52). -/
def Format.wordOf (f : Format) (op : BitVec 8) (w : CommandWord) : CommandWord :=
  match f with
  | .d => fieldsWord op (rdField w) 0 0 0
  | .a => fieldsWord op 0 (raField w) 0 0
  | .da => fieldsWord op (rdField w) (raField w) 0 0
  | .dab => fieldsWord op (rdField w) (raField w) (rbField w) 0
  | .drab => fieldsWord op (rdField w) (raField w) (rbField w) (rrField w)

theorem encode_withFields (o : Opcode) (w : CommandWord) : encode (o.withFields w) = o.format.wordOf o.code w := by
  cases o <;> rfl

/-- A word that matches its row is its opcode and the fields its format uses: the mask fixes all other bits (R51). -/
theorem wordOf_eq_of_match {f : Format} {o : Opcode} {w : CommandWord} (h : w &&& f.mask = o.matchWord) :
    f.wordOf o.code w = w := by
  rw [word_eq_fields w, and_mask, matchWord_eq] at h
  conv_rhs => rw [word_eq_fields w]
  cases f <;> obtain ⟨hop, hrd, hra, hrb, hrr, hz⟩ := fields_inj h <;>
    simp only [Format.wordOf, fieldsWord, regBits_zero, hop, hrd, hra, hrb, hrr, hz]

/-- Settles O51: a word that decodes matches its row, so it is the word `encode` builds from its fields. -/
theorem encodeDecode : Obligations.EncodeDecode := by
  unfold Obligations.EncodeDecode
  intro w i h
  obtain ⟨o, -, hm, rfl, hwf⟩ := decode_eq_ok_iff.1 h
  exact ⟨hwf, (encode_withFields o w).trans (wordOf_eq_of_match hm)⟩

/-! The illegal words. -/

/-- The bits a format leaves unused, with `cmd[7:0]`: its mask without the opcode byte (R51). -/
def Format.mustBeZero : Format → CommandWord
  | .d => 0x000FFFFF#32
  | .a => 0x00F0FFFF#32
  | .da => 0x0000FFFF#32
  | .dab => 0x00000FFF#32
  | .drab => 0x000000FF#32

theorem Format.and_mustBeZero_iff (f : Format) {o : Opcode} {w : CommandWord} (h : opField w = o.code) :
    w &&& f.mustBeZero = 0#32 ↔ w &&& f.mask = o.matchWord := by
  cases f with
  | d => exact Machine.mustBeZero_iff .d o (m4 := 0#4) (m3 := 15#4) (m2 := 15#4) (m1 := 15#4) rfl rfl h
  | a => exact Machine.mustBeZero_iff .a o (m4 := 15#4) (m3 := 0#4) (m2 := 15#4) (m1 := 15#4) rfl rfl h
  | da => exact Machine.mustBeZero_iff .da o (m4 := 0#4) (m3 := 0#4) (m2 := 15#4) (m1 := 15#4) rfl rfl h
  | dab => exact Machine.mustBeZero_iff .dab o (m4 := 0#4) (m3 := 0#4) (m2 := 0#4) (m1 := 15#4) rfl rfl h
  | drab => exact Machine.mustBeZero_iff .drab o (m4 := 0#4) (m3 := 0#4) (m2 := 0#4) (m1 := 0#4) rfl rfl h

/-- The word is in the row of `o`, with the bits that must be zero zero and its destinations apart (R55). -/
def Opcode.Accepts (o : Opcode) (w : CommandWord) : Prop :=
  opField w = o.code ∧ w &&& o.format.mustBeZero = 0#32 ∧ (o.withFields w).wf = true

theorem decode_ok_iff_accepts {w : CommandWord} : (∃ i, decode w = .ok i) ↔ ∃ o : Opcode, o.Accepts w := by
  constructor
  · rintro ⟨i, h⟩
    obtain ⟨o, hop, hm, rfl, hwf⟩ := decode_eq_ok_iff.1 h
    exact ⟨o, hop, (o.format.and_mustBeZero_iff hop).2 hm, hwf⟩
  · rintro ⟨o, hop, hz, hwf⟩
    exact ⟨_, decode_eq_ok_iff.2 ⟨o, hop, (o.format.and_mustBeZero_iff hop).1 hz, rfl, hwf⟩⟩

/-- DIVREM's destinations are apart exactly when their fields are (R55 (c), R56). -/
theorem wf_withFields_divrem (w : CommandWord) :
    (Opcode.divrem.withFields w).wf = true ↔ w.extractLsb' 20 4 ≠ w.extractLsb' 8 4 := by
  rw [Opcode.withFields, Instr.wf, bne_iff_ne, rdField, rrField, ne_eq, BitVec.toFin_inj]

/-- The five lines of `IllegalWord` are the rows of the opcode map, sorted by their format (R51, R54). -/
theorem illegalWord_iff {w : CommandWord} : IllegalWord w ↔ ¬ ∃ o : Opcode, o.Accepts w := by
  refine not_congr ?_
  simp only [List.mem_cons, List.not_mem_nil, or_false]
  constructor
  · rintro (⟨h | h, hz⟩ | ⟨h | h, hz⟩ | ⟨h | h, hz⟩ | ⟨h | h | h | h | h | h | h, hz⟩ | ⟨h, hz, hd⟩)
    · exact ⟨.fromint, h, hz, rfl⟩
    · exact ⟨.fromdec, h, hz, rfl⟩
    · exact ⟨.toint, h, hz, rfl⟩
    · exact ⟨.todec, h, hz, rfl⟩
    · exact ⟨.mov, h, hz, rfl⟩
    · exact ⟨.bitNot, h, hz, rfl⟩
    · exact ⟨.add, h, hz, rfl⟩
    · exact ⟨.sub, h, hz, rfl⟩
    · exact ⟨.mul, h, hz, rfl⟩
    · exact ⟨.div, h, hz, rfl⟩
    · exact ⟨.bitOr, h, hz, rfl⟩
    · exact ⟨.bitXor, h, hz, rfl⟩
    · exact ⟨.bitAnd, h, hz, rfl⟩
    · exact ⟨.divrem, h, hz, (wf_withFields_divrem w).2 hd⟩
  · rintro ⟨o, h, hz, hwf⟩
    rw [opField] at h
    cases o with
    | fromint | fromdec => exact .inl ⟨by simp [h, Opcode.code], hz⟩
    | toint | todec => exact .inr (.inl ⟨by simp [h, Opcode.code], hz⟩)
    | mov | bitNot => exact .inr (.inr (.inl ⟨by simp [h, Opcode.code], hz⟩))
    | add | sub | mul | div | bitOr | bitXor | bitAnd =>
      exact .inr (.inr (.inr (.inl ⟨by simp [h, Opcode.code], hz⟩)))
    | divrem => exact .inr (.inr (.inr (.inr ⟨h, hz, (wf_withFields_divrem w).1 hwf⟩)))

/-- The decoder refuses exactly the words of the illegal-word rule (R55, R57). -/
theorem decode_error_iff_illegalWord {w : CommandWord} : (∃ c, decode w = .error c) ↔ IllegalWord w := by
  rw [illegalWord_iff, ← decode_ok_iff_accepts]
  cases decode w with
  | error c => simp
  | ok i => simp

/-- Settles O4: the words are those of `decode_error_iff_illegalWord`, and ILLEGAL is a recoverable error. -/
theorem illegalWords : Obligations.IllegalWords := by
  unfold Obligations.IllegalWords
  refine fun w => ⟨decode_error_iff_illegalWord, fun s hr hw => ?_⟩
  obtain ⟨c, hd⟩ := decode_error_iff_illegalWord.2 hw
  exact ⟨Machine.issueCommand_error hr hd, (s.halted_raise .illegal).trans hr, rfl⟩

/-- Settles O3: the decoder runs on the seven words of R60, R54 and R55. -/
theorem decodeWords : Obligations.DecodeWords := by
  unfold Obligations.DecodeWords
  decide

end Sys2Proof
end

section
/-! The canonical Number of an integer (40_digit_store_normalizer R66): its sign tag, and its digit count `ndig`. -/

namespace Sys2Proof.Machine

/-- Without a complement tag only the tag Negative has its negative bit set (R17). -/
theorem SignTag.eq_negative_iff {t : SignTag} (h : t.cpl = false) : t = .negative ↔ t.neg = true := by
  cases t with
  | positive | negative => decide
  | positiveComplement | negativeComplement => cases h

theorem num_sign_eq_negative_iff {B : Nat} (hB : 2 ≤ B) (x : Int) : (num B x).sign = .negative ↔ x < 0 := by
  have hB0 : 0 < B := by omega
  obtain ⟨-, -, -, -, hcpl⟩ := num_canonical hB0 x
  rw [SignTag.eq_negative_iff hcpl, canonical_neg_iff hB0 (num_canonical hB0 x), num_value hB]

/-- Both `ndig` and the logarithm are fixed by the powers of `B` that exceed `|x|`. -/
theorem num_size_of_ne_zero {B : Nat} (hB : 2 ≤ B) {x : Int} (hx : x ≠ 0) :
    (num B x).size = Nat.log B x.natAbs + 1 := by
  have size_le_iff_log_lt {k : Nat} (hk : 1 ≤ k) : (num B x).size ≤ k ↔ Nat.log B x.natAbs < k :=
    (num_size_le_iff hB x hk).trans (Nat.log_lt_iff_lt_pow hB (Int.natAbs_ne_zero.2 hx)).symm
  have size_pos : 1 ≤ (num B x).size := (num_canonical (by omega) x).1
  exact le_antisymm ((size_le_iff_log_lt (by omega)).2 (Nat.lt_succ_self _))
    ((size_le_iff_log_lt size_pos).1 le_rfl)

theorem num_size {B : Nat} (hB : 2 ≤ B) (x : Int) :
    (num B x).size = if x = 0 then 1 else Nat.log B x.natAbs + 1 := by
  by_cases hx : x = 0
  · rw [if_pos hx, hx, num_zero hB]; rfl
  · rw [if_neg hx, num_size_of_ne_zero hB hx]

/-- Settles O19: `eq_num` is the uniqueness and `canon_eq_num` what `canon` yields, at the base of every build. -/
theorem canonicalNumber : Obligations.CanonicalNumber := by
  unfold Obligations.CanonicalNumber
  intro c x
  have hB := c.two_le_B
  refine ⟨num_canonical (by omega) x, num_value hB x, ?unique, ?canon, num_sign_eq_negative_iff hB x, num_size hB x⟩
  case unique =>
    rintro n hn rfl
    exact eq_num hB hn
  case canon =>
    rintro n hd hcpl rfl
    exact canon_eq_num hB hd hcpl

end Sys2Proof.Machine
end

section
/-! The words of one opcode (30_encoding R51, R52, R54-R56): a word of the row of `o` is `o` with the word's fields, or
ILLEGAL. -/

namespace Sys2Proof.Machine

/-- The only ill-formed command is a DIVREM with `rd = rr`, and `exec` raises ILLEGAL for it too (R56, log entry 18). -/
theorem exec_of_not_wf {i : Instr} (h : i.wf = false) (s : State) : exec i s = .next (s.raise .illegal) := by
  cases i with
  | divrem rd rr ra rb =>
    obtain rfl : rd = rr := bne_eq_false_iff_eq.1 h
    exact execDivrem_illegal rd ra rb s
  | _ => cases h

/-- Every row of the opcode map issues its command (R52, R54, R58). -/
theorem issuesAs_withFields (o : Opcode) : IssuesAs o.code o.format.mustBeZero o.withFields :=
  issuesAs_intro o (opcodeOf_code o) (fun _ hop => o.format.and_mustBeZero_iff hop) (fun _ => rfl)
    (fun _ s hwf => exec_of_not_wf hwf s)

end Sys2Proof.Machine
end

section
/-! MOV (40_digit_store_normalizer R70). -/

namespace Sys2Proof.Machine

/-- MOV of a valid register writes the same Number: it is canonical, so `canon` keeps it, and it passed the capacity
check when it was written (R18, R65, R67). -/
theorem execMov_of_valid {s : State} (h : s.Inv) (rd : RegId) {ra : RegId} (ha : s.Valid ra) :
    execMov rd ra s = .next (s.setNum rd (s.reg ra).num).succeed := by
  have hnum : (s.reg ra).num = num s.cfg.B (s.value ra) := h.eq_num ha
  have hcanon : canon (s.reg ra).num = num s.cfg.B (s.value ra) := (canon_eq_self (h.canonical ha)).trans hnum
  rw [execMov, unaryCommand_num h.cfg ha hcanon, if_pos (h.natAbs_lt ha), hnum]

/-- Settles O24: the words of MOV's row (`issuesAs_withFields`), the copy (`execMov_of_valid`), and UNINIT. -/
theorem movCommand : Obligations.MovCommand := by
  unfold Obligations.MovCommand
  exact ⟨issuesAs_withFields .mov, fun rd ra s h _ =>
    ⟨fun ha => execMov_of_valid h rd ha, fun ha => unaryCommand_uninit _ rd ha⟩⟩

end Sys2Proof.Machine
end

section
/-! Machine integers: FROMINT and TOINT (41_construction_conversion R71-R73, 20_memory R40). -/

namespace Sys2Proof.Machine

/-- The signed value by the sign bit, over the integers (R40). -/
theorem signedPattern_eq_ite (n p : Nat) :
    signedPattern n p = if (2 : Int) ^ (n - 1) ≤ p then (p : Int) - 2 ^ n else p := by
  rw [signedPattern]
  norm_cast

/-- A pattern is the residue of its signed value (R40). -/
theorem signedPattern_emod {n p : Nat} (hp : p < 2 ^ n) : signedPattern n p % 2 ^ n = p := by
  have hmod : (p : Int) % 2 ^ n = p := Int.emod_eq_of_lt (by omega) (by exact_mod_cast hp)
  unfold signedPattern
  split
  · rw [Int.sub_emod_right, hmod]
  · exact hmod

theorem signedPattern_range {n p : Nat} (hn : 1 ≤ n) (hp : p < 2 ^ n) :
    -(2 ^ (n - 1)) ≤ signedPattern n p ∧ signedPattern n p < 2 ^ (n - 1) := by
  have hp' : (p : Int) < 2 ^ n := by exact_mod_cast hp
  rw [signedPattern_eq_ite]
  rw [← mul_pow_sub_one (Nat.one_le_iff_ne_zero.1 hn)] at hp' ⊢
  split <;> omega

/-- The low `n` bits of `x`, read as two's complement, are `x` exactly for the `x` that `n` bits can hold (R40, R73). -/
theorem signedPattern_emod_eq_iff {n : Nat} (hn : 1 ≤ n) (x : Int) :
    signedPattern n (x % 2 ^ n).toNat = x ↔ -(2 ^ (n - 1)) ≤ x ∧ x < 2 ^ (n - 1) := by
  have hpos : (0 : Int) < 2 ^ n := by positivity
  have hcast : ((x % 2 ^ n).toNat : Int) = x % 2 ^ n := Int.toNat_of_nonneg (Int.emod_nonneg x hpos.ne')
  have hlt : (x % 2 ^ n).toNat < 2 ^ n := by
    have := Int.emod_lt_of_pos x hpos
    rw [← hcast] at this
    exact_mod_cast this
  constructor
  · intro h
    rw [← h]
    exact signedPattern_range hn hlt
  · rintro ⟨hlo, hhi⟩
    have htwo : (2 : Int) * 2 ^ (n - 1) = 2 ^ n := mul_pow_sub_one (Nat.one_le_iff_ne_zero.1 hn) 2
    rw [signedPattern_eq_ite, hcast]
    rcases le_or_gt 0 x with h0 | h0
    · rw [Int.emod_eq_of_lt h0 (by omega), if_neg (by omega)]
    · rw [← Int.add_emod_right, Int.emod_eq_of_lt (by omega) (by omega), if_pos (by omega), add_sub_cancel_right]

/-- A machine integer has at most `ND` digits, and `NMAX` is at least `ND` (R7, R8). -/
theorem fits_signedPattern {s : State} (h : s.Inv) : s.Fits (signedPattern s.cfg.IW s.din) := by
  have hsize : (num s.cfg.B (signedPattern s.cfg.IW s.din)).size ≤ s.cfg.nmax := by
    rw [← canon_fromPattern s.cfg h.din]
    exact (size_canon_fromPattern s.cfg s.din).trans (s.cfg.ND_le_two.trans h.cfg.1)
  exact (num_size_le_iff s.cfg.two_le_B _ (le_trans (by omega) h.cfg.1)).1 hsize

/-- FROMINT raises nothing (R71). -/
theorem execFromint_of_inv {s : State} (h : s.Inv) (rd : RegId) :
    execFromint rd s = .next (s.setNum rd (num s.cfg.B (signedPattern s.cfg.IW s.din))).succeed := by
  rw [execFromint, writeResult_num h.cfg (canon_fromPattern s.cfg h.din), if_pos (fits_signedPattern h), runCommand_ok]

/-- TOINT writes the residue of the register's integer (R73). -/
theorem execToint_of_inv {s : State} (h : s.Inv) {ra : RegId} (ha : s.Valid ra) :
    execToint ra s = .next (s.setDout (s.value ra % 2 ^ s.cfg.IW).toNat).succeed := by
  rw [execToint_of_valid ha, State.value, ← toPattern_eq s.cfg (h.canonical ha), Int.toNat_natCast]

/-- Settles O20: the words of FROMINT's row, and the canonical Number of the pattern, which always fits. -/
theorem fromintCommand : Obligations.FromintCommand := by
  unfold Obligations.FromintCommand
  exact ⟨issuesAs_withFields .fromint, fun rd s h _ => execFromint_of_inv h rd⟩

/-- Settles O21: the words of TOINT's row, the residue written, when it can be read back, and UNINIT. -/
theorem tointCommand : Obligations.TointCommand := by
  unfold Obligations.TointCommand
  exact ⟨issuesAs_withFields .toint, fun ra s h _ =>
    ⟨fun ha => ⟨execToint_of_inv h ha, signedPattern_emod_eq_iff s.cfg.IW_pos (s.value ra)⟩, execToint_uninit⟩⟩

end Sys2Proof.Machine
end

section
/-! The state after a command that raises nothing (60_exceptions R152), and what the next command finds in it. -/

namespace Sys2Proof.Machine

theorem State.Inv.status_succeed {s : State} (h : s.Inv) (hr : s.Running) : s.succeed.status = 0#32 :=
  statusAfterSuccess_eq_zero s.status h.status hr

theorem State.running_succeed {s : State} (hr : s.Running) : s.succeed.Running := s.halted_succeed.trans hr

theorem State.valid_setNum_succeed (s : State) (d : RegId) (n : Number) : (s.setNum d n).succeed.Valid d := by
  rw [State.Valid, State.reg_succeed, State.reg_setNum_same]

/-- A register reads as the integer whose canonical Number was written to it (R66). -/
theorem State.value_setNum_succeed (s : State) (d : RegId) (x : Int) :
    (s.setNum d (num s.cfg.B x)).succeed.value d = x := by
  rw [State.value, State.reg_succeed, State.reg_setNum_same, State.succeed_cfg, State.setNum_cfg,
    num_value s.cfg.two_le_B]

/-- Settles O46: TOINT writes the residue of the integer FROMINT left in the register, which is the pattern of `DIN`. -/
theorem integerRoundTrip : Obligations.IntegerRoundTrip := by
  unfold Obligations.IntegerRoundTrip
  intro d s h hr
  have ht := (h.setNum d (fits_signedPattern h)).succeed hr
  refine ⟨_, _, execFromint_of_inv h d, execToint_of_inv ht (s.valid_setNum_succeed d _),
    ht.status_succeed (State.running_succeed hr), ?_⟩
  rw [State.succeed_dout, State.setDout_dout, State.value_setNum_succeed, State.succeed_cfg, State.setNum_cfg,
    signedPattern_emod h.din, Int.toNat_natCast]

end Sys2Proof.Machine
end

section
/-! Decimal text: FROMDEC and TODEC (41_construction_conversion R75-R84). -/

namespace Sys2Proof.Machine

theorem Denotes.length_pos {text : List Byte} {x : Int} (h : Denotes text x) : 1 ≤ text.length := by
  obtain ⟨cs, hne, -, ⟨rfl, -⟩ | ⟨rfl, -⟩ | ⟨rfl, -⟩⟩ := h
  · exact List.length_pos_of_ne_nil hne
  · exact Nat.le_add_left 1 cs.length
  · exact Nat.le_add_left 1 cs.length

/-- FROMDEC of an accepted text: the integer it denotes, behind the capacity check (R67, R75-R77). -/
theorem execFromdec_of_denotes {s : State} (h : s.Inv) {text : List Byte} {x : Int} (ht : s.HoldsText text)
    (hl : text.length ≤ s.cfg.tmax) (hx : Denotes text x) (rd : RegId) :
    execFromdec rd s = if s.Fits x then .next (s.setNum rd (num s.cfg.B x)).succeed else .next (s.raise .alloc) := by
  have hlen : s.tlen.toNat = text.length := ht.1
  have htext : text = s.textOperand := (s.holdsText_iff text).1 ht
  obtain ⟨n, hparse, hn⟩ := parseText_denotes s.cfg hx
  have hpos := hx.length_pos
  rw [execFromdec_of_length (by omega) (by omega), ← htext, hparse]
  change runCommand s (writeResult s rd n) = _
  rw [writeResult_num h.cfg hn, apply_ite (runCommand s), runCommand_ok, runCommand_error]

/-- FROMDEC of anything else (R76, R143). -/
theorem execFromdec_of_not_denotes {s : State}
    (hx : ∀ (text : List Byte) (x : Int), s.HoldsText text → text.length ≤ s.cfg.tmax → ¬ Denotes text x)
    (rd : RegId) : execFromdec rd s = .next (s.raise .parse) := by
  have htext : s.HoldsText s.textOperand := (s.holdsText_iff _).2 rfl
  by_cases hl : 1 ≤ s.tlen.toNat ∧ s.tlen.toNat ≤ s.cfg.tmax
  · have hlen : s.textOperand.length ≤ s.cfg.tmax := htext.1 ▸ hl.2
    rw [execFromdec_of_length hl.1 hl.2, parseText_error s.cfg fun x => hx _ x htext hlen]
    rfl
  · exact execFromdec_bad_length (by omega)

/-- Settles O22: the words of FROMDEC's row, an accepted text that fits or does not, and every other text. -/
theorem fromdecCommand : Obligations.FromdecCommand := by
  unfold Obligations.FromdecCommand
  refine ⟨issuesAs_withFields .fromdec, fun rd s h _ =>
    ⟨fun text x ht hl hx => ⟨fun hf => ?_, fun hf => ?_⟩, fun hx => execFromdec_of_not_denotes hx rd⟩⟩
  · exact (execFromdec_of_denotes h ht hl hx rd).trans (if_pos hf)
  · exact (execFromdec_of_denotes h ht hl hx rd).trans (if_neg hf)

/-- The converter's text of a register is the one canonical text of its integer (R81). -/
theorem decimalText_eq {s : State} (h : s.Inv) {ra : RegId} (ha : s.Valid ra) {text : List Byte}
    (hc : CanonicalText text (s.value ra)) : decimalText s.cfg (s.reg ra).num = text :=
  (decimalText_canonical s.cfg (h.canonical ha)).unique hc

/-- TODEC of a valid register: its canonical text, or ALLOC for one longer than `TMAX` (R80, R81). -/
theorem execTodec_of_canonicalText {s : State} (h : s.Inv) {ra : RegId} (ha : s.Valid ra) {text : List Byte}
    (hc : CanonicalText text (s.value ra)) : execTodec ra s =
      if s.cfg.tmax < text.length then .next (s.raise .alloc) else .next (s.setTextResult text).succeed := by
  rw [execTodec_of_valid ha, decimalText_eq h ha hc]

/-- A text TODEC writes stands in `TB[0 .. TLEN-1]` (R38, R80). -/
theorem holdsText_setTextResult {s : State} (h : s.Inv) {text : List Byte} (hl : text.length ≤ s.cfg.tmax) :
    (s.setTextResult text).succeed.HoldsText text := by
  rw [State.holdsText_iff, State.textOperand_succeed, State.textOperand_setTextResult h.tb hl h.cfg.2.2]

/-- Settles O23: the words of TODEC's row, the canonical text written with its frame, ALLOC, and UNINIT. -/
theorem todecCommand : Obligations.TodecCommand := by
  unfold Obligations.TodecCommand
  refine ⟨issuesAs_withFields .todec, fun ra s h hr =>
    ⟨fun ha text hc => ⟨fun hl => ?fits, fun hl => ?tooLong⟩, execTodec_uninit⟩⟩
  case fits =>
    exact ⟨_, (execTodec_of_canonicalText h ha hc).trans (if_neg hl.not_gt), holdsText_setTextResult h hl,
      h.status_succeed hr, rfl, fun k hk => s.text_setTextResult_other hk⟩
  case tooLong => exact (execTodec_of_canonicalText h ha hc).trans (if_pos hl)

/-- FROMDEC then TODEC (R84): the text written is that of the integer read. -/
theorem todec_after_fromdec {d : RegId} {s : State} {text canonical : List Byte} {x : Int} (h : s.Inv)
    (hr : s.Running) (ht : s.HoldsText text) (hl : text.length ≤ s.cfg.tmax) (hx : Denotes text x) (hf : s.Fits x)
    (hc : CanonicalText canonical x) (hcl : canonical.length ≤ s.cfg.tmax) :
    ∃ t u : State, execFromdec d s = .next t ∧ execTodec d t = .next u ∧ u.status = 0#32 ∧ u.HoldsText canonical := by
  have hInv := (h.setNum d hf).succeed hr
  have hc' : CanonicalText canonical ((s.setNum d (num s.cfg.B x)).succeed.value d) := by
    rwa [State.value_setNum_succeed]
  exact ⟨_, _, (execFromdec_of_denotes h ht hl hx d).trans (if_pos hf),
    (execTodec_of_canonicalText hInv (s.valid_setNum_succeed d _) hc').trans (if_neg hcl.not_gt),
    hInv.status_succeed (State.running_succeed hr), holdsText_setTextResult hInv hcl⟩

/-- TODEC then FROMDEC (R84): the Number read is the canonical one of the integer written, which the source held. -/
theorem fromdec_after_todec {a d : RegId} {s : State} {canonical : List Byte} (h : s.Inv) (hr : s.Running)
    (ha : s.Valid a) (hc : CanonicalText canonical (s.value a)) (hcl : canonical.length ≤ s.cfg.tmax) :
    ∃ t u : State, execTodec a s = .next t ∧ execFromdec d t = .next u ∧ u.status = 0#32 ∧ u.reg d = s.reg a := by
  have hInv := (h.setTextResult hcl).succeed hr
  have hvalid : (s.reg a).valid = true := ha
  have hreg : s.reg a = { valid := true, num := num s.cfg.B (s.value a) } := by rw [← h.eq_num ha, ← hvalid]
  refine ⟨_, _, (execTodec_of_canonicalText h ha hc).trans (if_neg hcl.not_gt),
    (execFromdec_of_denotes hInv (holdsText_setTextResult h hcl) hcl hc.denotes d).trans (if_pos (h.natAbs_lt ha)),
    hInv.status_succeed (State.running_succeed hr), ?_⟩
  rw [State.reg_succeed, State.reg_setNum_same, State.succeed_cfg, State.setTextResult_cfg, hreg]

/-- Settles O45: `todec_after_fromdec` and `fromdec_after_todec`. -/
theorem textRoundTrip : Obligations.TextRoundTrip := by
  unfold Obligations.TextRoundTrip
  exact ⟨fun _ _ _ _ _ h hr ht hl hx hf hc hcl => todec_after_fromdec h hr ht hl hx hf hc hcl,
    fun _ _ _ _ h hr ha hc hcl => fromdec_after_todec h hr ha hc hcl⟩

/-! The canonical text of an integer (R81). -/

/-- The converter writes one, whatever the build. -/
theorem canonicalText_exists (x : Int) : ∃ text, CanonicalText text x := by
  have hB := Config.cfg16.two_le_B
  have h := decimalText_canonical Config.cfg16 (num_canonical (B := Config.cfg16.B) (by omega) x)
  rw [num_value hB] at h
  exact ⟨_, h⟩

theorem canonicalText_zero : CanonicalText [0x30#8] 0 :=
  ⟨[charOfDigit 0], List.cons_ne_nil _ _, by decide, fun _ => rfl, by decide, rfl⟩

/-- The length of R81 of the text of an integer that is not zero. -/
theorem CanonicalText.length_of_ne_zero {text : List Byte} {x : Int} (h : CanonicalText text x) (hx : x ≠ 0) :
    text.length = (if x < 0 then 1 else 0) + (Nat.log 10 x.natAbs + 1) := by
  obtain ⟨cs, hne, hdigit, hlead, hmag, rfl⟩ := h
  have hcs := (length_of_no_leading_zero hne hdigit hlead).2 (hmag ▸ Int.natAbs_ne_zero.2 hx)
  rw [List.length_append, hcs, hmag, apply_ite List.length]
  rfl

/-- Settles O47: the converter's text exists, `CanonicalText.unique` is the uniqueness, and the length counts digits. -/
theorem canonicalTextOfInteger : Obligations.CanonicalTextOfInteger := by
  unfold Obligations.CanonicalTextOfInteger
  intro x
  obtain ⟨text, h⟩ := canonicalText_exists x
  refine ⟨text, h, fun text' h' => h'.unique h, ?_, h.length_of_ne_zero⟩
  rintro rfl
  exact h.unique canonicalText_zero

end Sys2Proof.Machine
end

section
/-! What TOINT and TODEC leave unchanged (41_construction_conversion R73, R80, 10_state R22, R26, R28). -/

namespace Sys2Proof.Machine

/-- Everything TOINT can do (R73). -/
theorem execToint_cases {ra : RegId} {s t : State} (h : execToint ra s = .next t) :
    t = s.raise .uninit ∨ ∃ p, t = (s.setDout p).succeed := by
  by_cases ha : s.Valid ra
  · rw [execToint_of_valid ha] at h
    cases h
    exact .inr ⟨_, rfl⟩
  · rw [execToint_uninit ha] at h
    cases h
    exact .inl rfl

/-- Everything TODEC can do (R80). -/
theorem execTodec_cases {ra : RegId} {s t : State} (h : execTodec ra s = .next t) :
    t = s.raise .uninit ∨ t = s.raise .alloc ∨ t = (s.setTextResult (decimalText s.cfg (s.reg ra).num)).succeed := by
  by_cases ha : s.Valid ra
  · rw [execTodec_of_valid ha] at h
    split at h <;> cases h
    · exact .inr (.inl rfl)
    · exact .inr (.inr rfl)
  · rw [execTodec_uninit ha] at h
    cases h
    exact .inl rfl

/-- UNINIT sets FATAL together with its own code (R140, R149). -/
theorem uninit_sets_fatal (w : BitVec 32) :
    fatalField (statusAfterError w .uninit) = true ∧ errField (statusAfterError w .uninit) = 10#4 :=
  ⟨fatalField_statusAfterError w .uninit, errField_statusAfterError w .uninit⟩

/-- Settles O35: the two outcomes of TOINT write STATUS and `DOUT` alone, and only UNINIT touches FATAL. -/
theorem frameToint : Obligations.FrameToint := by
  unfold Obligations.FrameToint
  intro ra s t h
  have hres : ∀ b, 5 ≤ b → b < 32 → t.status.getLsbD b = s.status.getLsbD b := fun _ => exec_reserved_bits h
  obtain rfl | ⟨p, rfl⟩ := execToint_cases h
  · exact ⟨fun _ => rfl, rfl, rfl, rfl, rfl, rfl, fun _ => rfl, hres, fun _ => uninit_sets_fatal s.status⟩
  · exact ⟨fun _ => rfl, rfl, rfl, rfl, rfl, rfl, fun _ => rfl, hres,
      fun hf => absurd (fatalField_withErr s.status 0#4) hf⟩

/-- Settles O36: the three outcomes of TODEC write STATUS, `TLEN` and the bytes of the text alone, and only UNINIT
touches FATAL. -/
theorem frameTodec : Obligations.FrameTodec := by
  unfold Obligations.FrameTodec
  intro ra s t h
  have hres : ∀ b, 5 ≤ b → b < 32 → t.status.getLsbD b = s.status.getLsbD b := fun _ => exec_reserved_bits h
  obtain rfl | rfl | rfl := execTodec_cases h
  · exact ⟨fun _ _ => rfl, fun _ => rfl, rfl, rfl, rfl, rfl, rfl, hres, fun _ => uninit_sets_fatal s.status⟩
  · exact ⟨fun _ _ => rfl, fun _ => rfl, rfl, rfl, rfl, rfl, rfl, hres,
      fun hf => absurd (fatalField_statusAfterError s.status .alloc) hf⟩
  · exact ⟨fun _ hk => s.text_setTextResult_other hk, fun _ => rfl, rfl, rfl, rfl, rfl, rfl, hres,
      fun hf => absurd (fatalField_withErr s.status 0#4) hf⟩

end Sys2Proof.Machine
end

section
/-! ADD and SUB (42_add_sub R91-R94): the sum or the difference behind the capacity check. -/

namespace Sys2Proof.Machine

theorem execAdd_of_valid {s : State} (h : s.Inv) (rd : RegId) {ra rb : RegId} (ha : s.Valid ra) (hb : s.Valid rb) :
    execAdd rd ra rb s = if s.Fits (s.value ra + s.value rb)
      then .next (s.setNum rd (num s.cfg.B (s.value ra + s.value rb))).succeed else .next (s.raise .alloc) :=
  binaryCommand_num h.cfg ha hb (canon_addSigned s.cfg.two_le_B (h.canonical ha) (h.canonical hb)) rd

theorem execSub_of_valid {s : State} (h : s.Inv) (rd : RegId) {ra rb : RegId} (ha : s.Valid ra) (hb : s.Valid rb) :
    execSub rd ra rb s = if s.Fits (s.value ra - s.value rb)
      then .next (s.setNum rd (num s.cfg.B (s.value ra - s.value rb))).succeed else .next (s.raise .alloc) :=
  binaryCommand_num h.cfg ha hb (canon_subSigned s.cfg.two_le_B (h.canonical ha) (h.canonical hb)) rd

/-- Settles O25: the words of ADD's row, the sum behind its capacity check (`execAdd_of_valid`), and UNINIT. -/
theorem addCommand : Obligations.AddCommand := by
  unfold Obligations.AddCommand
  exact ⟨issuesAs_withFields .add, fun rd ra rb s h _ =>
    ⟨fun ha hb hf => (execAdd_of_valid h rd ha hb).trans (if_pos hf),
      fun ha hb hf => (execAdd_of_valid h rd ha hb).trans (if_neg hf), binaryCommand_uninit _ rd⟩⟩

/-- Settles O26: the words of SUB's row, the difference behind its capacity check (`execSub_of_valid`), and UNINIT. -/
theorem subCommand : Obligations.SubCommand := by
  unfold Obligations.SubCommand
  exact ⟨issuesAs_withFields .sub, fun rd ra rb s h _ =>
    ⟨fun ha hb hf => (execSub_of_valid h rd ha hb).trans (if_pos hf),
      fun ha hb hf => (execSub_of_valid h rd ha hb).trans (if_neg hf), binaryCommand_uninit _ rd⟩⟩

end Sys2Proof.Machine
end

section
/-! What a command that raises nothing leaves in its destinations (10_state R18, R19, 60_exceptions R152). -/

namespace Sys2Proof.Machine

theorem ErrCode.code_ne_zero (e : ErrCode) : e.code ≠ 0#4 := by
  cases e <;> decide

/-- STATUS is nonzero after an error (R148, R149). -/
theorem statusAfterError_ne_zero (w : BitVec 32) (e : ErrCode) : statusAfterError w e ≠ 0#32 := by
  intro h
  have hcode : errField 0#32 = e.code := h ▸ errField_statusAfterError w e
  exact e.code_ne_zero hcode.symm

/-- The error code tells a success from an error (R147, R152). -/
theorem State.succeed_ne_raise (s t : State) (e : ErrCode) : s.succeed ≠ t.raise e := by
  intro h
  have herr : errField (statusAfterSuccess s.status) = errField (statusAfterError t.status e) :=
    congrArg (fun u : State => errField u.status) h
  rw [statusAfterSuccess, errField_withErr, errField_statusAfterError] at herr
  exact e.code_ne_zero herr.symm

theorem valid_dest_of_exec {i : Instr} {s t : State} {d : RegId} (he : exec i s = .next t) (h0 : t.status = 0#32)
    (hd : d ∈ i.dests) : t.Valid d := by
  cases effect_of_exec he with
  | error e => exact absurd h0 (statusAfterError_ne_zero s.status e)
  | register r n hr =>
    obtain rfl : d = r := by rwa [hr, List.mem_singleton] at hd
    exact s.valid_setNum_succeed d n
  | registers q r n m hqr =>
    rw [hqr, List.mem_pair] at hd
    obtain rfl | rfl := hd
    · exact (s.valid_setNum_succeed d n).setNum r m
    · exact (s.setNum q n).valid_setNum_succeed d m
  | dout ra p hi => subst hi; cases hd
  | text ra hi => subst hi; cases hd

/-- A result written is canonical (R18, R95 (iv)). -/
theorem canonical_dest_of_exec {i : Instr} {s t : State} {d : RegId} (h : s.Inv) (hr : s.Running)
    (he : exec i s = .next t) (h0 : t.status = 0#32) (hd : d ∈ i.dests) :
    t.Valid d ∧ (t.reg d).num.Canonical s.cfg.B := by
  have hv : t.Valid d := valid_dest_of_exec he h0 hd
  exact ⟨hv, exec_cfg he ▸ (inv_of_exec h hr he).canonical hv⟩

end Sys2Proof.Machine
end

section
/-! The laws of addition (42_add_sub R95). -/

namespace Sys2Proof.Machine

/-- Additive identity (R95 (i)): the sum is the first operand's integer, whose canonical Number the register holds. -/
theorem execAdd_zero {s : State} (h : s.Inv) (rd : RegId) {ra rb : RegId} (ha : s.Valid ra) (hb : s.Valid rb)
    (h0 : s.value rb = 0) : execAdd rd ra rb s = .next (s.setNum rd (s.reg ra).num).succeed := by
  rw [execAdd_of_valid h rd ha hb, h0, add_zero, if_pos (h.natAbs_lt ha), ← h.eq_num ha]

/-- Additive inverse (R95 (ii)). -/
theorem execSub_self {s : State} (h : s.Inv) (rd : RegId) {ra : RegId} (ha : s.Valid ra) :
    execSub rd ra ra s = .next (s.setNum rd { sign := .positive, digits := [0] }).succeed := by
  have hfits : s.Fits 0 := (Nat.zero_le _).trans_lt (h.natAbs_lt ha)
  rw [execSub_of_valid h rd ha ha, sub_self, if_pos hfits, num_zero s.cfg.two_le_B]

/-- Commutativity (R95 (iii)), errors included. -/
theorem execAdd_comm {s : State} (h : s.Inv) (rd ra rb : RegId) : execAdd rd ra rb s = execAdd rd rb ra s := by
  by_cases hv : s.Valid ra ∧ s.Valid rb
  · obtain ⟨ha, hb⟩ := hv
    rw [execAdd_of_valid h rd ha hb, execAdd_of_valid h rd hb ha, add_comm]
  · have hu : ¬ s.Valid ra ∨ ¬ s.Valid rb := not_and_or.1 hv
    exact (binaryCommand_uninit _ rd hu).trans (binaryCommand_uninit _ rd hu.symm).symm

/-- Settles O37: identity, inverse, commutativity, and canonical results (`canonical_dest_of_exec`). -/
theorem addLaws : Obligations.AddLaws := by
  unfold Obligations.AddLaws
  intro rd ra rb s h hr
  refine ⟨execAdd_zero h rd, execSub_self h rd, execAdd_comm h rd ra rb, ?canonical⟩
  rintro t (he | he) h0
  · exact canonical_dest_of_exec h hr he h0 (List.mem_singleton_self rd)
  · exact canonical_dest_of_exec h hr he h0 (List.mem_singleton_self rd)

end Sys2Proof.Machine
end

section
/-! How many digits a sum or a difference has (42_add_sub R96), by the digit counts of its operands. -/

namespace Sys2Proof.Machine

section
variable {B : Nat} (hB : 2 ≤ B) {x y z : Int}
include hB

theorem num_size_pos (x : Int) : 1 ≤ (num B x).size := (num_canonical (by omega) x).1

theorem natAbs_lt_pow_num_size (x : Int) : x.natAbs < B ^ (num B x).size :=
  (num_size_le_iff hB x (num_size_pos hB x)).1 le_rfl

theorem num_size_mono (h : x.natAbs ≤ z.natAbs) : (num B x).size ≤ (num B z).size :=
  (num_size_le_iff hB x (num_size_pos hB z)).2 (h.trans_lt (natAbs_lt_pow_num_size hB z))

/-- A magnitude that exceeds neither operand's needs no further digit. -/
theorem num_size_le_max (h : z.natAbs ≤ max x.natAbs y.natAbs) :
    (num B z).size ≤ max (num B x).size (num B y).size :=
  le_max_iff.2 ((le_max_iff.1 h).imp (num_size_mono hB) (num_size_mono hB))

/-- Two magnitudes below `B^m` sum to less than `2 * B^m`, which is at most `B^(m+1)`. -/
theorem num_size_le_max_succ (h : z.natAbs ≤ x.natAbs + y.natAbs) :
    (num B z).size ≤ max (num B x).size (num B y).size + 1 := by
  have below {v : Int} (hv : (num B v).size ≤ max (num B x).size (num B y).size) :
      v.natAbs < B ^ max (num B x).size (num B y).size :=
    (num_size_le_iff hB v ((num_size_pos hB v).trans hv)).1 hv
  have hx := below (le_max_left _ _)
  have hy := below (le_max_right _ _)
  refine (num_size_le_iff hB z (by omega)).2 ?_
  calc z.natAbs < 2 * B ^ max (num B x).size (num B y).size := by omega
    _ ≤ B ^ (max (num B x).size (num B y).size + 1) := by rw [pow_succ']; exact Nat.mul_le_mul_right _ hB

/-- Where the magnitudes add, the result has the larger operand's digits or one more. -/
theorem num_size_of_natAbs_add (h : z.natAbs = x.natAbs + y.natAbs) :
    (num B z).size = max (num B x).size (num B y).size ∨ (num B z).size = max (num B x).size (num B y).size + 1 := by
  have hx : (num B x).size ≤ (num B z).size := num_size_mono hB (by omega)
  have hy : (num B y).size ≤ (num B z).size := num_size_mono hB (by omega)
  have hz := num_size_le_max_succ hB h.le
  omega

end

/-- A write behind the capacity check raises ALLOC exactly for an integer that does not fit (R67). -/
theorem capacity_eq_alloc_iff (s : State) (rd : RegId) (x : Int) :
    (if s.Fits x then Host.Outcome.next (s.setNum rd (num s.cfg.B x)).succeed else .next (s.raise .alloc) :
      Host.Outcome State Fault Refusal) = .next (s.raise .alloc) ↔ ¬ s.Fits x := by
  split
  case isTrue hf => exact iff_of_false (fun e => State.succeed_ne_raise _ _ _ (Host.Outcome.next.inj e)) (not_not.2 hf)
  case isFalse hf => exact iff_of_true rfl hf

theorem execAdd_eq_alloc_iff {s : State} (h : s.Inv) (rd : RegId) {ra rb : RegId} (ha : s.Valid ra)
    (hb : s.Valid rb) : execAdd rd ra rb s = .next (s.raise .alloc) ↔ ¬ s.Fits (s.value ra + s.value rb) := by
  rw [execAdd_of_valid h rd ha hb, capacity_eq_alloc_iff]

theorem execSub_eq_alloc_iff {s : State} (h : s.Inv) (rd : RegId) {ra rb : RegId} (ha : s.Valid ra)
    (hb : s.Valid rb) : execSub rd ra rb s = .next (s.raise .alloc) ↔ ¬ s.Fits (s.value ra - s.value rb) := by
  rw [execSub_of_valid h rd ha hb, capacity_eq_alloc_iff]

section
variable {s : State} (h : s.Inv)
include h

theorem State.Inv.reg_size {i : RegId} (hi : s.Valid i) : (s.reg i).num.size = (num s.cfg.B (s.value i)).size :=
  congrArg Number.size (h.eq_num hi)

theorem State.Inv.fits_iff_size_le (x : Int) : s.Fits x ↔ (num s.cfg.B x).size ≤ s.cfg.nmax :=
  (num_size_le_iff s.cfg.two_le_B x (le_trans (by omega) h.cfg.1)).symm

variable {ra rb : RegId} (ha : s.Valid ra) (hb : s.Valid rb)
include ha hb

theorem State.Inv.max_size_le :
    max (num s.cfg.B (s.value ra)).size (num s.cfg.B (s.value rb)).size ≤ s.cfg.nmax :=
  max_le ((h.fits_iff_size_le _).1 (h.natAbs_lt ha)) ((h.fits_iff_size_le _).1 (h.natAbs_lt hb))

variable {x : Int} (hx : x.natAbs ≤ (s.value ra).natAbs + (s.value rb).natAbs)
include hx

/-- A sum or difference of two registers misses the capacity by one digit at most (R96). -/
theorem State.Inv.not_fits_iff_size_eq : ¬ s.Fits x ↔ (num s.cfg.B x).size = s.cfg.nmax + 1 := by
  have hmax := h.max_size_le ha hb
  have hsize := num_size_le_max_succ s.cfg.two_le_B hx
  rw [h.fits_iff_size_le]
  omega

/-- It does so only when one operand is full and there is a carry out of digit `NMAX - 1` (R96). -/
theorem State.Inv.carry_of_size_eq (hn : (num s.cfg.B x).size = s.cfg.nmax + 1) :
    max (num s.cfg.B (s.value ra)).size (num s.cfg.B (s.value rb)).size = s.cfg.nmax ∧
      s.cfg.B ^ s.cfg.nmax ≤ (s.value ra).natAbs + (s.value rb).natAbs := by
  have hmax := h.max_size_le ha hb
  have hsize := num_size_le_max_succ s.cfg.two_le_B hx
  have hfits := (h.not_fits_iff_size_eq ha hb hx).2 hn
  exact ⟨by omega, (Nat.le_of_not_lt hfits).trans hx⟩

end

/-- Settles O38: for like signs the magnitudes of the sum add and the difference is within the larger operand, for
unlike signs the other way round; a sum or difference fits unless it has `NMAX + 1` digits. -/
theorem addSubCapacity : Obligations.AddSubCapacity := by
  unfold Obligations.AddSubCapacity
  intro rd ra rb s h hr ha hb
  dsimp only
  have hB := s.cfg.two_le_B
  have hsum : (s.value ra + s.value rb).natAbs ≤ (s.value ra).natAbs + (s.value rb).natAbs := Int.natAbs_add_le _ _
  have hdiff : (s.value ra - s.value rb).natAbs ≤ (s.value ra).natAbs + (s.value rb).natAbs := Int.natAbs_sub_le _ _
  have hadd := (execAdd_eq_alloc_iff h rd ha hb).trans (h.not_fits_iff_size_eq ha hb hsum)
  have hsub := (execSub_eq_alloc_iff h rd ha hb).trans (h.not_fits_iff_size_eq ha hb hdiff)
  have hmax := h.max_size_le ha hb
  have hsign : (s.reg ra).num.sign = (s.reg rb).num.sign ↔ (s.value ra < 0 ↔ s.value rb < 0) :=
    canonical_sign_eq_iff (by omega) (h.canonical ha) (h.canonical hb)
  rw [h.reg_size ha, h.reg_size hb]
  refine ⟨fun hlike => ?like, fun hunlike => ?unlike, hadd, hsub, ?carry⟩
  case like =>
    have hvalues := hsign.1 hlike
    have hsize := num_size_le_max hB (x := s.value ra) (y := s.value rb) (z := s.value ra - s.value rb) (by omega)
    exact ⟨num_size_of_natAbs_add hB (by omega), hsize, fun e => by have := hsub.1 e; omega⟩
  case unlike =>
    have hvalues := mt hsign.2 hunlike
    have hsize := num_size_le_max hB (x := s.value ra) (y := s.value rb) (z := s.value ra + s.value rb) (by omega)
    exact ⟨num_size_of_natAbs_add hB (by omega), hsize, fun e => by have := hadd.1 e; omega⟩
  case carry =>
    rintro (hn | hn)
    · exact h.carry_of_size_eq ha hb hsum hn
    · exact h.carry_of_size_eq ha hb hdiff hn

end Sys2Proof.Machine
end

section
/-! How many digits a product has (43_multiply R98 (iii)), and the top digit of its product array. -/

namespace Sys2Proof.Machine

section
variable {B : Nat} (hB : 2 ≤ B) {x y : Int}
include hB

theorem num_size_mul_le (x y : Int) : (num B (x * y)).size ≤ (num B x).size + (num B y).size := by
  refine (num_size_le_iff hB _ ((num_size_pos hB x).trans (Nat.le_add_right _ _))).2 ?_
  rw [Int.natAbs_mul, pow_add]
  exact Nat.mul_lt_mul'' (natAbs_lt_pow_num_size hB x) (natAbs_lt_pow_num_size hB y)

theorem pow_num_size_sub_one_le (hx : x ≠ 0) : B ^ ((num B x).size - 1) ≤ x.natAbs := by
  rw [num_size_of_ne_zero hB hx]
  exact Nat.pow_log_le_self B (Int.natAbs_ne_zero.2 hx)

/-- `B^(la-1) * B^(lb-1) <= |x * y| < B^(la+lb)` (R98 (iii)). -/
theorem num_size_mul_of_ne_zero (hx : x ≠ 0) (hy : y ≠ 0) :
    (num B (x * y)).size = (num B x).size + (num B y).size - 1 ∨
      (num B (x * y)).size = (num B x).size + (num B y).size := by
  have hlow : B ^ ((num B x).size - 1 + ((num B y).size - 1)) ≤ (x * y).natAbs := by
    rw [Int.natAbs_mul, pow_add]
    exact Nat.mul_le_mul (pow_num_size_sub_one_le hB hx) (pow_num_size_sub_one_le hB hy)
  have hexp := (Nat.pow_lt_pow_iff_right hB).1 (hlow.trans_lt (natAbs_lt_pow_num_size hB (x * y)))
  have hupp := num_size_mul_le hB x y
  omega

end

/-- The digits below the top one are worth less than `B^n`. -/
theorem getD_top_ne_zero_iff {B : Nat} {p : Digits} (hp : ∀ d ∈ p, d < B) {n : Nat} (hl : p.length = n + 1) :
    p.getD n 0 ≠ 0 ↔ B ^ n ≤ val B p := by
  have hlow : val B (p.take n) < B ^ n := by simpa [hl] using val_lt (take_lt hp n)
  have hval : val B p = val B (p.take n) + B ^ n * p.getD n 0 := by
    rw [val_split B (by omega : n ≤ p.length), val_drop B (by omega : n < p.length), ← hl, List.drop_length]
    simp
  rw [hval]
  constructor
  · intro hd
    exact (Nat.le_mul_of_pos_right _ (Nat.pos_of_ne_zero hd)).trans (Nat.le_add_left _ _)
  · intro hle h0
    rw [h0] at hle
    omega

end Sys2Proof.Machine
end

section
/-! A command of format DAB with its sources exchanged (40_digit_store_normalizer R67-R69). -/

namespace Sys2Proof.Machine

/-- A DAB command gives one outcome for both orders of its operands, UNINIT and ALLOC included, when its function gives
one integer. -/
theorem binaryCommand_comm {s : State} (hc : s.cfg.Wf) {f : Number → Number → Number} (rd : RegId) {ra rb : RegId}
    (hf : s.Valid ra → s.Valid rb → ∃ z, canon (f (s.reg ra).num (s.reg rb).num) = num s.cfg.B z ∧
      canon (f (s.reg rb).num (s.reg ra).num) = num s.cfg.B z) :
    binaryCommand f rd ra rb s = binaryCommand f rd rb ra s := by
  by_cases hv : s.Valid ra ∧ s.Valid rb
  · obtain ⟨ha, hb⟩ := hv
    obtain ⟨z, hab, hba⟩ := hf ha hb
    rw [binaryCommand_num hc ha hb hab, binaryCommand_num hc hb ha hba]
  · have hu : ¬ s.Valid ra ∨ ¬ s.Valid rb := not_and_or.1 hv
    rw [binaryCommand_uninit f rd hu, binaryCommand_uninit f rd hu.symm]

end Sys2Proof.Machine
end

section
/-! MUL (43_multiply R100-R102): the product behind the capacity check. -/

namespace Sys2Proof.Machine

theorem execMul_of_valid {s : State} (h : s.Inv) (rd : RegId) {ra rb : RegId} (ha : s.Valid ra) (hb : s.Valid rb) :
    execMul rd ra rb s = if s.Fits (s.value ra * s.value rb)
      then .next (s.setNum rd (num s.cfg.B (s.value ra * s.value rb))).succeed else .next (s.raise .alloc) :=
  binaryCommand_num h.cfg ha hb (canon_mulSigned s.cfg.two_le_B (h.canonical ha) (h.canonical hb)) rd

theorem execMul_eq_alloc_iff {s : State} (h : s.Inv) (rd : RegId) {ra rb : RegId} (ha : s.Valid ra)
    (hb : s.Valid rb) :
    execMul rd ra rb s = .next (s.raise .alloc) ↔ s.cfg.nmax < (num s.cfg.B (s.value ra * s.value rb)).size := by
  rw [execMul_of_valid h rd ha hb, capacity_eq_alloc_iff, h.fits_iff_size_le, not_le]

/-- Settles O27: the words of MUL's row, the product behind its capacity check (`execMul_of_valid`), and UNINIT. -/
theorem mulCommand : Obligations.MulCommand := by
  unfold Obligations.MulCommand
  exact ⟨issuesAs_withFields .mul, fun rd ra rb s h _ =>
    ⟨fun ha hb hf => (execMul_of_valid h rd ha hb).trans (if_pos hf),
      fun ha hb hf => (execMul_of_valid h rd ha hb).trans (if_neg hf), binaryCommand_uninit _ rd⟩⟩

theorem execMul_comm {s : State} (h : s.Inv) (rd ra rb : RegId) : execMul rd ra rb s = execMul rd rb ra s :=
  binaryCommand_comm h.cfg rd fun ha hb =>
    ⟨s.value ra * s.value rb, canon_mulSigned s.cfg.two_le_B (h.canonical ha) (h.canonical hb),
      mul_comm (s.value ra) (s.value rb) ▸ canon_mulSigned s.cfg.two_le_B (h.canonical hb) (h.canonical ha)⟩

/-- Settles O39: the integer product commutes, so both orders write the same Number or raise the same error
(`execMul_comm`). -/
theorem mulCommutes : Obligations.MulCommutes := by
  unfold Obligations.MulCommutes
  exact fun rd ra rb s h _ => execMul_comm h rd ra rb

/-- The top digit of the product array tells whether the product needs every one of its `n + 1` digits (R97, R102). -/
theorem mulMagnitude_top_ne_zero_iff {B : Nat} (hB : 2 ≤ B) {x y : Number} (hx : x.Canonical B)
    (hy : y.Canonical B) {n : Nat} (hn : 1 ≤ n) (hl : x.size + y.size = n + 1) :
    (mulMagnitude B x.digits y.digits).getD n 0 ≠ 0 ↔ n < (num B (x.value B * y.value B)).size := by
  obtain ⟨hval, hlen, hlt⟩ := mulMagnitude_spec (canonical_digits_lt hx) (canonical_digits_lt hy) (by omega)
  rw [getD_top_ne_zero_iff hlt (hlen.trans hl), hval, ← natAbs_value B x, ← natAbs_value B y, ← Int.natAbs_mul,
    ← not_lt, ← num_size_le_iff hB _ hn, not_le]

/-- Settles O40: MUL raises ALLOC exactly for a product of more than `NMAX` digits (`execMul_eq_alloc_iff`), and the
digits of a product are counted by `num_size_mul_of_ne_zero` and the top digit of the product array. -/
theorem mulCapacity : Obligations.MulCapacity := by
  unfold Obligations.MulCapacity
  intro rd ra rb s h _ ha hb
  dsimp only
  have hB := s.cfg.two_le_B
  have halloc := execMul_eq_alloc_iff h rd ha hb
  have hcomm := execMul_comm h rd ra rb
  have hle := num_size_mul_le hB (s.value ra) (s.value rb)
  have hnmax : 1 ≤ s.cfg.nmax := le_trans (by omega) h.cfg.1
  have htop := mulMagnitude_top_ne_zero_iff hB (h.canonical ha) (h.canonical hb) hnmax
  rw [h.reg_size ha, h.reg_size hb] at htop ⊢
  refine ⟨halloc, Eq.congr_left hcomm, fun hfits e => ?small, fun hx hy => ?nonzero, fun h0 => ?zero⟩
  case small =>
    have := halloc.1 e
    omega
  case nonzero =>
    have hcount := num_size_mul_of_ne_zero hB hx hy
    refine ⟨hcount, fun hlarge => halloc.2 (by omega), fun hfull => ?full⟩
    rw [hfull, Nat.add_sub_cancel]
    exact halloc.trans (htop hfull).symm
  case zero =>
    have hone : (num s.cfg.B (s.value ra * s.value rb)).size = 1 := by
      rw [mul_eq_zero.2 h0, num_zero hB]; rfl
    exact ⟨hone, fun e => by have := halloc.1 e; omega⟩

end Sys2Proof.Machine
end

section
/-! The quotient and the remainder of integers (44_divide R117, R122): neither exceeds the dividend in magnitude. -/

namespace Sys2Proof.Machine

theorem natAbs_tmod_le (x y : Int) : (Int.tmod x y).natAbs ≤ x.natAbs := by
  rw [Int.natAbs_tmod]
  exact Nat.mod_le _ _

/-- Truncation is toward zero, so the quotient times the divisor does not exceed the dividend (R117). -/
theorem natAbs_tdiv_mul_le (x y : Int) : (Int.tdiv x y * y).natAbs ≤ x.natAbs := by
  rw [Int.natAbs_mul, Int.natAbs_tdiv]
  exact Nat.div_mul_le_self _ _

theorem natAbs_tmod_lt (x : Int) {y : Int} (hy : y ≠ 0) : (Int.tmod x y).natAbs < y.natAbs := by
  rw [Int.natAbs_tmod]
  exact Nat.mod_lt _ (Int.natAbs_pos.2 hy)

/-- The remainder is zero or has the sign of the dividend (R117, R122). -/
theorem tmod_eq_zero_or_neg_iff (x y : Int) : Int.tmod x y = 0 ∨ (Int.tmod x y < 0 ↔ x < 0) := by
  rcases le_or_gt 0 x with hx | hx
  · have hnonneg : 0 ≤ Int.tmod x y := Int.tmod_nonneg y hx
    omega
  · have hnonneg : 0 ≤ Int.tmod (-x) y := Int.tmod_nonneg y (by omega)
    rw [Int.neg_tmod] at hnonneg
    omega

section
variable {s : State} (h : s.Inv) {i : RegId} (hi : s.Valid i)
include h hi

/-- What does not exceed a valid register in magnitude fits a register (R18, R67). -/
theorem State.Inv.fits_of_natAbs_le {x : Int} (hx : x.natAbs ≤ (s.value i).natAbs) : s.Fits x :=
  hx.trans_lt (h.natAbs_lt hi)

theorem State.Inv.fits_tdiv (y : Int) : s.Fits (Int.tdiv (s.value i) y) :=
  h.fits_of_natAbs_le hi (Int.natAbs_tdiv_le_natAbs _ y)

theorem State.Inv.fits_tmod (y : Int) : s.Fits (Int.tmod (s.value i) y) :=
  h.fits_of_natAbs_le hi (natAbs_tmod_le _ y)

end

end Sys2Proof.Machine
end

section
/-! DIV and DIVREM (44_divide R119-R121): the results always fit, so that a nonzero divisor raises nothing. -/

namespace Sys2Proof.Machine

/-- Two results that pass the capacity check are both written (R67, R121). -/
theorem writeResults_num {s : State} (hc : s.cfg.Wf) {n m : Number} {x y : Int} (hn : canon n = num s.cfg.B x)
    (hm : canon m = num s.cfg.B y) (hx : s.Fits x) (hy : s.Fits y) (d r : RegId) :
    writeResults s d n r m = .ok ((s.setNum d (num s.cfg.B x)).setNum r (num s.cfg.B y)) := by
  rw [writeResults, hn, hm, if_pos (Bool.and_eq_true_iff.2 ⟨(fits_iff hc hn).2 hx, (fits_iff hc hm).2 hy⟩)]

section
variable {s : State} (h : s.Inv) {ra rb : RegId} (ha : s.Valid ra) (hb : s.Valid rb)
include h ha hb

/-- The divider on two valid registers, in terms of their integers (R117-R119). -/
theorem divSigned_of_ne_zero (h0 : s.value rb ≠ 0) :
    ∃ q r, divSigned s.cfg.W (s.reg ra).num (s.reg rb).num = .ok (q, r) ∧
      canon q = num s.cfg.B (Int.tdiv (s.value ra) (s.value rb)) ∧
      canon r = num s.cfg.B (Int.tmod (s.value ra) (s.value rb)) :=
  canon_divSigned s.cfg.W_pos (h.canonical ha) (h.canonical hb) h0

theorem execDiv_of_ne_zero (rd : RegId) (h0 : s.value rb ≠ 0) : execDiv rd ra rb s =
    .next (s.setNum rd (num s.cfg.B (Int.tdiv (s.value ra) (s.value rb)))).succeed := by
  obtain ⟨q, r, hqr, hq, -⟩ := divSigned_of_ne_zero h ha hb h0
  rw [execDiv_of_valid rd ha hb, hqr]
  change runCommand s (writeResult s rd q) = _
  rw [writeResult_num h.cfg hq, if_pos (h.fits_tdiv ha _), runCommand_ok]

theorem execDiv_of_eq_zero (rd : RegId) (h0 : s.value rb = 0) : execDiv rd ra rb s = .next (s.raise .divzero) := by
  rw [execDiv_of_valid rd ha hb, divSigned_zero (h.canonical hb) h0]
  rfl

variable {rd rr : RegId} (hne : rd ≠ rr)
include hne

theorem execDivrem_of_ne_zero (h0 : s.value rb ≠ 0) : execDivrem rd rr ra rb s =
    .next ((s.setNum rd (num s.cfg.B (Int.tdiv (s.value ra) (s.value rb)))).setNum rr
      (num s.cfg.B (Int.tmod (s.value ra) (s.value rb)))).succeed := by
  obtain ⟨q, r, hqr, hq, hm⟩ := divSigned_of_ne_zero h ha hb h0
  rw [execDivrem_of_valid hne ha hb, hqr]
  change runCommand s (writeResults s rd q rr r) = _
  rw [writeResults_num h.cfg hq hm (h.fits_tdiv ha _) (h.fits_tmod ha _), runCommand_ok]

theorem execDivrem_of_eq_zero (h0 : s.value rb = 0) :
    execDivrem rd rr ra rb s = .next (s.raise .divzero) := by
  rw [execDivrem_of_valid hne ha hb, divSigned_zero (h.canonical hb) h0]
  rfl

end

/-- Settles O28: the words of DIV's row, the quotient, which always fits (`execDiv_of_ne_zero`), DIVZERO and UNINIT. -/
theorem divCommand : Obligations.DivCommand := by
  unfold Obligations.DivCommand
  exact ⟨issuesAs_withFields .div, fun rd ra rb s h _ =>
    ⟨fun ha hb => execDiv_of_ne_zero h ha hb rd, fun ha hb => execDiv_of_eq_zero h ha hb rd, execDiv_uninit rd⟩⟩

/-- Settles O29: the words of DIVREM's row, the two results, which always fit (`execDivrem_of_ne_zero`), DIVZERO,
UNINIT, and ILLEGAL for one register named twice (log entry 18). -/
theorem divremCommand : Obligations.DivremCommand := by
  unfold Obligations.DivremCommand
  refine ⟨issuesAs_withFields .divrem, fun rd rr ra rb s h _ =>
    ⟨fun hne ha hb => execDivrem_of_ne_zero h ha hb hne, fun hne ha hb => execDivrem_of_eq_zero h ha hb hne,
      execDivrem_uninit, ?same⟩⟩
  case same =>
    rintro rfl
    exact execDivrem_illegal rd ra rb s

end Sys2Proof.Machine
end

section
/-! A register that holds the canonical Number of a known integer (40_digit_store_normalizer R66), followed through the
writes of commands run one after the other. -/

namespace Sys2Proof.Machine

/-- The register is valid and holds `num(x)` (R19, R66). -/
def State.Holds (s : State) (i : RegId) (x : Int) : Prop := s.reg i = { valid := true, num := num s.cfg.B x }

theorem State.Inv.holds {s : State} (h : s.Inv) {i : RegId} (hi : s.Valid i) : s.Holds i (s.value i) := by
  rw [State.Holds, ← h.eq_num hi, ← show (s.reg i).valid = true from hi]

theorem State.holds_setNum (s : State) (d : RegId) (x : Int) : (s.setNum d (num s.cfg.B x)).Holds d x :=
  s.reg_setNum_same d _

namespace State.Holds
variable {s : State} {i : RegId} {x : Int} (h : s.Holds i x)
include h

theorem valid : s.Valid i := congrArg NumReg.valid h

theorem num_eq : (s.reg i).num = num s.cfg.B x := congrArg NumReg.num h

theorem value_eq : s.value i = x := by
  rw [State.value, h.num_eq, num_value s.cfg.two_le_B]

theorem canonical : (s.reg i).num.Canonical s.cfg.B :=
  h.num_eq ▸ num_canonical (zero_lt_two.trans_le s.cfg.two_le_B) x

theorem setNum {d : RegId} (hne : i ≠ d) (n : Number) : (s.setNum d n).Holds i x :=
  (s.reg_setNum_other n hne).trans h

theorem succeed : s.succeed.Holds i x := h

end State.Holds

section
variable {s : State} (h : s.Inv) {ra rb : RegId} {x y : Int} (ha : s.Holds ra x) (hb : s.Holds rb y)
include h ha hb

theorem execMul_of_holds (rd : RegId) (hf : s.Fits (x * y)) :
    execMul rd ra rb s = .next (s.setNum rd (num s.cfg.B (x * y))).succeed := by
  rw [execMul_of_valid h rd ha.valid hb.valid, ha.value_eq, hb.value_eq, if_pos hf]

theorem execAdd_of_holds (rd : RegId) (hf : s.Fits (x + y)) :
    execAdd rd ra rb s = .next (s.setNum rd (num s.cfg.B (x + y))).succeed := by
  rw [execAdd_of_valid h rd ha.valid hb.valid, ha.value_eq, hb.value_eq, if_pos hf]

end

end Sys2Proof.Machine
end

section
/-! The division contract (44_divide R122). -/

namespace Sys2Proof.Machine

/-- MUL to `x`, then ADD to `x`: the register keeps `u * v + w` when the product and the sum fit. The addend alone must
not be overwritten by the product. -/
theorem execMul_execAdd {s : State} (h : s.Inv) (hr : s.Running) {q b r x : RegId} {u v w : Int} (hq : s.Holds q u)
    (hb : s.Holds b v) (hw : s.Holds r w) (hxr : x ≠ r) (hmul : s.Fits (u * v)) (hadd : s.Fits (u * v + w)) :
    ∃ s₂ s₃, exec (.mul x q b) s = .next s₂ ∧ exec (.add x x r) s₂ = .next s₃ ∧ s₃.status = 0#32 ∧
      s₃.reg x = { valid := true, num := num s.cfg.B (u * v + w) } := by
  have h₂ := (h.setNum x hmul).succeed hr
  have hr₂ : (s.setNum x (num s.cfg.B (u * v))).succeed.Running := State.running_succeed hr
  exact ⟨_, _, execMul_of_holds h hq hb x hmul,
    execAdd_of_holds h₂ (s.holds_setNum x (u * v)).succeed (hw.setNum hxr.symm _).succeed x hadd,
    (h₂.setNum x hadd).status_succeed hr₂, (State.holds_setNum _ x (u * v + w)).succeed⟩

/-- DIVREM leaves the quotient, the remainder and, where it is no destination, the divisor in their registers. -/
theorem execDivrem_holds {s : State} (h : s.Inv) (hr : s.Running) {q r a b : RegId} (ha : s.Valid a) (hb : s.Valid b)
    (h0 : s.value b ≠ 0) (hqr : q ≠ r) (hbq : b ≠ q) (hbr : b ≠ r) :
    ∃ s₁, exec (.divrem q r a b) s = .next s₁ ∧ s₁.cfg = s.cfg ∧ s₁.Inv ∧ s₁.Running ∧
      s₁.Holds q (Int.tdiv (s.value a) (s.value b)) ∧ s₁.Holds r (Int.tmod (s.value a) (s.value b)) ∧
      s₁.Holds b (s.value b) := by
  have hexec := execDivrem_of_ne_zero h ha hb hqr h0
  exact ⟨_, hexec, rfl, inv_of_exec (i := .divrem q r a b) h hr hexec, State.running_succeed hr,
    ((s.holds_setNum q _).setNum hqr _).succeed, (State.holds_setNum _ r _).succeed,
    (((h.holds hb).setNum hbq _).setNum hbr _).succeed⟩

/-- Settles O41: DIVREM leaves the quotient, the remainder and the divisor in their registers (`execDivrem_holds`), so
MUL and ADD leave `tdiv(a, b) * b + tmod(a, b)` (`execMul_execAdd`), which is the dividend; neither the product nor the
sum exceeds its magnitude. -/
theorem divisionContract : Obligations.DivisionContract := by
  unfold Obligations.DivisionContract
  intro q r a b x s h hr ha hb h0 hqr hbq hbr hxr
  obtain ⟨s₁, hdivrem, hcfg, h₁, hr₁, hq, hrem, hdivisor⟩ := execDivrem_holds h hr ha hb h0 hqr hbq hbr
  have hdividend : Int.tdiv (s.value a) (s.value b) * s.value b + Int.tmod (s.value a) (s.value b) = s.value a :=
    Int.tdiv_mul_add_tmod _ _
  have hproduct : s.Fits (Int.tdiv (s.value a) (s.value b) * s.value b) :=
    h.fits_of_natAbs_le ha (natAbs_tdiv_mul_le _ _)
  have hsum : s.Fits (Int.tdiv (s.value a) (s.value b) * s.value b + Int.tmod (s.value a) (s.value b)) :=
    hdividend.symm ▸ h.natAbs_lt ha
  rw [State.Fits, ← hcfg] at hproduct hsum
  obtain ⟨s₂, s₃, hmul, hadd, hstatus, hx⟩ := execMul_execAdd h₁ hr₁ hq hdivisor hrem hxr hproduct hsum
  refine ⟨s₁, s₂, s₃, _, hdivrem, hmul, hadd, hstatus, ?dividend, ?below, ?sign,
    execDiv_of_ne_zero h ha hb q h0, ?quotient, hcfg ▸ hq.canonical, hcfg ▸ hrem.canonical⟩
  case dividend => rw [hx, hdividend, hcfg, h.holds ha]
  case below =>
    rw [hrem.value_eq]
    exact natAbs_tmod_lt _ h0
  case sign =>
    rw [hrem.value_eq]
    exact tmod_eq_zero_or_neg_iff _ _
  case quotient => rw [hq, hcfg, State.reg_succeed, State.reg_setNum_same]

end Sys2Proof.Machine
end

section
/-! Powers of the base: as powers of two (00_scope R5), and as bounds of integers. -/

namespace Sys2Proof

theorem Config.sixteen_le_W (c : Config) : 16 ≤ c.W := by
  obtain ⟨hW, -⟩ | ⟨hW, -⟩ := c.W_and_D <;> omega

theorem Config.B_pow (c : Config) (n : Nat) : c.B ^ n = 2 ^ (c.W * n) := (pow_mul 2 c.W n).symm

theorem Config.intCast_B_pow (c : Config) (n : Nat) : (c.B : Int) ^ n = 2 ^ (c.W * n) := by
  exact_mod_cast c.B_pow n

theorem natAbs_lt_pow_iff {B n : Nat} {x : Int} :
    x.natAbs < B ^ n ↔ -((B : Int) ^ n) < x ∧ x < (B : Int) ^ n := by
  rw [← abs_lt, Int.abs_eq_natAbs]
  norm_cast

end Sys2Proof
end

section
/-! The integer a bitwise operator computes (45_bitwise R131): its bits are the operator's, which fix it, and its sign
is the operator of the signs (R127). -/

namespace Sys2Proof.Machine

/-- Every bit of `z` is the operator of the two operands' bits (R131). -/
def BitOp.Computes (o : BitOp) (x y z : Int) : Prop := ∀ k, intBit z k = o.bit (intBit x k) (intBit y k)

theorem BitOp.bit_comm (o : BitOp) (p q : Bool) : o.bit p q = o.bit q p := by
  cases o with
  | or => exact Bool.or_comm p q
  | xor => exact Bool.xor_comm p q
  | and => exact Bool.and_comm p q

/-- Such an integer exists: the datapath yields it, at any base; here at base 2 (R130, R131). -/
theorem BitOp.exists_computes (o : BitOp) (x y : Int) :
    ∃ z, o.Computes x y z ∧ decide (z < 0) = o.bit (decide (x < 0)) (decide (y < 0)) := by
  obtain ⟨z, hbits, hsign, -⟩ := canon_bitwise2 (W := 1) le_rfl o (num_canonical (by norm_num) x)
    (num_canonical (by norm_num) y)
  rw [num_value (by norm_num), num_value (by norm_num)] at hsign
  simp only [num_value (B := 2 ^ 1) (by norm_num)] at hbits
  exact ⟨z, hbits, hsign⟩

namespace BitOp.Computes
variable {o : BitOp} {x y z : Int}

theorem unique {z' : Int} (h : o.Computes x y z) (h' : o.Computes x y z') : z = z' :=
  intBit_ext fun k => (h k).trans (h' k).symm

theorem comm (h : o.Computes x y z) : o.Computes y x z := fun k => (h k).trans (o.bit_comm _ _)

/-- The result is negative exactly when the operator of the signs says so (R127). -/
theorem neg_iff (h : o.Computes x y z) : z < 0 ↔ o.bit (decide (x < 0)) (decide (y < 0)) = true := by
  obtain ⟨z', h', hsign⟩ := o.exists_computes x y
  rw [h.unique h', ← hsign, decide_eq_true_iff]

theorem or_neg_iff (h : BitOp.or.Computes x y z) : z < 0 ↔ x < 0 ∨ y < 0 :=
  h.neg_iff.trans (by simp [BitOp.bit])

theorem xor_neg_iff (h : BitOp.xor.Computes x y z) : z < 0 ↔ ¬ (x < 0 ↔ y < 0) :=
  h.neg_iff.trans (by simp [BitOp.bit])

theorem and_neg_iff (h : BitOp.and.Computes x y z) : z < 0 ↔ x < 0 ∧ y < 0 :=
  h.neg_iff.trans (by simp [BitOp.bit])

/-- OR needs no digit more than its operands (R138): a negative result is not below a negative operand. -/
theorem or_natAbs_lt (h : BitOp.or.Computes x y z) {c : Config} {n : Nat} (hx : x.natAbs < c.B ^ n)
    (hy : y.natAbs < c.B ^ n) : z.natAbs < c.B ^ n := by
  rw [natAbs_lt_pow_iff, c.intCast_B_pow] at hx hy ⊢
  have hpos : (0 : Int) < 2 ^ (c.W * n) := by positivity
  rcases lt_or_ge x 0 with hx0 | hx0
  · obtain ⟨hlow, hneg⟩ := or_ge_of_neg hx0 h
    exact ⟨hx.1.trans_le hlow, hneg.trans hpos⟩
  rcases lt_or_ge y 0 with hy0 | hy0
  · obtain ⟨hlow, hneg⟩ := or_ge_of_neg hy0 h.comm
    exact ⟨hy.1.trans_le hlow, hneg.trans hpos⟩
  · obtain ⟨hnonneg, hhigh⟩ := or_lt_of_nonneg hx0 hy0 hx.2 hy.2 h
    exact ⟨(neg_neg_of_pos hpos).trans_le hnonneg, hhigh⟩

end BitOp.Computes

end Sys2Proof.Machine
end

section
/-! NOT, OR, XOR and AND (45_bitwise R133-R136): the integer computed behind the capacity check. -/

namespace Sys2Proof.Machine

theorem execBitNot_of_valid {s : State} (h : s.Inv) (rd : RegId) {ra : RegId} (ha : s.Valid ra) :
    execBitNot rd ra s = if s.Fits (-(s.value ra + 1))
      then .next (s.setNum rd (num s.cfg.B (-(s.value ra + 1)))).succeed else .next (s.raise .alloc) :=
  unaryCommand_num h.cfg ha (canon_bitwiseNot s.cfg.two_le_B (h.canonical ha)) rd

section
variable {s : State} (h : s.Inv) {ra rb : RegId} (ha : s.Valid ra) (hb : s.Valid rb) {o : BitOp} {z : Int}
  (hz : o.Computes (s.value ra) (s.value rb) z)
include h ha hb hz

/-- The datapath yields the one integer with the operator's bits (R130, R131). -/
theorem canon_bitwise2_of_computes : canon (bitwise2 s.cfg.B o (s.reg ra).num (s.reg rb).num) = num s.cfg.B z := by
  obtain ⟨z', hbits, -, hcanon⟩ := canon_bitwise2 s.cfg.W_pos o (h.canonical ha) (h.canonical hb)
  rw [hz.unique hbits]
  exact hcanon

theorem bitwiseCommand_of_computes (rd : RegId) : binaryCommand (bitwise2 s.cfg.B o) rd ra rb s =
    if s.Fits z then .next (s.setNum rd (num s.cfg.B z)).succeed else .next (s.raise .alloc) :=
  binaryCommand_num h.cfg ha hb (canon_bitwise2_of_computes h ha hb hz) rd

end

/-- OR of two registers fits a register (R138). -/
theorem State.Inv.fits_or {s : State} (h : s.Inv) {ra rb : RegId} (ha : s.Valid ra) (hb : s.Valid rb) {z : Int}
    (hz : BitOp.or.Computes (s.value ra) (s.value rb) z) : s.Fits z :=
  hz.or_natAbs_lt (h.natAbs_lt ha) (h.natAbs_lt hb)

/-- OR raises no ALLOC (R138). -/
theorem execBitOr_of_computes {s : State} (h : s.Inv) (rd : RegId) {ra rb : RegId} (ha : s.Valid ra)
    (hb : s.Valid rb) {z : Int} (hz : BitOp.or.Computes (s.value ra) (s.value rb) z) :
    execBitOr rd ra rb s = .next (s.setNum rd (num s.cfg.B z)).succeed :=
  (bitwiseCommand_of_computes h ha hb hz rd).trans (if_pos (h.fits_or ha hb hz))

/-- Settles O30: the words of NOT's row, `-(x + 1)` behind its capacity check (`execBitNot_of_valid`), and UNINIT. -/
theorem notCommand : Obligations.NotCommand := by
  unfold Obligations.NotCommand
  exact ⟨issuesAs_withFields .bitNot, fun rd ra s h _ =>
    ⟨fun ha hf => (execBitNot_of_valid h rd ha).trans (if_pos hf),
      fun ha hf => (execBitNot_of_valid h rd ha).trans (if_neg hf), unaryCommand_uninit _ rd⟩⟩

/-- Settles O31: the words of OR's row, the one integer with the bits, which always fits (`execBitOr_of_computes`), and
UNINIT. -/
theorem orCommand : Obligations.OrCommand := by
  unfold Obligations.OrCommand
  refine ⟨issuesAs_withFields .bitOr, fun rd ra rb s h _ => ⟨fun ha hb => ?_, binaryCommand_uninit _ rd⟩⟩
  obtain ⟨z, hz, -⟩ := BitOp.or.exists_computes (s.value ra) (s.value rb)
  exact ⟨z, hz, hz.or_neg_iff, execBitOr_of_computes h rd ha hb hz⟩

/-- Settles O32: the words of XOR's row, the one integer with the bits behind its capacity check
(`bitwiseCommand_of_computes`), and UNINIT. -/
theorem xorCommand : Obligations.XorCommand := by
  unfold Obligations.XorCommand
  refine ⟨issuesAs_withFields .bitXor, fun rd ra rb s h _ => ⟨fun ha hb => ?_, binaryCommand_uninit _ rd⟩⟩
  obtain ⟨z, hz, -⟩ := BitOp.xor.exists_computes (s.value ra) (s.value rb)
  have hexec := bitwiseCommand_of_computes h ha hb hz rd
  exact ⟨z, hz, hz.xor_neg_iff, fun hf => hexec.trans (if_pos hf), fun hf => hexec.trans (if_neg hf)⟩

/-- Settles O33: the words of AND's row, the one integer with the bits behind its capacity check
(`bitwiseCommand_of_computes`), and UNINIT. -/
theorem andCommand : Obligations.AndCommand := by
  unfold Obligations.AndCommand
  refine ⟨issuesAs_withFields .bitAnd, fun rd ra rb s h _ => ⟨fun ha hb => ?_, binaryCommand_uninit _ rd⟩⟩
  obtain ⟨z, hz, -⟩ := BitOp.and.exists_computes (s.value ra) (s.value rb)
  have hexec := bitwiseCommand_of_computes h ha hb hz rd
  exact ⟨z, hz, hz.and_neg_iff, fun hf => hexec.trans (if_pos hf), fun hf => hexec.trans (if_neg hf)⟩

end Sys2Proof.Machine
end

section
/-! The laws of the bitwise commands (45_bitwise R137), and OR, XOR and AND with 0 and with -1 (R131, R134-R136). -/

namespace Sys2Proof.Machine

/-- NOT that raises nothing leaves `-(x + 1)` in its destination (R133). -/
theorem holds_of_execBitNot {s t : State} (h : s.Inv) {rd ra : RegId} (ha : s.Valid ra)
    (he : exec (.bitNot rd ra) s = .next t) (h0 : t.status = 0#32) : t.Holds rd (-(s.value ra + 1)) := by
  have hexec : exec (.bitNot rd ra) s = _ := execBitNot_of_valid h rd ha
  rw [he] at hexec
  split at hexec
  case isTrue =>
    cases hexec
    exact (s.holds_setNum rd _).succeed
  case isFalse =>
    cases hexec
    exact absurd h0 (statusAfterError_ne_zero s.status .alloc)

/-- Complement involution (R137): `-(-(x + 1) + 1)` is `x`. -/
theorem reg_of_execBitNot_twice {s t u : State} (h : s.Inv) (hr : s.Running) {rd ra : RegId} (ha : s.Valid ra)
    (ht : exec (.bitNot rd ra) s = .next t) (ht0 : t.status = 0#32) (hu : exec (.bitNot rd rd) t = .next u)
    (hu0 : u.status = 0#32) : u.reg rd = s.reg ra := by
  have hnot := holds_of_execBitNot h ha ht ht0
  have hback := holds_of_execBitNot (inv_of_exec h hr ht) hnot.valid hu hu0
  rw [hnot.value_eq, show -(-(s.value ra + 1) + 1) = s.value ra by ring] at hback
  rw [hback, exec_cfg hu, exec_cfg ht]
  exact (h.holds ha).symm

/-- Every register has room for two digits (R8). -/
theorem State.Inv.fits_of_natAbs_lt_B_sq {s : State} (h : s.Inv) {x : Int} (hx : x.natAbs < s.cfg.B ^ 2) : s.Fits x :=
  hx.trans_le (Nat.pow_le_pow_right (zero_lt_two.trans_le s.cfg.two_le_B) h.cfg.1)

/-- The pairs of R137: an integer and its complement. -/
def complementVectors (c : Config) : List (Int × Int) :=
  [(0, -1), (-1, 0), (2 ^ (c.IW - 1) - 1, -(2 ^ (c.IW - 1))), (65535, -65536), (-65535, 65534)]

/-- Each second one is the complement of the first and has at most two digits. -/
theorem complementVectors_spec (c : Config) :
    ∀ p ∈ complementVectors c, -(p.1 + 1) = p.2 ∧ p.2.natAbs < c.B ^ 2 := by
  have hdigit : 2 ^ 16 < c.B ^ 2 := by
    rw [c.B_pow]
    exact Nat.pow_lt_pow_right (by norm_num) (by have := c.sixteen_le_W; omega)
  have hmachine : 2 ^ (c.IW - 1) < c.B ^ 2 := by
    calc 2 ^ (c.IW - 1) < 2 ^ c.IW := Nat.pow_lt_pow_right (by norm_num) (by have := c.IW_pos; omega)
      _ = c.B ^ c.ND := c.B_pow_ND.symm
      _ ≤ c.B ^ 2 := Nat.pow_le_pow_right (zero_lt_two.trans_le c.two_le_B) c.ND_le_two
  simp only [complementVectors, List.forall_mem_cons]
  refine ⟨⟨by norm_num, ?_⟩, ⟨by norm_num, ?_⟩, ⟨by ring, ?machineInteger⟩, ⟨by norm_num, ?_⟩, ⟨by norm_num, ?_⟩,
    List.forall_mem_nil _⟩
  case machineInteger => simpa [Int.natAbs_pow] using hmachine
  all_goals omega

/-- OR, XOR and AND of two registers do not depend on their order, errors included. -/
theorem bitwiseCommand_comm {s : State} (h : s.Inv) (o : BitOp) (rd ra rb : RegId) :
    binaryCommand (bitwise2 s.cfg.B o) rd ra rb s = binaryCommand (bitwise2 s.cfg.B o) rd rb ra s :=
  binaryCommand_comm h.cfg rd fun ha hb =>
    have ⟨z, hz, _⟩ := o.exists_computes (s.value ra) (s.value rb)
    ⟨z, canon_bitwise2_of_computes h ha hb hz, canon_bitwise2_of_computes h hb ha hz.comm⟩

/-- Settles O42: involution (`reg_of_execBitNot_twice`), the vectors, whose results have at most two digits
(`complementVectors_spec`), canonical results (`canonical_dest_of_exec`), and commutativity (`bitwiseCommand_comm`). -/
theorem bitwiseLaws : Obligations.BitwiseLaws := by
  unfold Obligations.BitwiseLaws
  intro rd ra rb s h hr
  refine ⟨fun ha t u ht ht0 hu hu0 => reg_of_execBitNot_twice h hr ha ht ht0 hu hu0, ?vectors, ?canonical,
    bitwiseCommand_comm h .or rd ra rb, bitwiseCommand_comm h .xor rd ra rb, bitwiseCommand_comm h .and rd ra rb⟩
  case vectors =>
    intro p hp ha hx
    obtain ⟨hcompl, hsize⟩ := complementVectors_spec s.cfg p hp
    have hexec := execBitNot_of_valid h rd ha
    rw [hx, hcompl, if_pos (h.fits_of_natAbs_lt_B_sq hsize)] at hexec
    exact hexec
  case canonical =>
    rintro t (he | he | he | he) h0
    all_goals exact canonical_dest_of_exec h hr he h0 (List.mem_singleton_self rd)

/-! The identities. -/

theorem intBit_zero (k : Nat) : intBit 0 k = false := by
  simpa using intBit_natCast 0 k

/-- `-(x + 1)` has every bit of `x` inverted (R131). -/
theorem intBit_neg_add_one (x : Int) (k : Nat) : intBit (-(x + 1)) k = !intBit x k := by
  cases x with
  | ofNat n =>
    rw [show -(Int.ofNat n + 1) = Int.negSucc n from rfl, intBit_negSucc, Int.ofNat_eq_natCast, intBit_natCast]
  | negSucc n =>
    rw [show -(Int.negSucc n + 1) = n by omega, intBit_negSucc, intBit_natCast, Bool.not_not]

theorem num_neg_one {B : Nat} (hB : 2 ≤ B) : num B (-1) = { sign := .negative, digits := [1] } := by
  refine canonical_unique hB (num_canonical (by omega) (-1)) ⟨le_refl 1, .inl (by decide), by decide, ?_, rfl⟩ ?_
  · exact List.forall_mem_singleton.2 hB
  · rw [num_value hB]
    simp [Number.value, SignTag.neg]

namespace BitOp
variable (x : Int)

theorem or_zero : BitOp.or.Computes x 0 x := fun k => by simp [BitOp.bit, intBit_zero]
theorem xor_zero : BitOp.xor.Computes x 0 x := fun k => by simp [BitOp.bit, intBit_zero]
theorem and_zero : BitOp.and.Computes x 0 0 := fun k => by simp [BitOp.bit, intBit_zero]
theorem or_neg_one : BitOp.or.Computes x (-1) (-1) := fun k => by simp [BitOp.bit, intBit_neg_one]
theorem xor_neg_one : BitOp.xor.Computes x (-1) (-(x + 1)) := fun k => by
  rw [BitOp.bit, intBit_neg_add_one, intBit_neg_one, Bool.xor_true]
theorem and_neg_one : BitOp.and.Computes x (-1) x := fun k => by simp [BitOp.bit, intBit_neg_one]

end BitOp

section
variable {s : State} (h : s.Inv) {ra rb : RegId} (ha : s.Valid ra) (hb : s.Valid rb) {o : BitOp}
include h ha hb

/-- Where the result is the first operand's integer, the Number of its register is copied. -/
theorem bitwiseCommand_of_computes_left (hz : o.Computes (s.value ra) (s.value rb) (s.value ra)) (rd : RegId) :
    binaryCommand (bitwise2 s.cfg.B o) rd ra rb s = .next (s.setNum rd (s.reg ra).num).succeed := by
  rw [bitwiseCommand_of_computes h ha hb hz, if_pos (h.natAbs_lt ha), ← h.eq_num ha]

/-- Where the result is the second operand's integer, it fits, as the operand does. -/
theorem bitwiseCommand_of_computes_right (hz : o.Computes (s.value ra) (s.value rb) (s.value rb)) (rd : RegId) :
    binaryCommand (bitwise2 s.cfg.B o) rd ra rb s = .next (s.setNum rd (num s.cfg.B (s.value rb))).succeed := by
  rw [bitwiseCommand_of_computes h ha hb hz, if_pos (h.natAbs_lt hb)]

end

/-- Settles O44: the result is an operand, which its register already holds (`bitwiseCommand_of_computes_left` and
`_right`), except that XOR with -1 is the complement. -/
theorem bitwiseIdentities : Obligations.BitwiseIdentities := by
  unfold Obligations.BitwiseIdentities
  intro rd ra rb s h _ ha hb
  have hB := s.cfg.two_le_B
  refine ⟨fun hy => ?zero, fun hy => ?negOne⟩
  case zero =>
    have hand := bitwiseCommand_of_computes_right h ha hb (o := .and) (hy ▸ BitOp.and_zero _) rd
    rw [hy, num_zero hB] at hand
    exact ⟨bitwiseCommand_of_computes_left h ha hb (o := .or) (hy ▸ BitOp.or_zero _) rd,
      bitwiseCommand_of_computes_left h ha hb (o := .xor) (hy ▸ BitOp.xor_zero _) rd, hand⟩
  case negOne =>
    have hor := bitwiseCommand_of_computes_right h ha hb (o := .or) (hy ▸ BitOp.or_neg_one _) rd
    rw [hy, num_neg_one hB] at hor
    have hxor := bitwiseCommand_of_computes h ha hb (o := .xor) (hy ▸ BitOp.xor_neg_one _) rd
    exact ⟨hor, hxor.trans (execBitNot_of_valid h rd ha).symm,
      bitwiseCommand_of_computes_left h ha hb (o := .and) (hy ▸ BitOp.and_neg_one _) rd⟩

end Sys2Proof.Machine
end

section
/-! When the bitwise commands raise ALLOC (45_bitwise R138): of the integers `-B^n <= z < B^n` that `n` digits of two's
complement hold, `-B^n` alone needs a digit more. -/

namespace Sys2Proof.Machine

/-- `-B^n <= z < B^n`: what `n` digits of two's complement hold beside the tag (R123, R138). -/
def WithinDigits (B n : Nat) (z : Int) : Prop := -((B : Int) ^ n) ≤ z ∧ z < (B : Int) ^ n

theorem withinDigits_of_natAbs_lt {B n : Nat} {x : Int} (hx : x.natAbs < B ^ n) : WithinDigits B n x :=
  (natAbs_lt_pow_iff.1 hx).imp_left le_of_lt

/-- The complement of a magnitude of `n` digits. -/
theorem withinDigits_complement {B n : Nat} {x : Int} (hx : x.natAbs < B ^ n) : WithinDigits B n (-(x + 1)) := by
  obtain ⟨hlo, hhi⟩ := natAbs_lt_pow_iff.1 hx
  exact ⟨by linarith [Int.add_one_le_of_lt hhi], by linarith⟩

/-- The operators stay within the digits of their operands. -/
theorem BitOp.Computes.withinDigits {o : BitOp} {x y z : Int} (h : o.Computes x y z) {c : Config} {n : Nat}
    (hx : x.natAbs < c.B ^ n) (hy : y.natAbs < c.B ^ n) : WithinDigits c.B n z := by
  have hx' := withinDigits_of_natAbs_lt hx
  have hy' := withinDigits_of_natAbs_lt hy
  rw [WithinDigits, c.intCast_B_pow] at hx' hy' ⊢
  exact (bitOp_range o hx' hy' h).1

namespace WithinDigits
variable {B n : Nat} {z : Int} (h : WithinDigits B n z)
include h

theorem natAbs_lt_iff : z.natAbs < B ^ n ↔ z ≠ -((B : Int) ^ n) := by
  rw [natAbs_lt_pow_iff]
  exact ⟨fun hz => hz.1.ne', fun hz => ⟨lt_of_le_of_ne h.1 hz.symm, h.2⟩⟩

theorem num_size (hB : 2 ≤ B) (hn : 1 ≤ n) :
    if z = -((B : Int) ^ n) then (num B z).size = n + 1 else (num B z).size ≤ n := by
  have hsize := num_size_le_iff hB z hn
  split
  case isTrue hz =>
    have habs : z.natAbs = B ^ n := by rw [hz, Int.natAbs_neg, Int.natAbs_pow, Int.natAbs_natCast]
    have hupp : (num B z).size ≤ n + 1 :=
      (num_size_le_iff hB z (by omega)).2 (habs ▸ Nat.pow_lt_pow_right hB (Nat.lt_succ_self n))
    omega
  case isFalse hz => exact hsize.2 (h.natAbs_lt_iff.2 hz)

end WithinDigits

section
variable {s : State} {z : Int}

theorem WithinDigits.not_fits_iff (hz : WithinDigits s.cfg.B s.cfg.nmax z) :
    ¬ s.Fits z ↔ z = -((s.cfg.B : Int) ^ s.cfg.nmax) := by
  rw [State.Fits, hz.natAbs_lt_iff, not_not]

/-- With a digit of the register to spare the one exceptional result fits too. -/
theorem WithinDigits.fits {n : Nat} (hz : WithinDigits s.cfg.B n z) (hn : n < s.cfg.nmax) : s.Fits z := by
  have hpow : (s.cfg.B : Int) ^ n < (s.cfg.B : Int) ^ s.cfg.nmax := by
    exact_mod_cast Nat.pow_lt_pow_right s.cfg.two_le_B hn
  obtain ⟨hlo, hhi⟩ := hz
  exact natAbs_lt_pow_iff.2 ⟨by linarith, by linarith⟩

end

section
variable {s : State} (h : s.Inv) {ra : RegId} (ha : s.Valid ra)
include h ha

/-- A register's integer is below the power of its digit count, or of any greater one. -/
theorem State.Inv.natAbs_lt_pow {n : Nat} (hn : (s.reg ra).num.size ≤ n) : (s.value ra).natAbs < s.cfg.B ^ n :=
  (size_le_iff s.cfg.two_le_B (h.canonical ha) ((h.canonical ha).1.trans hn)).1 hn

theorem execBitNot_eq_alloc_iff (rd : RegId) :
    execBitNot rd ra s = .next (s.raise .alloc) ↔ ¬ s.Fits (-(s.value ra + 1)) := by
  rw [execBitNot_of_valid h rd ha, capacity_eq_alloc_iff]

variable {rb : RegId} (hb : s.Valid rb) {o : BitOp}
include hb

theorem bitwiseCommand_eq_alloc_iff {z : Int} (hz : o.Computes (s.value ra) (s.value rb) z) (rd : RegId) :
    binaryCommand (bitwise2 s.cfg.B o) rd ra rb s = .next (s.raise .alloc) ↔ ¬ s.Fits z := by
  rw [bitwiseCommand_of_computes h ha hb hz, capacity_eq_alloc_iff]

theorem bitwiseCommand_ne_alloc (rd : RegId) (hm : max (s.reg ra).num.size (s.reg rb).num.size < s.cfg.nmax) :
    binaryCommand (bitwise2 s.cfg.B o) rd ra rb s ≠ .next (s.raise .alloc) := by
  obtain ⟨z, hz, -⟩ := o.exists_computes (s.value ra) (s.value rb)
  have hrange := hz.withinDigits (h.natAbs_lt_pow ha (le_max_left _ _)) (h.natAbs_lt_pow hb (le_max_right _ _))
  exact fun e => (bitwiseCommand_eq_alloc_iff h ha hb hz rd).1 e (hrange.fits hm)

end

/-- Settles O43: results are within the digits of their operands (`BitOp.Computes.withinDigits`), of which `-B^n` alone
needs one more (`WithinDigits.num_size`); it is negative, which tells the signs of the operands. -/
theorem bitwiseCapacity : Obligations.BitwiseCapacity := by
  unfold Obligations.BitwiseCapacity
  intro rd ra rb s h _ ha hb
  dsimp only
  have hB := s.cfg.two_le_B
  have hxn := h.natAbs_lt_pow ha le_rfl
  have hxm := h.natAbs_lt_pow ha (le_max_left _ (s.reg rb).num.size)
  have hym := h.natAbs_lt_pow hb (le_max_right (s.reg ra).num.size _)
  have hnot := withinDigits_complement hxn
  have hneg (n : Nat) : -((s.cfg.B : Int) ^ n) < 0 :=
    neg_neg_of_pos (pow_pos (by exact_mod_cast zero_lt_two.trans_le hB) n)
  have halloc {o : BitOp} {z : Int} (hz : o.Computes (s.value ra) (s.value rb) z) :=
    (bitwiseCommand_eq_alloc_iff h ha hb hz rd).trans
      (hz.withinDigits (h.natAbs_lt ha) (h.natAbs_lt hb)).not_fits_iff
  refine ⟨?operands, ?complement, ?size, ?and, ?xor, ?or, ?not, ?orAlloc, ?notSmall, ?small⟩
  case operands =>
    obtain ⟨hxnLow, hxnHigh⟩ := natAbs_lt_pow_iff.1 hxn
    obtain ⟨hxmLow, hxmHigh⟩ := natAbs_lt_pow_iff.1 hxm
    exact ⟨hxnLow, hxnHigh, hxmLow, hxmHigh, natAbs_lt_pow_iff.1 hym⟩
  case complement => exact ⟨hnot.1, hnot.2, fun e => by linarith, fun e => by linarith⟩
  case size => exact fun k z hk hlow hhigh => WithinDigits.num_size ⟨hlow, hhigh⟩ hB hk
  case and =>
    intro z (hz : BitOp.and.Computes _ _ z)
    obtain ⟨hlow, hhigh⟩ := hz.withinDigits hxm hym
    exact ⟨hlow, hhigh, fun e => hz.and_neg_iff.1 (e.trans_lt (hneg _)), halloc hz⟩
  case xor =>
    intro z (hz : BitOp.xor.Computes _ _ z)
    obtain ⟨hlow, hhigh⟩ := hz.withinDigits hxm hym
    exact ⟨hlow, hhigh, fun e => hz.xor_neg_iff.1 (e.trans_lt (hneg _)), halloc hz⟩
  case or => exact fun z (hz : BitOp.or.Computes _ _ z) => natAbs_lt_pow_iff.1 (hz.or_natAbs_lt hxm hym)
  case not =>
    exact (execBitNot_eq_alloc_iff h ha rd).trans (withinDigits_complement (h.natAbs_lt ha)).not_fits_iff
  case orAlloc =>
    obtain ⟨z, hz, -⟩ := BitOp.or.exists_computes (s.value ra) (s.value rb)
    exact fun e => (bitwiseCommand_eq_alloc_iff h ha hb hz rd).1 e (h.fits_or ha hb hz)
  case notSmall => exact fun hn e => (execBitNot_eq_alloc_iff h ha rd).1 e (hnot.fits hn)
  case small => exact fun hm => ⟨bitwiseCommand_ne_alloc h ha hb rd hm, bitwiseCommand_ne_alloc h ha hb rd hm⟩

end Sys2Proof.Machine
end

section
/-! STATUS after an error (60_exceptions R148, R149), and the halted block (R150). -/

namespace Sys2Proof.Machine

theorem ErrCode.code_injective : Function.Injective ErrCode.code := by
  intro e e' h
  revert h
  cases e <;> cases e' <;> decide

/-- Errors raised in one state are told apart by the code they leave (R140). -/
theorem State.raise_injective (s : State) : Function.Injective s.raise := by
  intro e e' h
  have hcode : errField (s.raise e).status = errField (s.raise e').status := congrArg (fun t => errField t.status) h
  rw [State.raise_status, State.raise_status, errField_statusAfterError, errField_statusAfterError] at hcode
  exact ErrCode.code_injective hcode

theorem State.errField_raise (s : State) (e : ErrCode) : errField (s.raise e).status = e.code :=
  errField_statusAfterError s.status e

/-- A recoverable error writes `ERR` alone (R148). -/
theorem getLsbD_statusAfterError_of_recoverable (w : BitVec 32) {e : ErrCode} (he : e.fatal = false) {b : Nat}
    (h4 : 4 ≤ b) (h32 : b < 32) : (statusAfterError w e).getLsbD b = w.getLsbD b := by
  rw [statusAfterError, he, if_neg Bool.false_ne_true, getLsbD_withErr _ _ h4 h32]

/-- Settles O10: the three errors are those that are not fatal, so the raise writes `ERR` alone. -/
theorem recoverableEffect : Obligations.RecoverableEffect := by
  unfold Obligations.RecoverableEffect
  intro s hr
  refine ⟨⟨s.errField_raise .illegal, s.errField_raise .alloc, s.errField_raise .parse⟩, fun e he => ?_⟩
  have hfatal : e.fatal = false := by obtain rfl | rfl | rfl := he <;> rfl
  refine ⟨rfl, ?running, fun b h4 h32 => getLsbD_statusAfterError_of_recoverable s.status hfatal h4 h32⟩
  rw [State.Running, s.halted_raise, hfatal, Bool.false_or, hr]

/-- Settles O11: the three errors are the fatal ones, so the raise sets FATAL, which is the halted state. -/
theorem fatalEffect : Obligations.FatalEffect := by
  unfold Obligations.FatalEffect
  intro s
  refine ⟨⟨s.errField_raise .divzero, s.errField_raise .invariant, s.errField_raise .uninit⟩, fun e he => ?_⟩
  have hfatal : e.fatal = true := by obtain rfl | rfl | rfl := he <;> rfl
  have hhalted : (s.raise e).halted = true := by rw [s.halted_raise, hfatal, Bool.true_or]
  exact ⟨rfl, hhalted, hhalted, fun b h5 h32 => getLsbD_statusAfterError s.status e h5 h32⟩

/-- In a halted block no move but reset touches STATUS, a register or `DOUT`: a command word is ignored (R150). -/
theorem Move.halted_frame {a : HostAction} {s t : State} (hm : Move s a t) (hh : s.halted = true) (ha : a ≠ .reset) :
    t.halted = true ∧ t.status = s.status ∧ t.regs = s.regs ∧ t.dout = s.dout := by
  cases hm with
  | reset => exact absurd rfl ha
  | illegal _ hr | command hr => cases hh.symm.trans hr
  | _ => exact ⟨hh, rfl, rfl, rfl⟩

/-- Settles O6: of the moves of a halted block, a command word is ignored, the stores and the reads are those of the
host table, and the reset state is running. -/
theorem haltedState : Obligations.HaltedState := by
  unfold Obligations.HaltedState
  intro s hh
  refine ⟨issueCommand_halted hh, fun a t ha ht => (move_of_perform ht).halted_frame hh ha, ?writeDin, fun _ => rfl,
    fun k b hk => if_pos hk, rfl, rfl, rfl, rfl, fun k hk => if_pos hk, s.afterReset, rfl, ?running⟩
  case writeDin =>
    intro v hv
    rw [perform, Nat.mod_eq_of_lt hv]
  case running => exact (by decide : fatalField 0#32 = false)

end Sys2Proof.Machine
end

section
/-! Which errors a command raises (60_exceptions R140, R142, R145-R147, R151, R152, R155). -/

namespace Sys2Proof.Machine

/-- The outcome is a success, or the raise of an error that satisfies `P` (R147, R152). -/
inductive RaisesOnly (s : State) (P : ErrCode → Prop) : Host.Outcome State Fault Refusal → Prop
  | success {u : State} (hu : u.status = s.status) : RaisesOnly s P (.next u.succeed)
  | error {e : ErrCode} (he : P e) : RaisesOnly s P (.next (s.raise e))

theorem RaisesOnly.ne_raise {s : State} {P : ErrCode → Prop} {o : Host.Outcome State Fault Refusal}
    (h : RaisesOnly s P o) {e : ErrCode} (he : ¬ P e) : o ≠ .next (s.raise e) := by
  intro ho
  cases h with
  | success => exact State.succeed_ne_raise _ _ _ (Host.Outcome.next.inj ho)
  | error he' => exact he (s.raise_injective (Host.Outcome.next.inj ho) ▸ he')

/-- Whatever the state, a command succeeds or raises an error. -/
theorem raisesOnly_of_exec {i : Instr} {s t : State} (h : exec i s = .next t) :
    RaisesOnly s (fun _ => True) (.next t) := by
  cases effect_of_exec h with
  | error e => exact .error trivial
  | _ => exact .success rfl

/-- Settles O12: a success writes 0 to `ERR` alone. -/
theorem successStatus : Obligations.SuccessStatus := by
  unfold Obligations.SuccessStatus
  intro i s t h
  cases raisesOnly_of_exec h with
  | error => exact .inl ⟨_, rfl⟩
  | success hu =>
    refine .inr ⟨errField_withErr _ _, fun b h4 h32 => ?_⟩
    rw [State.succeed_status, statusAfterSuccess, getLsbD_withErr _ _ h4 h32, hu]

/-- Settles O16: a nonzero `ERR` is that of a raise, since a success leaves 0 there. -/
theorem errorsArePrecise : Obligations.ErrorsArePrecise := by
  unfold Obligations.ErrorsArePrecise
  intro i s t h herr
  cases raisesOnly_of_exec h with
  | error => rfl
  | success => exact absurd (errField_withErr _ _) herr

/-! Sources are checked first (R146, R151). -/

/-- A source without a Number, whichever of a command's sources it is, raises UNINIT. -/
theorem exec_uninit {i : Instr} {s : State} {r : RegId} (hwf : i.wf = true) (hr : r ∈ i.sources) (hv : ¬ s.Valid r) :
    exec i s = .next (s.raise .uninit) := by
  have pair {ra rb : RegId} (h : r ∈ [ra, rb]) : ¬ s.Valid ra ∨ ¬ s.Valid rb := by
    obtain rfl | rfl := List.mem_pair.1 h
    · exact .inl hv
    · exact .inr hv
  cases i with
  | fromint | fromdec => cases hr
  | toint ra => exact execToint_uninit (List.mem_singleton.1 hr ▸ hv)
  | todec ra => exact execTodec_uninit (List.mem_singleton.1 hr ▸ hv)
  | mov rd ra | bitNot rd ra => exact unaryCommand_uninit _ rd (List.mem_singleton.1 hr ▸ hv)
  | div rd ra rb => exact execDiv_uninit rd (pair hr)
  | divrem rd rr ra rb => exact execDivrem_uninit (bne_iff_ne.1 hwf) (pair hr)
  | add rd ra rb | sub rd ra rb | mul rd ra rb | bitOr rd ra rb | bitXor rd ra rb | bitAnd rd ra rb =>
    exact binaryCommand_uninit _ rd (pair hr)

theorem valid_pair {s : State} {ra rb : RegId} (hv : ∀ r ∈ [ra, rb], s.Valid r) : s.Valid ra ∧ s.Valid rb :=
  (List.forall_mem_cons.1 hv).imp_right List.forall_mem_singleton.1

section
variable {s : State} {P : ErrCode → Prop}

/-- A result behind its capacity check (R67). -/
theorem raisesOnly_writeResult (hP : P .alloc) (rd : RegId) (n : Number) :
    RaisesOnly s P (runCommand s (writeResult s rd n)) := by
  obtain h | ⟨m, h⟩ := writeResult_cases s rd n
  · rw [h]; exact .error hP
  · rw [h]; exact .success rfl

theorem raisesOnly_writeResults (hP : P .alloc) (rd rr : RegId) (n m : Number) :
    RaisesOnly s P (runCommand s (writeResults s rd n rr m)) := by
  obtain h | ⟨n', m', h⟩ := writeResults_cases s rd rr n m
  · rw [h]; exact .error hP
  · rw [h]; exact .success rfl

theorem raisesOnly_unaryCommand (hP : P .alloc) (f : Number → Number) (rd : RegId) {ra : RegId} (ha : s.Valid ra) :
    RaisesOnly s P (unaryCommand f rd ra s) := by
  rw [unaryCommand, readOperand_of_valid ha]
  exact raisesOnly_writeResult hP rd (f (s.reg ra).num)

theorem raisesOnly_binaryCommand (hP : P .alloc) (f : Number → Number → Number) (rd : RegId) {ra rb : RegId}
    (ha : s.Valid ra) (hb : s.Valid rb) : RaisesOnly s P (binaryCommand f rd ra rb s) := by
  rw [binaryCommand, readOperand_of_valid ha, readOperand_of_valid hb]
  exact raisesOnly_writeResult hP rd (f (s.reg ra).num (s.reg rb).num)

theorem raisesOnly_fromdec (hAlloc : P .alloc) (hParse : P .parse) (rd : RegId) :
    RaisesOnly s P (execFromdec rd s) := by
  obtain h | h | ⟨n, h⟩ := execFromdec_cases rd s
  · rw [h]; exact .error hParse
  · rw [h]; exact .error hAlloc
  · rw [h]; exact .success rfl

theorem raisesOnly_toint {ra : RegId} (ha : s.Valid ra) : RaisesOnly s P (execToint ra s) := by
  rw [execToint_of_valid ha]
  exact .success rfl

theorem raisesOnly_todec (hP : P .alloc) {ra : RegId} (ha : s.Valid ra) : RaisesOnly s P (execTodec ra s) := by
  rw [execTodec_of_valid ha]
  split
  · exact .error hP
  · exact .success rfl

/-- What follows the divider runs on the results it answers (R119). -/
theorem raisesOnly_divSigned (hZero : P .divzero) (hInvariant : P .invariant) {x y : Number}
    {write : Number × Number → Except ErrCode State} (hw : ∀ qr, RaisesOnly s P (runCommand s (write qr))) :
    RaisesOnly s P (runCommand s (divSigned s.cfg.W x y >>= write)) := by
  obtain h | h | ⟨qr, h⟩ := divSigned_cases s.cfg.W x y
  · rw [h]; exact .error hZero
  · rw [h]; exact .error hInvariant
  · rw [h]; exact hw qr

end

/-- With valid sources no command raises UNINIT, whatever the state: a destination is never read (R146). -/
theorem raisesOnly_of_valid_sources {i : Instr} {s : State} (hv : ∀ r ∈ i.sources, s.Valid r) :
    RaisesOnly s (· ≠ .uninit) (exec i s) := by
  have hAlloc : ErrCode.alloc ≠ .uninit := by decide
  cases i with
  | fromint rd => exact raisesOnly_writeResult hAlloc rd _
  | fromdec rd => exact raisesOnly_fromdec hAlloc (by decide) rd
  | toint ra => exact raisesOnly_toint (List.forall_mem_singleton.1 hv)
  | todec ra => exact raisesOnly_todec hAlloc (List.forall_mem_singleton.1 hv)
  | mov rd ra | bitNot rd ra => exact raisesOnly_unaryCommand hAlloc _ rd (List.forall_mem_singleton.1 hv)
  | add rd ra rb | sub rd ra rb | mul rd ra rb | bitOr rd ra rb | bitXor rd ra rb | bitAnd rd ra rb =>
    obtain ⟨ha, hb⟩ := valid_pair hv
    exact raisesOnly_binaryCommand hAlloc _ rd ha hb
  | div rd ra rb =>
    obtain ⟨ha, hb⟩ := valid_pair hv
    rw [exec, execDiv_of_valid rd ha hb]
    exact raisesOnly_divSigned (by decide) (by decide) fun qr => raisesOnly_writeResult hAlloc rd qr.1
  | divrem rd rr ra rb =>
    obtain ⟨ha, hb⟩ := valid_pair hv
    by_cases hne : rd = rr
    · rw [exec, hne, execDivrem_illegal]
      exact .error (by decide)
    · rw [exec, execDivrem_of_valid hne ha hb]
      exact raisesOnly_divSigned (by decide) (by decide) fun qr => raisesOnly_writeResults hAlloc rd rr qr.1 qr.2

/-- Settles O14: `exec_uninit` and `raisesOnly_of_valid_sources`. -/
theorem uninitSource : Obligations.UninitSource := by
  unfold Obligations.UninitSource
  exact fun i s hwf => ⟨fun r hr hv => exec_uninit hwf hr hv,
    fun hv => (raisesOnly_of_valid_sources hv).ne_raise (not_not.2 rfl)⟩

/-! The error table (R140). -/

theorem uninit_mem_raisable {i : Instr} {r : RegId} (hr : r ∈ i.sources) : .uninit ∈ raisable i := by
  cases i with
  | fromint | fromdec => cases hr
  | toint | mov | bitOr => exact List.mem_singleton_self _
  | _ => exact List.mem_pair.2 (.inr rfl)

/-- With valid sources a command raises what the table gives it. ALLOC is out where the result always fits, and
INVARIANT everywhere (R142, R145). -/
theorem raisesOnly_raisable_of_valid_sources {i : Instr} {s : State} (h : s.Inv) (hwf : i.wf = true)
    (hv : ∀ r ∈ i.sources, s.Valid r) : RaisesOnly s (· ∈ raisable i) (exec i s) := by
  cases i with
  | fromint rd =>
    rw [exec, execFromint_of_inv h]
    exact .success rfl
  | fromdec rd => exact raisesOnly_fromdec (List.mem_pair.2 (.inl rfl)) (List.mem_pair.2 (.inr rfl)) rd
  | toint ra => exact raisesOnly_toint (List.forall_mem_singleton.1 hv)
  | todec ra => exact raisesOnly_todec List.mem_cons_self (List.forall_mem_singleton.1 hv)
  | mov rd ra =>
    rw [exec, execMov_of_valid h rd (List.forall_mem_singleton.1 hv)]
    exact .success rfl
  | bitNot rd ra => exact raisesOnly_unaryCommand List.mem_cons_self _ rd (List.forall_mem_singleton.1 hv)
  | add rd ra rb | sub rd ra rb | mul rd ra rb | bitXor rd ra rb | bitAnd rd ra rb =>
    obtain ⟨ha, hb⟩ := valid_pair hv
    exact raisesOnly_binaryCommand List.mem_cons_self _ rd ha hb
  | bitOr rd ra rb =>
    obtain ⟨ha, hb⟩ := valid_pair hv
    obtain ⟨z, hz, -⟩ := BitOp.or.exists_computes (s.value ra) (s.value rb)
    rw [exec, execBitOr_of_computes h rd ha hb hz]
    exact .success rfl
  | div rd ra rb =>
    obtain ⟨ha, hb⟩ := valid_pair hv
    by_cases h0 : s.value rb = 0
    · rw [exec, execDiv_of_eq_zero h ha hb rd h0]
      exact .error List.mem_cons_self
    · rw [exec, execDiv_of_ne_zero h ha hb rd h0]
      exact .success rfl
  | divrem rd rr ra rb =>
    obtain ⟨ha, hb⟩ := valid_pair hv
    have hne : rd ≠ rr := bne_iff_ne.1 hwf
    by_cases h0 : s.value rb = 0
    · rw [exec, execDivrem_of_eq_zero h ha hb hne h0]
      exact .error List.mem_cons_self
    · rw [exec, execDivrem_of_ne_zero h ha hb hne h0]
      exact .success rfl

theorem raisesOnly_raisable {i : Instr} {s : State} (h : s.Inv) (hwf : i.wf = true) :
    RaisesOnly s (· ∈ raisable i) (exec i s) := by
  by_cases hv : ∀ r ∈ i.sources, s.Valid r
  · exact raisesOnly_raisable_of_valid_sources h hwf hv
  · push Not at hv
    obtain ⟨r, hr, hnv⟩ := hv
    rw [exec_uninit hwf hr hnv]
    exact .error (uninit_mem_raisable hr)

/-- Settles O13: a success of a running block leaves STATUS 0 (R24, R152), and an error is one of the table. -/
theorem raisedErrors : Obligations.RaisedErrors := by
  unfold Obligations.RaisedErrors
  intro i s t hwf h hr he
  have ht := raisesOnly_raisable h hwf
  rw [he] at ht
  cases ht with
  | success hu => exact .inl (statusAfterSuccess_eq_zero _ (hu ▸ h.status) (hu ▸ hr))
  | error hm => exact .inr ⟨_, hm, rfl⟩

/-! The order in which the errors of a command word are met (R151). -/

theorem wf_of_decode {w : CommandWord} {i : Instr} (h : decode w = .ok i) : i.wf = true := by
  obtain ⟨-, -, -, -, hwf⟩ := decode_eq_ok_iff.1 h
  exact hwf

/-- Settles O15: the halted check comes before the decoder, the decoder before the sources (`exec_uninit`), and these
before the divisor and the text. -/
theorem errorOrder : Obligations.ErrorOrder := by
  unfold Obligations.ErrorOrder
  intro w s h
  refine ⟨fun hh => issueCommand_halted hh w, fun hr hw => ?illegal, fun hr i hd => ?_⟩
  case illegal =>
    obtain ⟨c, hd⟩ := decode_error_iff_illegalWord.2 hw
    exact issueCommand_error hr hd
  rw [issueCommand_ok hr hd]
  have hwf := wf_of_decode hd
  refine ⟨?uninit, fun hv => ⟨?div, ?divrem, ?fromdec⟩⟩
  case uninit =>
    rintro ⟨r, hsource, hnv⟩
    exact exec_uninit hwf hsource hnv
  case div =>
    rintro rd ra rb rfl h0
    obtain ⟨ha, hb⟩ := valid_pair hv
    exact execDiv_of_eq_zero h ha hb rd h0
  case divrem =>
    rintro rd rr ra rb rfl h0
    obtain ⟨ha, hb⟩ := valid_pair hv
    exact execDivrem_of_eq_zero h ha hb (bne_iff_ne.1 hwf) h0
  case fromdec =>
    rintro rd rfl hx
    exact execFromdec_of_not_denotes hx rd

end Sys2Proof.Machine
end

section
/-! Reset, the host table, and the completion of every command (70_reset_and_hazards R159, R169, R172; 20_memory R42). -/

namespace Sys2Proof.Machine

/-- Each thing a command can do is a next state; none is a fault or a refusal (R42). -/
theorem Effect.exists_next {i : Instr} {s : State} {o : Host.Outcome State Fault Refusal} (h : Effect i s o) :
    ∃ t, o = .next t := by
  cases h with
  | error e => exact ⟨s.raise e, rfl⟩
  | register | registers | dout | text => exact ⟨_, rfl⟩

/-- Settles O17: every outcome of `exec` is one of the effects of its inversion lemma, and each of these is a next
state. -/
theorem everyCommandCompletes : Obligations.EveryCommandCompletes := by
  unfold Obligations.EveryCommandCompletes
  exact fun i s => (exec_effect i s).exists_next

/-- The one move that takes a halted block to a running one is reset (R150, R159). -/
theorem Move.eq_reset_of_halted_of_running {a : HostAction} {s t : State} (hm : Move s a t) (hh : s.halted = true)
    (hr : t.Running) : a = .reset := by
  by_contra ha
  obtain ⟨hstill, -⟩ := hm.halted_frame hh ha
  cases hstill.symm.trans hr

/-- Settles O7: a reset step replaces the state by that of `State.afterReset`, and every other move of a halted block
leaves it halted (`Move.halted_frame`). -/
theorem resetAction : Obligations.ResetAction := by
  unfold Obligations.ResetAction
  refine ⟨fun s rest hp => ?replaced, fun s t a hh ht hr => (move_of_perform ht).eq_reset_of_halted_of_running hh hr⟩
  rw [step_of_pending hp]
  rfl

/-- A pattern of at most `IW` bits is stored in `DIN` as it is (R25). -/
theorem perform_writeDin {s : State} {v : Nat} (hv : v < 2 ^ s.cfg.IW) :
    perform (.writeDin v) s = .next { s with din := v } := by
  rw [perform, Nat.mod_eq_of_lt hv]

theorem perform_writeTb {s : State} {k : Nat} (hk : k < s.cfg.tmax) (b : Byte) :
    perform (.writeTb k b) s = .next (s.setText k b) := if_pos hk

theorem perform_read_tb {s : State} {k : Nat} (hk : k < s.cfg.tmax) :
    perform (.read (.tb k)) s = .next { s with hostGot := some (s.text k).toNat } := if_pos hk

/-- Settles O8: the command word by the three cases of `issueCommand`, `DIN` and `TB` by their range checks, and the
other moves by their definition; the frame of a text write is that of `State.setText`. -/
theorem hostTable : Obligations.HostTable := by
  unfold Obligations.HostTable
  intro s
  refine ⟨rfl, fun w hh => issueCommand_halted hh w, fun w i hr hd => issueCommand_ok hr hd,
    fun w c hr hd => issueCommand_error hr hd, fun v hv => perform_writeDin hv, fun v => rfl, ?writeTb,
    fun v => rfl, fun v => rfl, rfl, rfl, rfl, rfl, rfl, fun k hk => perform_read_tb hk⟩
  case writeTb =>
    intro k b hk hw
    exact ⟨s.setText k b, perform_writeTb hk b, rfl, State.text_setText_same hw k b,
      fun j hj => s.text_setText_other hj b⟩

end Sys2Proof.Machine
end
